-- ==== Sys2Proof/Word.lean ====
section
/-! DEFINITION. The byte and the 64-bit word of the machine (rules R16, R20, R61). -/

namespace Sys2Proof

/-- A byte of memory or of an instruction (R61). -/
abbrev Byte := BitVec 8

/-- The widest datum of the machine: a whole general register, an address, a popped value (R20). -/
abbrev Word := BitVec 64

end Sys2Proof
end

