-- ==== Sys2Proof/Config.lean ====
section
/-! DEFINITION. The named kinds of thing the spec speaks of (modes, sizes, segment registers and their hidden parts), the
parameters a launch chooses (rules R10 to R15, R310, R311) and the free values, which are constants with no body. -/

namespace Sys2Proof

/-- The operating mode (R8, R40). -/
inductive Mode where
  | real
  | protected_
  | v8086
  | compat
  | long64
  deriving DecidableEq, Repr, Inhabited

/-- An operand, address or stack-address size in bits (R9). -/
inductive Size where
  | s16
  | s32
  | s64
  deriving DecidableEq, Repr, Inhabited

/-- The six segment registers (R33). -/
inductive SegName where
  | es
  | cs
  | ss
  | ds
  | fs
  | gs
  deriving DecidableEq, Repr, Inhabited

/-- What a segment is for (R34). -/
inductive SegKind where
  | data (writable expandDown : Bool)
  | code (readable conforming : Bool)
  | system
  deriving DecidableEq, Repr, Inhabited

/-- The hidden (shadow) part of a segment register (R34). -/
structure SegHidden where
  base    : BitVec 64
  limit   : BitVec 32
  kind    : SegKind
  dpl     : BitVec 2
  present : Bool
  /-- The D flag of a code segment, the B flag of a stack segment. -/
  db      : Bool
  /-- 64-bit code segment. -/
  l       : Bool
  /-- False after a NULL selector was loaded (R222). -/
  usable  : Bool
  deriving DecidableEq, Repr, Inhabited

/-- What a memory access does, as Translate sees it (R13). -/
inductive Access where
  | read
  | write
  deriving DecidableEq, Repr, Inhabited

/-- What Translate answers for one linear address (R13). `frame p` sends the first address of the rule to the physical
address `p`, and the following ones after it. -/
inductive TransResult where
  | frame (phys : Nat)
  | pageFault (code : BitVec 32)
  deriving DecidableEq, Repr, Inhabited

/-- One rule of the paging function: the linear addresses `first` to `last`, for one access kind and privilege or for each.
DESIGN CHOICE (log 5): Translate is a list of rules over the identity, and the first rule that applies counts. Its domain is
finite, so each function on it is such a list. -/
structure TransRule where
  first  : Nat
  last   : Nat
  access : Option Access
  cpl    : Option (BitVec 2)
  result : TransResult
  deriving DecidableEq, Repr, Inhabited

/-- A range of physical addresses that exist (R83, R311). -/
structure PhysRange where
  first : Nat
  last  : Nat
  deriving DecidableEq, Repr, Inhabited

/-- An offer of the environment at one instruction boundary (R15, R260). The two kinds of interrupt differ in whether the
interrupt-enable flag gates them (R260). -/
inductive InterruptOffer where
  | quiet
  | maskable
  | nonMaskable
  deriving DecidableEq, Repr, Inhabited

/-- `LinAddrBits` (R10, R78). -/
inductive LinAddrBits where
  | w48
  | w57
  deriving DecidableEq, Repr, Inhabited

/-- `WrapEA16` (R11, R159): the destination base when a 16-bit stack pointer wraps and register 4 is the base. `refuse` is the
spec's default. `anyBase` is the model's own fourth value, a free base, which a launch may choose (DESIGN CHOICE, log 7). -/
inductive WrapEA16 where
  | refuse
  | carry
  | wrap
  | anyBase
  deriving DecidableEq, Repr, Inhabited

/-- `SregPopReadBytes` (R12, R200). -/
inductive SregPopReadBytes where
  | operand
  | two
  deriving DecidableEq, Repr, Inhabited

/-- `AccessFaultOrder` (R14, R256, R258): the order the spec fixes, or either of two faults that apply (log 13). -/
inductive FaultOrder where
  | fixed
  | either
  deriving DecidableEq, Repr, Inhabited

/-- `DataSegPriv` (R310, R219). `refuse` is the spec's unset value, its default. `anyReading` is the model's own fourth value,
under which a free bit says which reading counts and which a launch may choose (DESIGN CHOICE, log 8). -/
inductive DataSegPriv where
  | either
  | both
  | refuse
  | anyReading
  deriving DecidableEq, Repr, Inhabited

/-- The parameters of a launch. No instruction writes them (log 6). -/
structure Params where
  linAddrBits      : LinAddrBits
  wrapEA16         : WrapEA16
  sregPopReadBytes : SregPopReadBytes
  faultOrder       : FaultOrder
  /-- `NullLoadHidden` (R14, R222): none stands for any value. -/
  nullLoadHidden   : Option SegHidden
  dataSegPriv      : DataSegPriv
  deriving DecidableEq, Repr, Inhabited

/-- The spec's default for each parameter (R10 to R12, R14, R310). -/
def Params.initial : Params where
  linAddrBits      := .w48
  wrapEA16         := .refuse
  sregPopReadBytes := .operand
  faultOrder       := .fixed
  nullLoadHidden   := none
  dataSegPriv      := .refuse

/-- Free value: bits 63:32 of general register `reg` after the `n`-th instruction wrote 32 bits of it outside Long64 (R24,
log 10). -/
opaque Config.freeUpper (n : Nat) (reg : Nat) : BitVec 32

/-- Free value: general register `reg`, one of 8 to 15, after the `n`-th instruction outside Long64, where no program reaches it
(R24, D3, log 10). -/
opaque Config.freeRegister (n : Nat) (reg : Nat) : BitVec 64

/-- Free value: the hidden part after a NULL selector was loaded (R222, log 9). -/
opaque Config.freeHidden (n : Nat) : SegHidden

/-- Free value: `inhibit` after the second of two consecutive POP SS (R226, D26, log 11). -/
opaque Config.freeInhibit (n : Nat) : Bool

/-- Free value: the base of a memory destination when a 16-bit stack pointer wraps and is that base (R159, log 7). -/
opaque Config.freeWrapBase (n : Nat) : BitVec 32

/-- Free value: whether the privilege test of a data-segment load fails when exactly one of RPL and CPL exceeds DPL (R219,
D40, log 8). -/
opaque Config.freePrivilege (n : Nat) : Bool

/-- Free value: whether the later of two faults that apply is the one reported, under `FaultOrder.either` (R256, R258, log
13). `choice` says which choice of the instruction it is: 0 the stack read, 1 the destination write, 2 between the two. -/
opaque Config.freeFault (n : Nat) (choice : Nat) : Bool

end Sys2Proof
end

