-- ==== Sys2Proof/Syntax.lean ====
section
/-! DEFINITION. POP as syntax: prefixes, operand forms and one constructor per row of spec/opcode_table.json. A term keeps
what the bytes say (the order of the prefixes, which of two encodings of one address was used), so that the encoder gives
the bytes back. -/

namespace Sys2Proof

/-- The number of a general register, RAX = 0 to R15 = 15 (R21). -/
abbrev GprNum := Fin 16

/-- A legacy prefix (R101). -/
inductive LegacyPrefix where
  | opSize
  | addrSize
  | lock
  | seg (s : SegName)
  deriving DecidableEq, Repr

/-- The REX prefix `0100WRXB` (R102). -/
structure Rex where
  w : Bool
  r : Bool
  x : Bool
  b : Bool
  deriving DecidableEq, Repr

/-- The prefixes of one instruction: the legacy ones in the order they stand, then REX (R100, R103). -/
structure Prefixes where
  legacy : List LegacyPrefix
  rex    : Option Rex
  deriving DecidableEq, Repr

/-- The displacement as encoded (R117). -/
inductive Disp where
  | none
  | d8 (d : BitVec 8)
  | d16 (d : BitVec 16)
  | d32 (d : BitVec 32)
  deriving DecidableEq, Repr

/-- The registers of a 16-bit address (R112), `abs` being rm 6 with mod 0. -/
inductive Addr16 where
  | bxSi
  | bxDi
  | bpSi
  | bpDi
  | si
  | di
  | bp
  | bx
  | abs
  deriving DecidableEq, Repr

/-- The scale of a SIB byte (R113). -/
inductive Scale where
  | x1
  | x2
  | x4
  | x8
  deriving DecidableEq, Repr

/-- A memory operand by its addressing form (R112 to R115). -/
inductive MemOperand where
  /-- The 16-bit table (R112). -/
  | addr16 (form : Addr16) (d : Disp)
  /-- mod 0, rm 5 outside Long64: a 32-bit displacement alone (R113). -/
  | abs32 (d : BitVec 32)
  /-- mod 0, rm 5 in Long64: relative to the next instruction (R115). -/
  | ripRel (d : BitVec 32)
  /-- A base register and no SIB byte (R113, R114). -/
  | base (b : GprNum) (d : Disp)
  /-- A SIB byte: no base means base 5 with mod 0, no index means index 4 (R113, R114). -/
  | sib (scale : Scale) (index : Option GprNum) (b : Option GprNum) (d : Disp)
  deriving DecidableEq, Repr

/-- The operand of format M (R107, R110). -/
inductive RmOperand where
  | reg (d : GprNum)
  | mem (m : MemOperand)
  deriving DecidableEq, Repr

/-- The fifteen rows of the opcode table (R125). -/
inductive Instr where
  | popRm16 (p : Prefixes) (o : RmOperand)
  | popRm32 (p : Prefixes) (o : RmOperand)
  | popRm64 (p : Prefixes) (o : RmOperand)
  | popR16 (p : Prefixes) (d : GprNum)
  | popR32 (p : Prefixes) (d : GprNum)
  | popR64 (p : Prefixes) (d : GprNum)
  | popDs (p : Prefixes)
  | popEs (p : Prefixes)
  | popSs (p : Prefixes)
  | popFs16 (p : Prefixes)
  | popFs32 (p : Prefixes)
  | popFs64 (p : Prefixes)
  | popGs16 (p : Prefixes)
  | popGs32 (p : Prefixes)
  | popGs64 (p : Prefixes)
  deriving DecidableEq, Repr

/-- What the decoder needs of the state: the mode and the D flag of CS (R120, R121). -/
structure CodeContext where
  mode : Mode
  csD  : Bool
  deriving DecidableEq, Repr

/-- Why bytes are not a POP of this spec. -/
inductive DecodeError where
  /-- The bytes end before the instruction does. -/
  | truncated
  /-- The opcode is none of R106. -/
  | notPop
  /-- F2 or F3 (R101). -/
  | repPrefix
  /-- Two prefixes of one kind (R103). -/
  | repeatedPrefix
  /-- REX not last (R102). -/
  | misplacedRex
  /-- `8F` with ModRM.reg other than 0 (R131). -/
  | opcodeExtension
  deriving DecidableEq, Repr

end Sys2Proof
end

