-- ==== Sys2Proof/Machine/Sizes.lean ====
section
/-! DEFINITION. What an instruction's prefixes say, the three size attributes (rules R120 to R122) and the instruction's
length (rule R126). -/

namespace Sys2Proof

/-- The size in bytes: 2, 4 or 8 (R61, R120). -/
def Size.bytes : Size → Nat
  | .s16 => 2
  | .s32 => 4
  | .s64 => 8

/-- The size in bits (R9). -/
def Size.bits : Size → Nat
  | .s16 => 16
  | .s32 => 32
  | .s64 => 64

/-- The segment a prefix names, if it is an override (R101). -/
def LegacyPrefix.segment? : LegacyPrefix → Option SegName
  | .seg s => some s
  | _ => none

/-- The kind of a prefix: at most one of each kind may stand (R103). -/
def LegacyPrefix.kind : LegacyPrefix → Nat
  | .opSize => 0
  | .addrSize => 1
  | .lock => 2
  | .seg _ => 3

namespace Prefixes

/-- Prefix 66 is present (R101). -/
def hasOpSize (p : Prefixes) : Bool := p.legacy.contains .opSize

/-- Prefix 67 is present (R101). -/
def hasAddrSize (p : Prefixes) : Bool := p.legacy.contains .addrSize

/-- Prefix F0 is present (R101, R134). -/
def locked (p : Prefixes) : Bool := p.legacy.contains .lock

/-- The segment override, if there is one (R101, R116). -/
def segOverride (p : Prefixes) : Option SegName := p.legacy.findSome? LegacyPrefix.segment?

/-- REX.W (R102). -/
def rexW (p : Prefixes) : Bool := p.rex.elim false Rex.w

/-- REX.X (R102). -/
def rexX (p : Prefixes) : Bool := p.rex.elim false Rex.x

/-- REX.B (R102). -/
def rexB (p : Prefixes) : Bool := p.rex.elim false Rex.b

/-- How many bytes the prefixes take, REX included (R126). -/
def length (p : Prefixes) : Nat := p.legacy.length + (if p.rex.isSome then 1 else 0)

end Prefixes

/-- The default size the D flag selects outside Long64: 1 for 32, 0 for 16 (R120, D6). -/
def CodeContext.defaultSize (c : CodeContext) : Size := if c.csD then .s32 else .s16

/-- The other one of 16 and 32 (R120, R121). -/
def Size.flip : Size → Size
  | .s16 => .s32
  | .s32 => .s16
  | .s64 => .s64

/-- Operand size (R120, D7). -/
def CodeContext.operandSize (c : CodeContext) (p : Prefixes) : Size :=
  if c.mode = .long64 then
    if p.rexW then .s64 else if p.hasOpSize then .s16 else .s64
  else
    if p.hasOpSize then c.defaultSize.flip else c.defaultSize

/-- Address size (R121, D8). -/
def CodeContext.addressSize (c : CodeContext) (p : Prefixes) : Size :=
  if c.mode = .long64 then
    if p.hasAddrSize then .s32 else .s64
  else
    if p.hasAddrSize then c.defaultSize.flip else c.defaultSize

/-- How many bytes a displacement takes (R117). -/
def Disp.length : Disp → Nat
  | .none => 0
  | .d8 _ => 1
  | .d16 _ => 2
  | .d32 _ => 4

/-- How many bytes of SIB and displacement follow ModRM (R126). -/
def RmOperand.length : RmOperand → Nat
  | .reg _ => 0
  | .mem (.addr16 _ d) => d.length
  | .mem (.abs32 _) => 4
  | .mem (.ripRel _) => 4
  | .mem (.base _ d) => d.length
  | .mem (.sib _ _ _ d) => 1 + d.length

namespace Instr

/-- The instruction's prefixes. -/
def prefixes : Instr → Prefixes
  | .popRm16 p _ | .popRm32 p _ | .popRm64 p _ => p
  | .popR16 p _ | .popR32 p _ | .popR64 p _ => p
  | .popDs p | .popEs p | .popSs p => p
  | .popFs16 p | .popFs32 p | .popFs64 p => p
  | .popGs16 p | .popGs32 p | .popGs64 p => p

/-- How many bytes follow the prefixes: opcode, ModRM, SIB and displacement (R126). -/
def bodyLength : Instr → Nat
  | .popRm16 _ o | .popRm32 _ o | .popRm64 _ o => 2 + o.length
  | .popR16 _ _ | .popR32 _ _ | .popR64 _ _ => 1
  | .popDs _ | .popEs _ | .popSs _ => 1
  | .popFs16 _ | .popFs32 _ | .popFs64 _ => 2
  | .popGs16 _ | .popGs32 _ | .popGs64 _ => 2

/-- The instruction's length in bytes, prefixes included (R126). -/
def length (i : Instr) : Nat := i.prefixes.length + i.bodyLength

/-- The operand size the row is for (R125), or none for the rows that stand for each size (POP DS, ES, SS). -/
def rowSize : Instr → Option Size
  | .popRm16 _ _ | .popR16 _ _ | .popFs16 _ | .popGs16 _ => some .s16
  | .popRm32 _ _ | .popR32 _ _ | .popFs32 _ | .popGs32 _ => some .s32
  | .popRm64 _ _ | .popR64 _ _ | .popFs64 _ | .popGs64 _ => some .s64
  | .popDs _ | .popEs _ | .popSs _ => none

end Instr

end Sys2Proof
end

