-- ==== Sys2Proof/WellFormed.lean ====
section
/-! DEFINITION. Which terms are instructions some bytes stand for, in a given mode and with a given D flag: prefixes as
rule R103 admits them, the row's operand size (R125), register numbers as REX extends them (R102, R108, R110), and addressing
forms the ModRM and SIB bytes can express (R112 to R115). -/

namespace Sys2Proof

/-- No two prefixes of one kind (R103). -/
def noRepeatedKind : List LegacyPrefix → Bool
  | [] => true
  | p :: ps => !(ps.any fun q => q.kind == p.kind) && noRepeatedKind ps

/-- Prefixes rule R103 admits: one of each kind, and REX in Long64 only (R102). -/
def Prefixes.wf (c : CodeContext) (p : Prefixes) : Bool :=
  noRepeatedKind p.legacy && (p.rex.isNone || c.mode == .long64)

/-- The register's number has bit 3 as the REX bit says (R108, R110). -/
def GprNum.extendedBy (d : GprNum) (ext : Bool) : Bool := decide (8 ≤ d.val) == ext

/-- The low three bits of the register's number are `k`. -/
def GprNum.lowIs (d : GprNum) (k : Nat) : Bool := d.val % 8 == k

/-- A displacement of the 16-bit table that stands for the form (R112). -/
def Disp.wf16 (f : Addr16) : Disp → Bool
  | .none => f != .abs && f != .bp
  | .d8 _ => f != .abs
  | .d16 _ => true
  | .d32 _ => false

/-- A displacement of 32- and 64-bit addressing (R113). -/
def Disp.wf32 : Disp → Bool
  | .none | .d8 _ | .d32 _ => true
  | .d16 _ => false

/-- The index of a SIB byte: none is index 4, which REX.X = 1 would make R12 (R113). -/
def indexWf (p : Prefixes) : Option GprNum → Bool
  | none => !p.rexX
  | some i => i.val != 4 && GprNum.extendedBy i p.rexX

/-- An addressing form that ModRM, SIB and the address size can express (R112 to R115). -/
def MemOperand.wf (c : CodeContext) (p : Prefixes) : MemOperand → Bool
  | .addr16 f d => c.addressSize p == .s16 && d.wf16 f
  | .abs32 _ => c.addressSize p != .s16 && c.mode != .long64
  | .ripRel _ => c.mode == .long64
  | .base b d =>
    c.addressSize p != .s16 && GprNum.extendedBy b p.rexB && !GprNum.lowIs b 4 &&
      d.wf32 && (!GprNum.lowIs b 5 || d != .none)
  | .sib _ i (some b) d =>
    c.addressSize p != .s16 && indexWf p i && GprNum.extendedBy b p.rexB &&
      d.wf32 && (!GprNum.lowIs b 5 || d != .none)
  | .sib _ i none d =>
    c.addressSize p != .s16 && indexWf p i && d.length == 4

/-- An operand of format M (R107). -/
def RmOperand.wf (c : CodeContext) (p : Prefixes) : RmOperand → Bool
  | .reg d => GprNum.extendedBy d p.rexB
  | .mem m => m.wf c p

/-- The operands of an instruction, apart from prefixes and size. -/
def Instr.operandWf (c : CodeContext) : Instr → Bool
  | .popRm16 p o | .popRm32 p o | .popRm64 p o => o.wf c p
  | .popR16 p d | .popR32 p d | .popR64 p d => GprNum.extendedBy d p.rexB
  | .popDs _ | .popEs _ | .popSs _ => true
  | .popFs16 _ | .popFs32 _ | .popFs64 _ => true
  | .popGs16 _ | .popGs32 _ | .popGs64 _ => true

/-- The row is selected by its operand size (R125). -/
def Instr.sizeWf (c : CodeContext) (i : Instr) : Bool :=
  i.rowSize.all (· == c.operandSize i.prefixes)

/-- The term is an instruction some bytes stand for in this context. -/
def Instr.wf (c : CodeContext) (i : Instr) : Bool :=
  i.prefixes.wf c && i.sizeWf c && i.operandWf c

end Sys2Proof
end

