-- ==== Sys2Proof/Decode.lean ====
section
/-! DEFINITION. The decoder, from instruction bytes to one term and the bytes that follow it, total on any bytes and
rejecting by name (rules R100 to R117, R125, R130 to R133), and after it the encoder, written from the same tables. -/

namespace Sys2Proof

/-- What a decoding step answers; most answer what they read and the bytes that follow. -/
abbrev Parse (α : Type) := Except DecodeError α

/-- The prefix a byte is, if it is one (R101). -/
def legacyPrefixOf (b : Byte) : Option LegacyPrefix :=
  if b = 0x66#8 then some .opSize
  else if b = 0x67#8 then some .addrSize
  else if b = 0xF0#8 then some .lock
  else if b = 0x26#8 then some (.seg .es)
  else if b = 0x2E#8 then some (.seg .cs)
  else if b = 0x36#8 then some (.seg .ss)
  else if b = 0x3E#8 then some (.seg .ds)
  else if b = 0x64#8 then some (.seg .fs)
  else if b = 0x65#8 then some (.seg .gs)
  else none

/-- F2 (REPNE) and F3 (REP) (R101). -/
def isRep (b : Byte) : Bool := b == 0xF2#8 || b == 0xF3#8

/-- The bytes 40 to 4F (R102). -/
def isRex (b : Byte) : Bool := b.extractLsb' 4 4 == 0x4#4

/-- The fields of a REX byte `0100WRXB` (R102). -/
def rexOf (b : Byte) : Rex :=
  ⟨b.getLsbD 3, b.getLsbD 2, b.getLsbD 1, b.getLsbD 0⟩

/-- Legacy prefixes in any order, at most one of each kind; `seen` are those already read (R101, R103). -/
def takeLegacy (seen : List LegacyPrefix) : List Byte → Parse (List LegacyPrefix × List Byte)
  | [] => .error .truncated
  | b :: bs =>
    match legacyPrefixOf b with
    | some q =>
      if seen.any (fun r => r.kind == q.kind) then .error .repeatedPrefix
      else takeLegacy (seen ++ [q]) bs
    | none => if isRep b then .error .repPrefix else .ok (seen, b :: bs)

/-- At most one REX, in Long64 only, with no prefix after it (R102). -/
def takeRex (c : CodeContext) : List Byte → Parse (Option Rex × List Byte)
  | [] => .error .truncated
  | b :: bs =>
    if c.mode = .long64 ∧ isRex b = true then
      match bs with
      | [] => .error .truncated
      | b' :: _ =>
        if (legacyPrefixOf b').isSome || isRep b' || isRex b' then .error .misplacedRex
        else .ok (some (rexOf b), bs)
    else .ok (none, b :: bs)

/-- A register number from its three low bits and the REX bit that extends them (R108, R110). -/
def gprOf (low : BitVec 3) (ext : Bool) : GprNum :=
  ⟨low.toNat + (if ext then 8 else 0), by have := low.isLt; split <;> omega⟩

/-- No displacement. -/
def takeNoDisp (bs : List Byte) : Parse (Disp × List Byte) := .ok (.none, bs)

/-- An 8-bit displacement (R117). -/
def takeDisp8 : List Byte → Parse (Disp × List Byte)
  | b0 :: bs => .ok (.d8 b0, bs)
  | _ => .error .truncated

/-- A 16-bit displacement, least significant byte first (R117). -/
def takeDisp16 : List Byte → Parse (Disp × List Byte)
  | b0 :: b1 :: bs => .ok (.d16 (b1 ++ b0), bs)
  | _ => .error .truncated

/-- A 32-bit displacement, least significant byte first (R117). -/
def takeDword : List Byte → Parse (BitVec 32 × List Byte)
  | b0 :: b1 :: b2 :: b3 :: bs => .ok (b3 ++ b2 ++ b1 ++ b0, bs)
  | _ => .error .truncated

/-- A 32-bit displacement as an operand field (R117). -/
def takeDisp32 (bs : List Byte) : Parse (Disp × List Byte) := do
  let (d, rest) ← takeDword bs
  .ok (.d32 d, rest)

/-- The registers of a 16-bit address by rm (R112), for every mod but the disp16 alone. -/
def addr16Of (rm : BitVec 3) : Addr16 :=
  match rm.toNat with
  | 0 => .bxSi
  | 1 => .bxDi
  | 2 => .bpSi
  | 3 => .bpDi
  | 4 => .si
  | 5 => .di
  | 6 => .bp
  | _ => .bx

/-- Memory operand with 16-bit addressing (R112). -/
def takeMem16 (md : BitVec 2) (rm : BitVec 3) (bs : List Byte) : Parse (MemOperand × List Byte) := do
  let (d, rest) ←
    if md = 0#2 then (if rm = 6#3 then takeDisp16 bs else takeNoDisp bs)
    else if md = 1#2 then takeDisp8 bs
    else takeDisp16 bs
  .ok (.addr16 (if md = 0#2 ∧ rm = 6#3 then .abs else addr16Of rm) d, rest)

/-- The displacement mod gives in 32- and 64-bit addressing when there is a base (R113). -/
def takeModDisp (md : BitVec 2) (bs : List Byte) : Parse (Disp × List Byte) :=
  if md = 0#2 then takeNoDisp bs
  else if md = 1#2 then takeDisp8 bs
  else takeDisp32 bs

/-- The scale of a SIB byte (R113). -/
def scaleOf (ss : BitVec 2) : Scale :=
  match ss.toNat with
  | 0 => .x1
  | 1 => .x2
  | 2 => .x4
  | _ => .x8

/-- The index of a SIB byte: number 4 is no index (R113). -/
def indexOf (low : BitVec 3) (ext : Bool) : Option GprNum :=
  if (gprOf low ext).val = 4 then none else some (gprOf low ext)

/-- Memory operand with a SIB byte (R113, R114). -/
def takeSib (p : Prefixes) (md : BitVec 2) : List Byte → Parse (MemOperand × List Byte)
  | [] => .error .truncated
  | sib :: bs =>
    let scale := scaleOf (sib.extractLsb' 6 2)
    let index := indexOf (sib.extractLsb' 3 3) p.rexX
    let low := sib.extractLsb' 0 3
    if low = 5#3 ∧ md = 0#2 then do
      let (d, rest) ← takeDisp32 bs
      .ok (.sib scale index none d, rest)
    else do
      let (d, rest) ← takeModDisp md bs
      .ok (.sib scale index (some (gprOf low p.rexB)) d, rest)

/-- Memory operand with 32- or 64-bit addressing (R113 to R115). -/
def takeMem32 (c : CodeContext) (p : Prefixes) (md : BitVec 2) (rm : BitVec 3) (bs : List Byte) :
    Parse (MemOperand × List Byte) :=
  if rm = 4#3 then takeSib p md bs
  else if rm = 5#3 ∧ md = 0#2 then do
    let (d, rest) ← takeDword bs
    .ok (if c.mode = .long64 then .ripRel d else .abs32 d, rest)
  else do
    let (d, rest) ← takeModDisp md bs
    .ok (.base (gprOf rm p.rexB) d, rest)

/-- The operand of format M: ModRM with reg 0, then SIB and displacement (R107, R110, R131). -/
def takeRm (c : CodeContext) (p : Prefixes) : List Byte → Parse (RmOperand × List Byte)
  | [] => .error .truncated
  | m :: bs =>
    let md := m.extractLsb' 6 2
    let rm := m.extractLsb' 0 3
    if m.extractLsb' 3 3 ≠ 0#3 then .error .opcodeExtension
    else if md = 3#2 then .ok (.reg (gprOf rm p.rexB), bs)
    else do
      let (o, rest) ← if c.addressSize p = .s16 then takeMem16 md rm bs else takeMem32 c p md rm bs
      .ok (.mem o, rest)

/-- The row of format M the operand size selects (R125). -/
def rmRow (p : Prefixes) (o : RmOperand) : Size → Instr
  | .s16 => .popRm16 p o
  | .s32 => .popRm32 p o
  | .s64 => .popRm64 p o

/-- The row of format O the operand size selects (R125). -/
def regRow (p : Prefixes) (d : GprNum) : Size → Instr
  | .s16 => .popR16 p d
  | .s32 => .popR32 p d
  | .s64 => .popR64 p d

/-- The POP FS row the operand size selects (R125). -/
def fsRow (p : Prefixes) : Size → Instr
  | .s16 => .popFs16 p
  | .s32 => .popFs32 p
  | .s64 => .popFs64 p

/-- The POP GS row the operand size selects (R125). -/
def gsRow (p : Prefixes) : Size → Instr
  | .s16 => .popGs16 p
  | .s32 => .popGs32 p
  | .s64 => .popGs64 p

/-- The second byte of a two-byte opcode (R106). -/
def takeTwoByte (c : CodeContext) (p : Prefixes) : List Byte → Parse (Instr × List Byte)
  | [] => .error .truncated
  | b :: bs =>
    if b = 0xA1#8 then .ok (fsRow p (c.operandSize p), bs)
    else if b = 0xA9#8 then .ok (gsRow p (c.operandSize p), bs)
    else .error .notPop

/-- The opcode and what follows it (R106 to R109, R125). -/
def takeOpcode (c : CodeContext) (p : Prefixes) : List Byte → Parse (Instr × List Byte)
  | [] => .error .truncated
  | b :: bs =>
    if b = 0x8F#8 then do
      let (o, rest) ← takeRm c p bs
      .ok (rmRow p o (c.operandSize p), rest)
    else if b.extractLsb' 3 5 = 0b01011#5 then
      .ok (regRow p (gprOf (b.extractLsb' 0 3) p.rexB) (c.operandSize p), bs)
    else if b = 0x1F#8 then .ok (.popDs p, bs)
    else if b = 0x07#8 then .ok (.popEs p, bs)
    else if b = 0x17#8 then .ok (.popSs p, bs)
    else if b = 0x0F#8 then takeTwoByte c p bs
    else .error .notPop

/-- The decoder: the instruction the bytes begin with, in the given mode and with the given D flag (R125). -/
def decode (c : CodeContext) (bs : List Byte) : Parse (Instr × List Byte) := do
  let (legacy, bs1) ← takeLegacy [] bs
  let (rex, bs2) ← takeRex c bs1
  takeOpcode c ⟨legacy, rex⟩ bs2

/-- The longest instruction, in bytes (R103). -/
def maxInstrLength : Nat := 12

/-- The context of the machine right after reset: Real mode, D = 0 (R50, log 1). -/
def CodeContext.atReset : CodeContext := ⟨.real, false⟩

/-- The bytes of a number whose bits count from the first byte up, `count` of them. -/
def bytesOfNat (w : Nat) : Nat → List Byte
  | 0 => []
  | count + 1 => BitVec.ofNat 8 w :: bytesOfNat (w / 256) count

/-- The instruction the decoder reads, in the context of reset (log 22), from bits numbered as spec/opcode_table.json numbers
them: the first byte is bits 7 to 0. The bits above `nbits` are 0. -/
def decodeTableWord (nbits w : Nat) : Option Instr :=
  match decode CodeContext.atReset (bytesOfNat (w % 2 ^ nbits) maxInstrLength) with
  | .ok (i, _) => some i
  | .error _ => none

/-- The byte of a segment override (R101). -/
def overrideByte : SegName → Byte
  | .es => 0x26#8
  | .cs => 0x2E#8
  | .ss => 0x36#8
  | .ds => 0x3E#8
  | .fs => 0x64#8
  | .gs => 0x65#8

/-- The byte of a legacy prefix (R101). -/
def LegacyPrefix.encode : LegacyPrefix → Byte
  | .opSize => 0x66#8
  | .addrSize => 0x67#8
  | .lock => 0xF0#8
  | .seg s => overrideByte s

/-- The byte of a REX prefix: `0100` and the bits W, R, X, B (R102). -/
def Rex.encode (r : Rex) : Byte :=
  0b0100#4 ++ BitVec.ofBool r.w ++ BitVec.ofBool r.r ++ BitVec.ofBool r.x ++ BitVec.ofBool r.b

/-- The prefix bytes (R100). -/
def Prefixes.encode (p : Prefixes) : List Byte :=
  p.legacy.map LegacyPrefix.encode ++ p.rex.toList.map Rex.encode

/-- The three low bits of a register number (R108, R110). -/
def GprNum.low (d : GprNum) : BitVec 3 := BitVec.ofNat 3 d.val

/-- A ModRM byte with reg 0 (R107). -/
def modRm (md : BitVec 2) (rm : BitVec 3) : Byte := md ++ 0b000#3 ++ rm

/-- A displacement's bytes, least significant first (R117). -/
def Disp.encode : Disp → List Byte
  | .none => []
  | .d8 d => [d]
  | .d16 d => [d.extractLsb' 0 8, d.extractLsb' 8 8]
  | .d32 d => [d.extractLsb' 0 8, d.extractLsb' 8 8, d.extractLsb' 16 8, d.extractLsb' 24 8]

/-- The mod field a displacement asks for where there is a base (R112, R113). -/
def Disp.modField : Disp → BitVec 2
  | .none => 0#2
  | .d8 _ => 1#2
  | .d16 _ | .d32 _ => 2#2

/-- The rm field of a 16-bit form (R112). -/
def Addr16.rm : Addr16 → BitVec 3
  | .bxSi => 0#3
  | .bxDi => 1#3
  | .bpSi => 2#3
  | .bpDi => 3#3
  | .si => 4#3
  | .di => 5#3
  | .bp => 6#3
  | .bx => 7#3
  | .abs => 6#3

/-- The scale field of a SIB byte (R113). -/
def Scale.field : Scale → BitVec 2
  | .x1 => 0#2
  | .x2 => 1#2
  | .x4 => 2#2
  | .x8 => 3#2

/-- The index field of a SIB byte; 4 stands for none (R113). -/
def indexField (i : Option GprNum) : BitVec 3 := i.elim 4#3 GprNum.low

/-- ModRM, SIB and displacement of format M (R107, R110 to R117). -/
def RmOperand.encode : RmOperand → List Byte
  | .reg d => [modRm 3#2 d.low]
  | .mem (.addr16 f d) => modRm (if f = .abs then 0#2 else d.modField) f.rm :: d.encode
  | .mem (.abs32 d) => modRm 0#2 5#3 :: (Disp.d32 d).encode
  | .mem (.ripRel d) => modRm 0#2 5#3 :: (Disp.d32 d).encode
  | .mem (.base b d) => modRm d.modField b.low :: d.encode
  | .mem (.sib s i (some b) d) =>
    modRm d.modField 4#3 :: (s.field ++ indexField i ++ b.low : Byte) :: d.encode
  | .mem (.sib s i none d) => modRm 0#2 4#3 :: (s.field ++ indexField i ++ 5#3 : Byte) :: d.encode

/-- Opcode and operand bytes (R106 to R109). -/
def Instr.encodeBody : Instr → List Byte
  | .popRm16 _ o | .popRm32 _ o | .popRm64 _ o => 0x8F#8 :: o.encode
  | .popR16 _ d | .popR32 _ d | .popR64 _ d => [0b01011#5 ++ GprNum.low d]
  | .popDs _ => [0x1F#8]
  | .popEs _ => [0x07#8]
  | .popSs _ => [0x17#8]
  | .popFs16 _ | .popFs32 _ | .popFs64 _ => [0x0F#8, 0xA1#8]
  | .popGs16 _ | .popGs32 _ | .popGs64 _ => [0x0F#8, 0xA9#8]

/-- The encoder: the bytes of an instruction, prefixes first (R100). -/
def encode (i : Instr) : List Byte := i.prefixes.encode ++ i.encodeBody

end Sys2Proof
end

