-- ==== Sys2Proof/Machine/State.lean ====
section
/-! DEFINITION. The machine's state as plain data (10_state.md; INVENTORY.md, State), the reasons a step stops, and the
state right after reset (rule R50, logs 1 to 4). -/

namespace Sys2Proof.Machine

/-- One general register, 64 bits in two halves, so that its 32-bit view does not depend on what the upper half is (R20, R22,
R24). -/
structure Gpr where
  /-- Bits 63:32. -/
  hi : BitVec 32
  /-- Bits 31:0. -/
  lo : BitVec 32
  deriving DecidableEq, Repr, Inhabited

/-- A segment register: the visible selector and the hidden part (R33). -/
structure SegReg where
  sel : BitVec 16
  hid : SegHidden
  deriving DecidableEq, Repr, Inhabited

/-- The six segment registers (R33). -/
structure SegFile where
  es : SegReg
  cs : SegReg
  ss : SegReg
  ds : SegReg
  fs : SegReg
  gs : SegReg
  deriving DecidableEq, Repr, Inhabited

/-- The register of the global descriptor table (R42). -/
structure Gdtr where
  base  : BitVec 64
  limit : BitVec 16
  deriving DecidableEq, Repr, Inhabited

/-- The register of the local descriptor table (R42). -/
structure Ldtr where
  sel    : BitVec 16
  base   : BitVec 64
  limit  : BitVec 32
  usable : Bool
  deriving DecidableEq, Repr, Inhabited

/-- Physical memory as (address, byte) pairs, addresses strictly rising, no entry equal to what an unlisted address reads as
(R61, log 3). -/
abbrev Memory := List Host.Cell

/-- The machine's state. Every field is plain data. -/
structure State where
  /-- x[0] to x[15] (R20). -/
  regs       : Vector Gpr 16
  /-- The instruction pointer (R29). -/
  pc         : Word
  /-- The flags register, which POP never writes (R32). -/
  rflags     : BitVec 64
  /-- ES, CS, SS, DS, FS, GS (R33). -/
  sregs      : SegFile
  /-- The operating mode (R40). -/
  mode       : Mode
  /-- The current privilege level (R41). -/
  cpl        : BitVec 2
  gdtr       : Gdtr
  ldtr       : Ldtr
  /-- Alignment checking is enabled (R43). -/
  acEnable   : Bool
  /-- No interrupt is delivered at the coming boundary (R45). -/
  inhibit    : Bool
  /-- The contents of physical memory (R61). -/
  mem        : Memory
  /-- The physical addresses that exist: the domain of PhysMem (R83, R311). -/
  physMem    : List PhysRange
  /-- The paging function Translate (R13, R44). -/
  paging     : List TransRule
  /-- What InterruptOracle offers at the coming boundaries (R15, R260). -/
  offers     : List InterruptOffer
  /-- The parameters of the launch (R10 to R14, R310). -/
  params     : Params
  /-- The model's own: the last completed instruction was a POP SS (R226, log 11). -/
  afterPopSs : Bool
  /-- The model's own: the physical addresses the run has written, strictly rising (R88, log 17). -/
  written    : List Nat
  /-- The model's own: the physical addresses of the instruction bytes the run has executed, strictly rising (R88, log 17). -/
  fetched    : List Nat
  /-- The model's own: the counter at which free values are taken (log 12). -/
  draws      : Nat
  deriving DecidableEq, Repr

/-- The exceptions POP can raise, with the error code and, for a page fault, the linear address (R240, R253, R254). No code
stands for an exception that carries none, as in Real mode. -/
inductive Exception where
  /-- #UD, raised by a LOCK prefix and by POP DS, ES, SS in Long64 (R241). -/
  | ud
  /-- #NP(selector), raised by the load of DS, ES, FS, GS (R246). -/
  | np (code : BitVec 32)
  /-- #SS, raised by an access through SS (R244) and by the load of SS (R245). -/
  | ss (code : Option (BitVec 32))
  /-- #GP, raised by an access through another segment (R242) and by a segment load (R242, R243). -/
  | gp (code : Option (BitVec 32))
  /-- #PF(fault-code) with the linear address, raised by any access (R247, R254). -/
  | pf (code : BitVec 32) (addr : Word)
  /-- #AC(0), raised by the stack read and the destination write (R248). -/
  | ac
  deriving DecidableEq, Repr

/-- Why the machine stops with a fault. -/
inductive Fault where
  /-- The POP at `pc` raised the exception, whose vector stands beside it: the terminal outcome Fault(E, vector, code,
  address) of R262. Raised by every meaning through `raise`. Safe: the spec describes no delivery (R263), and nothing of the
  instruction is committed, so the state is the one the step began in. -/
  | raised (e : Exception) (vector : Nat) (pc : Word)
  deriving DecidableEq, Repr

/-- Why a step has no meaning. Each is a situation to which the spec gives none. -/
inductive Refusal where
  /-- An instruction with no meaning yet. No arm uses it. Safe. -/
  | notModelled (mnemonic : String)
  /-- The term is no instruction any bytes stand for in this mode; `step` never meets one. Raised by the meanings. Safe. -/
  | illFormed
  /-- The bytes at pc are not a POP this spec accepts (R101 to R103, R131, R299). Raised by `step`. Safe. -/
  | undecoded (e : DecodeError)
  /-- An instruction byte beyond the CS limit (R256). Raised by `step`. Safe. -/
  | fetchBeyondLimit
  /-- An instruction byte at a non-canonical address (R256). Raised by `step`. Safe. -/
  | fetchNonCanonical
  /-- An instruction byte on a page that faults (R256). Raised by `step`. Safe. -/
  | fetchPageFault
  /-- An instruction byte the run itself has written (R88). Raised by `step`. Safe. -/
  | fetchModified
  /-- The instruction wrote a byte of itself or of one the run executed before (R88, P3, log 17). Raised by `step`. Safe. -/
  | codeWritten
  /-- A physical address outside PhysMem (R83). Raised by a fetch and by each access. Safe. -/
  | outsidePhysMem (addr : Nat)
  /-- pc + L passes the width in force or the CS limit (R31). Raised by every meaning. Safe. -/
  | pcOverrun
  /-- A 16-bit stack pointer wraps, is the base, and the parameter WrapEA16 is `refuse` (R159). Raised by POP to memory. Safe. -/
  | wrapEA16
  /-- Exactly one of RPL and CPL exceeds DPL and the parameter DataSegPriv is `refuse` (R219). Raised by a segment load. Safe. -/
  | dataSegPriv
  /-- An interrupt is delivered at the boundary, beyond which the spec describes nothing (R260). Raised by `step`. Safe. -/
  | interruptDelivered
  deriving DecidableEq, Repr

/-- The hidden part of a data segment after reset (R50, logs 1 and 2). -/
def resetDataHidden : SegHidden where
  base    := 0
  limit   := 0xFFFF
  kind    := .data true false
  dpl     := 0
  present := true
  db      := false
  l       := false
  usable  := true

/-- The hidden part of CS after reset (R50, logs 1 and 2). -/
def resetCodeHidden : SegHidden where
  base    := 0xFFFF0000
  limit   := 0xFFFF
  kind    := .code true false
  dpl     := 0
  present := true
  db      := false
  l       := false
  usable  := true

/-- The segment registers after reset (R50). -/
def resetSegments : SegFile where
  es := ⟨0, resetDataHidden⟩
  cs := ⟨0xF000, resetCodeHidden⟩
  ss := ⟨0, resetDataHidden⟩
  ds := ⟨0, resetDataHidden⟩
  fs := ⟨0, resetDataHidden⟩
  gs := ⟨0, resetDataHidden⟩

/-- The machine right after reset: the values R50 lists for the family (PRESUMED, log 1), and where R50 lists none the values
of logs 2 to 4 and 6. -/
def State.reset : State where
  regs       := Vector.replicate 16 ⟨0, 0⟩
  pc         := 0xFFF0
  rflags     := 0x2
  sregs      := resetSegments
  mode       := .real
  cpl        := 0
  gdtr       := ⟨0, 0xFFFF⟩
  ldtr       := ⟨0, 0, 0xFFFF, true⟩
  acEnable   := false
  inhibit    := false
  mem        := []
  physMem    := [⟨0, 0xFFFFFFFFFFFFFFFF⟩]
  paging     := []
  offers     := []
  params     := Params.initial
  afterPopSs := false
  written    := []
  fetched    := []
  draws      := 0

end Sys2Proof.Machine
end

