-- ==== Sys2Proof/Machine/Ops.lean ====
section
/-! DEFINITION. The named operations every meaning is built from: taking an exception, memory, registers, translation, the
checked access primitives (20_memory.md R62 to R79), the stack pointer, and completing an instruction. -/

namespace Sys2Proof.Machine

/-! ### How an operation ends -/

/-- Why an operation gives no value. -/
inductive Stop where
  | fault (f : Fault)
  | refused (r : Refusal)
  deriving DecidableEq, Repr

/-- An operation: a value, or the reason the instruction stops. -/
abbrev Exec (α : Type) := Except Stop α

/-- The outcome of a step from the operation that computes the next state. -/
def toOutcome : Exec State → Host.Outcome State Fault Refusal
  | .ok s => .next s
  | .error (.fault f) => .fault f
  | .error (.refused r) => .refused r

/-- Stop because the spec gives the situation no meaning (R19, `refuse`). -/
def refuse {α : Type} (r : Refusal) : Exec α := .error (.refused r)

/-! ### Taking an exception (R240, R253, R262) -/

namespace Exception

/-- The vector number (R240). -/
def vector : Exception → Nat
  | .ud => 6
  | .np _ => 11
  | .ss _ => 12
  | .gp _ => 13
  | .pf _ _ => 14
  | .ac => 17

/-- The error code, where there is one (R240, R253). -/
def errorCode : Exception → Option (BitVec 32)
  | .ud => none
  | .np c => some c
  | .ss c => c
  | .gp c => c
  | .pf c _ => some c
  | .ac => some 0

end Exception

/-- `raise E(code)`: the instruction ends with the exception, pc addresses it still, and nothing of it is committed (R262,
R160, log 14). -/
def raise {α : Type} (s : State) (e : Exception) : Exec α :=
  .error (.fault (.raised e e.vector s.pc))

/-- The error code `(selector)`: the selector with its RPL bits cleared (R253, D19). -/
def selectorCode (sel : BitVec 16) : BitVec 32 := (sel &&& 0xFFFC#16).setWidth 32

/-- The privilege of the accesses a segment load makes to the descriptor table (R79). Which level that hands to Translate the
spec does not say; the model hands it 0 (DESIGN CHOICE, log 33). -/
def supervisor : BitVec 2 := 0

/-! ### Bytes and values (R16, R62) -/

/-- The value of bytes, least significant first (R62). -/
def leValue : List Byte → Word
  | [] => 0
  | b :: bs => b.setWidth 64 ||| (leValue bs <<< 8)

/-- `trunc_N` then `zext_64` (R16). -/
def zeroExtendFrom : Size → Word → Word
  | .s16, w => (w.setWidth 16).setWidth 64
  | .s32, w => (w.setWidth 32).setWidth 64
  | .s64, w => w

/-! ### Memory (R61, R62, R83) -/

/-- What a byte nobody has written reads as (DESIGN CHOICE, log 3). -/
def Memory.unlisted : Byte := 0

/-- Read one byte. -/
def Memory.read : Memory → Nat → Byte
  | [], _ => Memory.unlisted
  | (b, v) :: m, a => if a = b then v else Memory.read m a

/-- Write one byte, keeping the canonical form. -/
def Memory.write : Memory → Nat → Byte → Memory
  | [], a, v => if v = Memory.unlisted then [] else [(a, v)]
  | (b, w) :: m, a, v =>
    if a < b then (if v = Memory.unlisted then (b, w) :: m else (a, v) :: (b, w) :: m)
    else if a = b then (if v = Memory.unlisted then m else (a, v) :: m)
    else (b, w) :: Memory.write m a v

/-- Every address of the list is above `lo`. -/
def Memory.above (lo : Nat) : Memory → Bool
  | [] => true
  | (b, _) :: m => decide (lo < b) && Memory.above lo m

/-- The canonical form: addresses strictly rising, no entry equal to what an unlisted address reads as. -/
def Memory.wf : Memory → Bool
  | [] => true
  | (b, w) :: m => Memory.above b m && (w != Memory.unlisted) && Memory.wf m

/-- Put an address into a strictly rising list. -/
def insertAddr (a : Nat) : List Nat → List Nat
  | [] => [a]
  | b :: bs => if a < b then a :: b :: bs else if a = b then b :: bs else b :: insertAddr a bs

namespace State

/-- What the decoder needs of the state (R120, R121). -/
def ctx (s : State) : CodeContext := ⟨s.mode, s.sregs.cs.hid.db⟩

/-- The physical address exists (R83). -/
def inPhysMem (s : State) (a : Nat) : Bool :=
  s.physMem.any fun r => decide (r.first ≤ a) && decide (a ≤ r.last)

/-- Write one byte and record that the run wrote it (R62, R88). -/
def storeByte (s : State) (a : Nat) (v : Byte) : State :=
  { s with mem := s.mem.write a v, written := insertAddr a s.written }

/-- Read bytes at physical addresses (R62); outside PhysMem there is no meaning (R83). -/
def loadBytes (s : State) : List Nat → Exec (List Byte)
  | [] => .ok []
  | a :: as =>
    if s.inPhysMem a then do
      let bs ← s.loadBytes as
      .ok (s.mem.read a :: bs)
    else refuse (.outsidePhysMem a)

/-- Write the low bytes of a value at physical addresses, least significant first (R62, R83). -/
def storeBytes (s : State) : List Nat → Word → Exec State
  | [], _ => .ok s
  | a :: as, v =>
    if s.inPhysMem a then (s.storeByte a (v.setWidth 8)).storeBytes as (v >>> 8)
    else refuse (.outsidePhysMem a)

/-! ### General registers (R20 to R25) -/

/-- A general register by its number. -/
def gpr (s : State) (i : GprNum) : Gpr := s.regs[i]

/-- Replace a general register. -/
def setGpr (s : State) (i : GprNum) (g : Gpr) : State := { s with regs := s.regs.set i.val g i.isLt }

/-- `r64(i)` (R22). -/
def r64 (s : State) (i : GprNum) : BitVec 64 := (s.gpr i).hi ++ (s.gpr i).lo

/-- `r32(i)` (R22). -/
def r32 (s : State) (i : GprNum) : BitVec 32 := (s.gpr i).lo

/-- `r16(i)` (R22). -/
def r16 (s : State) (i : GprNum) : BitVec 16 := (s.gpr i).lo.setWidth 16

/-- A register at a size, zero-extended to a word (R22). -/
def readReg (s : State) (n : Size) (i : GprNum) : Word :=
  match n with
  | .s16 => (s.r16 i).setWidth 64
  | .s32 => (s.r32 i).setWidth 64
  | .s64 => s.r64 i

/-- `r64(i) <- v` (R23). -/
def writeR64 (s : State) (i : GprNum) (v : BitVec 64) : State :=
  s.setGpr i ⟨v.extractLsb' 32 32, v.setWidth 32⟩

/-- Bits 63:32 of a register after a 32-bit write: zero in Long64, any value elsewhere (R23, R24, log 10). -/
def upperAfterWrite (s : State) (i : GprNum) : BitVec 32 :=
  if s.mode = .long64 then 0 else Config.freeUpper s.draws i.val

/-- `r32(i) <- v` (R23, R24). -/
def writeR32 (s : State) (i : GprNum) (v : BitVec 32) : State :=
  s.setGpr i ⟨s.upperAfterWrite i, v⟩

/-- `r16(i) <- v`: the other bits are unchanged (R23). -/
def writeR16 (s : State) (i : GprNum) (v : BitVec 16) : State :=
  s.setGpr i ⟨(s.gpr i).hi, (s.gpr i).lo.extractLsb' 16 16 ++ v⟩

/-- Write the low bits of a word into a register at a size (R23). -/
def writeReg (s : State) (n : Size) (i : GprNum) (v : Word) : State :=
  match n with
  | .s16 => s.writeR16 i (v.setWidth 16)
  | .s32 => s.writeR32 i (v.setWidth 32)
  | .s64 => s.writeR64 i v

/-! ### Segment registers (R33) -/

/-- A segment register by name. -/
def sreg (s : State) : SegName → SegReg
  | .es => s.sregs.es
  | .cs => s.sregs.cs
  | .ss => s.sregs.ss
  | .ds => s.sregs.ds
  | .fs => s.sregs.fs
  | .gs => s.sregs.gs

/-- Replace a segment register. -/
def setSreg (s : State) (n : SegName) (r : SegReg) : State :=
  { s with sregs :=
    match n with
    | .es => { s.sregs with es := r }
    | .cs => { s.sregs with cs := r }
    | .ss => { s.sregs with ss := r }
    | .ds => { s.sregs with ds := r }
    | .fs => { s.sregs with fs := r }
    | .gs => { s.sregs with gs := r } }

/-! ### Linear addresses (R60, R64, R65) -/

/-- A linear address as wide as the mode makes it: 32 bits outside Long64 (R60). -/
def truncLinear (s : State) (a : Word) : Word :=
  if s.mode = .long64 then a else (a.setWidth 32).setWidth 64

/-- The segment base that takes part in an address: in Long64 only that of FS and GS (R64, R65). -/
def segBase (s : State) (sg : SegName) : Word :=
  if s.mode = .long64 then
    match sg with
    | .fs => s.sregs.fs.hid.base
    | .gs => s.sregs.gs.hid.base
    | _ => 0
  else (s.sreg sg).hid.base

/-- The linear address of byte `k` of an access (R64, R65). -/
def linear (s : State) (sg : SegName) (off : Word) (k : Nat) : Word :=
  s.truncLinear (s.segBase sg + off + BitVec.ofNat 64 k)

/-- The linear addresses of the `n` bytes of an access. -/
def linears (s : State) (sg : SegName) (off : Word) (n : Nat) : List Word :=
  (List.range n).map (s.linear sg off)

/-! ### The segment test (R66 to R68, R78) -/

end State

/-- How many linear-address bits count (R10). -/
def addrBits : LinAddrBits → Nat
  | .w48 => 48
  | .w57 => 57

/-- Canonical form: the bits from the top implemented one up are equal (R78). -/
def canonical (p : LinAddrBits) (a : Word) : Bool :=
  a >>> (addrBits p - 1) == 0 || a >>> (addrBits p - 1) == BitVec.allOnes 64 >>> (addrBits p - 1)

/-- The segment-limit test on unwrapped byte offsets (R66, D14). -/
def insideLimit (h : SegHidden) (off : Word) (n : Nat) : Bool :=
  match h.kind with
  | .data _ true =>
    decide (h.limit.toNat < off.toNat) &&
      decide (off.toNat + n - 1 ≤ if h.db then 0xFFFFFFFF else 0xFFFF)
  | _ => decide (off.toNat + n - 1 ≤ h.limit.toNat)

/-- The segment may be read (R67). -/
def SegKind.readable : SegKind → Bool
  | .data _ _ => true
  | .code r _ => r
  | .system => false

/-- The segment may be written (R67). -/
def SegKind.writable : SegKind → Bool
  | .data w _ => w
  | .code _ _ => false
  | .system => false

/-- The access is one the segment's kind admits (R67). -/
def SegKind.admits (k : SegKind) : Access → Bool
  | .read => SegKind.readable k
  | .write => SegKind.writable k

/-- DS, ES, FS and GS can hold a NULL selector (R68). -/
def SegName.nullable : SegName → Bool
  | .ds | .es | .fs | .gs => true
  | .cs | .ss => false

namespace State

/-- Protected or compatibility mode, which behave alike (R40). -/
def protectedLike (s : State) : Bool := s.mode == .protected_ || s.mode == .compat

/-- Step 1 of an access: canonical form in Long64, elsewhere the NULL, kind and limit tests (R70). -/
def segTest (s : State) (acc : Access) (sg : SegName) (off : Word) (n : Nat) : Bool :=
  if s.mode = .long64 then (s.linears sg off n).all (canonical s.params.linAddrBits)
  else
    (!s.protectedLike ||
      ((!SegName.nullable sg || (s.sreg sg).hid.usable) && SegKind.admits (s.sreg sg).hid.kind acc)) &&
    insideLimit (s.sreg sg).hid off n

/-- The error code 0, or none in Real mode (R253). -/
def zeroCode (s : State) : Option (BitVec 32) := if s.mode = .real then none else some 0

/-- `SegFault(S)`: which exception a failed segment test raises (R73, D31, D38). -/
def segFault (s : State) (sg : SegName) : Exception :=
  if sg = .ss then .ss s.zeroCode else .gp s.zeroCode

/-! ### Alignment (R76, R248) -/

/-- `AlignFault`; Real mode lists no #AC (R76, R77, R248, log 24). -/
def alignFault (s : State) (lin : Word) (n : Nat) : Bool :=
  s.acEnable && s.cpl == 3 && s.mode != .real && lin.toNat % n != 0

end State

/-! ### Translation (R13, R79) -/

/-- The rule speaks of this access. -/
def TransRule.applies (r : TransRule) (acc : Access) (cpl : BitVec 2) (lin : Nat) : Bool :=
  decide (r.first ≤ lin) && decide (lin ≤ r.last) && r.access.all (· == acc) && r.cpl.all (· == cpl)

namespace State

/-- `Translate(lin, access, cpl)`: a physical address, or the page-fault code; the identity in Real mode (R13, R79). -/
def translate (s : State) (acc : Access) (cpl : BitVec 2) (lin : Word) : Except (BitVec 32) Nat :=
  if s.mode = .real then .ok lin.toNat
  else
    match s.paging.find? (fun r => TransRule.applies r acc cpl lin.toNat) with
    | none => .ok lin.toNat
    | some r =>
      match r.result with
      | .frame p => .ok (p + (lin.toNat - r.first))
      | .pageFault code => .error code

/-- Translate each linear address; the first that faults raises #PF with its code and address (R70 step 3, R254). -/
def translateAll (s : State) (acc : Access) (cpl : BitVec 2) : List Word → Exec (List Nat)
  | [] => .ok []
  | l :: ls =>
    match s.translate acc cpl l with
    | .error code => raise s (.pf code l)
    | .ok p => do
      let ps ← s.translateAll acc cpl ls
      .ok (p :: ps)

/-! ### The checked access primitives (R70 to R72) -/

/-- The free bit that says whether the later of two faults is reported, under `either` (R256, R258, log 13). -/
def reportsLater (s : State) (choice : Nat) : Bool :=
  s.params.faultOrder == .either && Config.freeFault s.draws choice

/-- Steps 1 to 3 of an access of `n` bytes: the segment test, the alignment check, translation; the physical addresses of the
bytes (R70, R71, R258). -/
def accessAddrs (s : State) (acc : Access) (sg : SegName) (off : Word) (n choice : Nat) : Exec (List Nat) :=
  if s.segTest acc sg off n then
    let phys := s.translateAll acc s.cpl (s.linears sg off n)
    if s.alignFault (s.linear sg off 0) n then
      match phys with
      | .error e => if s.reportsLater choice then .error e else raise s .ac
      | .ok _ => raise s .ac
    else phys
  else raise s (s.segFault sg)

/-- `SegRead(S, off, n)` (R70). -/
def segRead (s : State) (sg : SegName) (off : Word) (n choice : Nat) : Exec Word := do
  let as ← s.accessAddrs .read sg off n choice
  let bs ← s.loadBytes as
  .ok (leValue bs)

/-! ### The stack pointer (R25, R122, R150, R161) -/

/-- Stack-address size, from the SS hidden part (R122, R212). -/
def stackAddrSize (s : State) : Size :=
  if s.mode = .long64 then .s64 else if s.sregs.ss.hid.db then .s32 else .s16

/-- `SPreg(sas)` (R25). -/
def sp (s : State) : Word := s.readReg s.stackAddrSize 4

/-- The stack pointer after a POP of the given size: addition modulo 2^sas (R150, R161). -/
def spAfter (s : State) (n : Size) : Word :=
  zeroExtendFrom s.stackAddrSize (s.sp + BitVec.ofNat 64 n.bytes)

/-- `SPreg(sas) <- v` at a given stack-address size (R25). -/
def writeSp (s : State) (sas : Size) (v : Word) : State := s.writeReg sas 4 v

/-- `StackRead`: `n` bytes at the top of the stack (R72). -/
def stackRead (s : State) (n : Nat) : Exec Word := s.segRead .ss s.sp n 0

/-! ### Completing an instruction (R30, R31, R45) -/

/-- pc + L stays in the width in force and, outside Long64, in the CS limit (R31, log 18). -/
def nextPcFits (s : State) (len : Nat) : Bool :=
  if s.mode = .long64 then decide (s.pc.toNat + len < 2 ^ 64)
  else
    decide ((s.pc.setWidth 32).toNat + len < if s.sregs.cs.hid.db then 2 ^ 32 else 2 ^ 16) &&
      decide ((s.pc.setWidth 32).toNat + len ≤ s.sregs.cs.hid.limit.toNat)

/-- Register 8 to 15 after an instruction outside Long64: any value (R24, D3, log 10). -/
def unreachable (s : State) (i : Nat) : Gpr :=
  ⟨(Config.freeRegister s.draws i).extractLsb' 32 32, (Config.freeRegister s.draws i).setWidth 32⟩

/-- The general registers an instruction leaves: all of them in Long64; elsewhere registers 8 to 15 are any value (R24, log
10). -/
def regsAfter (s : State) : Vector Gpr 16 :=
  if s.mode = .long64 then s.regs
  else
    #v[s.gpr 0, s.gpr 1, s.gpr 2, s.gpr 3, s.gpr 4, s.gpr 5, s.gpr 6, s.gpr 7,
      s.unreachable 8, s.unreachable 9, s.unreachable 10, s.unreachable 11,
      s.unreachable 12, s.unreachable 13, s.unreachable 14, s.unreachable 15]

/-- Complete an instruction of `len` bytes: pc past it, the inhibition as given, the registers no program reaches any value, the
free values moved on (R24, R30, R45). -/
def complete (s : State) (len : Nat) (inhibit popSs : Bool) : Exec State :=
  if s.nextPcFits len then
    .ok { s with
      regs := s.regsAfter
      pc := s.pc + BitVec.ofNat 64 len
      inhibit := inhibit
      afterPopSs := popSs
      draws := s.draws + 1 }
  else refuse .pcOverrun

end State

/-- Run an instruction's body if the term is an instruction of this mode: a LOCK prefix raises #UD before anything else (R134,
R241, R256 phase 0). -/
def perform (i : Instr) (s : State) (body : Exec State) : Host.Outcome State Fault Refusal :=
  if i.wf s.ctx then
    if i.prefixes.locked then toOutcome (raise s .ud) else toOutcome body
  else .refused .illFormed

end Sys2Proof.Machine
end

