-- ==== Sys2Proof/Machine/Flags.lean ====
section
/-! DEFINITION. Flags. POP writes no status flag (rules R32, R163), so there is no flag computation; what stands here is the
one flag the step reads, the interrupt-enable flag, and the value of `inhibit` after an instruction (rule R226). -/

namespace Sys2Proof.Machine.State

/-- The interrupt-enable flag IF (R260). PRESUMED bit 9 of the flags register (log 15). -/
def interruptFlag (s : State) : Bool := s.rflags.getLsbD 9

/-- The environment's offer at this boundary is delivered: not while `inhibit` is set, and a maskable one only if IF is set
(R45, R226, R260). -/
def interruptDue (s : State) : Bool :=
  match s.offers with
  | [] => false
  | .quiet :: _ => false
  | .maskable :: _ => s.interruptFlag && !s.inhibit
  | .nonMaskable :: _ => !s.inhibit

/-- `inhibit` after a POP SS completes: set, but any value for the second of two consecutive ones (R226, D26, log 11). -/
def inhibitAfterPopSs (s : State) : Bool :=
  if s.inhibit || s.afterPopSs then Config.freeInhibit s.draws else true

end Sys2Proof.Machine.State
end

