-- ==== Sys2Proof/Machine/Operands.lean ====
section
/-! DEFINITION. Operands in memory: the effective address (rules R112 to R115), the segment (R116), the stack pointer as base
(R158, R159) and the destination write (R71). -/

namespace Sys2Proof.Machine

/-- A displacement sign-extended to a word; the address size then truncates the sum (R112, R117). -/
def Disp.value : Disp → Word
  | .none => 0
  | .d8 d => d.signExtend 64
  | .d16 d => d.signExtend 64
  | .d32 d => d.signExtend 64

/-- The shift a scale stands for (R113). -/
def Scale.shift : Scale → Nat
  | .x1 => 0
  | .x2 => 1
  | .x4 => 2
  | .x8 => 3

/-- The base and index registers of a 16-bit form, by number (R112). -/
def Addr16.registers : Addr16 → List GprNum
  | .bxSi => [3, 6]
  | .bxDi => [3, 7]
  | .bpSi => [5, 6]
  | .bpDi => [5, 7]
  | .si => [6]
  | .di => [7]
  | .bp => [5]
  | .bx => [3]
  | .abs => []

/-- The base register of an operand with 32- or 64-bit addressing (R113, R114). -/
def MemOperand.base? : MemOperand → Option GprNum
  | .base b _ => some b
  | .sib _ _ b _ => b
  | _ => none

/-- The segment when no override counts: SS for a base of register 4 or 5 and for the BP forms, DS otherwise (R112, R113,
R115). -/
def MemOperand.defaultSegment : MemOperand → SegName
  | .addr16 f _ => if (Addr16.registers f).contains 5 then .ss else .ds
  | m => if MemOperand.base? m = some 4 ∨ MemOperand.base? m = some 5 then .ss else .ds

/-- The segment of a memory destination; in Long64 only FS and GS overrides count (R116). -/
def segmentOf (mode : Mode) (p : Prefixes) (m : MemOperand) : SegName :=
  match p.segOverride with
  | none => MemOperand.defaultSegment m
  | some o =>
    if mode = .long64 ∧ o ≠ .fs ∧ o ≠ .gs then MemOperand.defaultSegment m else o

/-- The operand's base is register 4, the stack pointer (R158). -/
def MemOperand.spBased (m : MemOperand) : Bool := MemOperand.base? m == some 4

namespace State

/-- A base register's value at the address size, register 4 reading as `spv` (R113, R158). -/
def baseValue (s : State) (asz : Size) (spv : Word) (i : GprNum) : Word :=
  if i = 4 then spv else s.readReg asz i

/-- The effective address, registers read at the address size and the sum truncated to it; `next` is the address of the next
instruction (R112 to R115). -/
def effectiveAddress (s : State) (asz : Size) (spv next : Word) (m : MemOperand) : Word :=
  zeroExtendFrom asz <|
    match m with
    | .addr16 f d => ((Addr16.registers f).map (s.readReg .s16)).sum + Disp.value d
    | .abs32 d => d.setWidth 64
    | .ripRel d => next + d.signExtend 64
    | .base b d => s.baseValue asz spv b + Disp.value d
    | .sib sc i b d =>
      b.elim 0 (s.baseValue asz spv) + (i.elim 0 (s.readReg asz)) <<< Scale.shift sc + Disp.value d

/-- A POP of the given size makes a 16-bit stack pointer wrap (R159). -/
def spWraps (s : State) (n : Size) : Bool :=
  s.stackAddrSize == .s16 && decide (2 ^ 16 ≤ s.sp.toNat + n.bytes)

/-- What register 4 is worth as a base, `after` being the state with the stack pointer incremented: its incremented value, and
where a 16-bit stack pointer wraps what the parameter WrapEA16 says (R158, R159, log 7). -/
def spBase (s after : State) (asz n : Size) : Exec Word :=
  if s.spWraps n then
    match s.params.wrapEA16 with
    | .refuse => refuse .wrapEA16
    | .carry => .ok ((s.r32 4 + BitVec.ofNat 32 n.bytes).setWidth 64)
    | .wrap => .ok (after.readReg asz 4)
    | .anyBase => .ok ((Config.freeWrapBase s.draws).setWidth 64)
  else .ok (after.readReg asz 4)

/-- The offset a memory destination is at, formed after the stack pointer was incremented (R151, R158). `s` is the state the
instruction began in. -/
def destOffset (s : State) (p : Prefixes) (n : Size) (m : MemOperand) (len : Nat) : Exec Word :=
  let after := s.writeSp s.stackAddrSize (s.spAfter n)
  let asz := s.ctx.addressSize p
  let next := s.pc + BitVec.ofNat 64 len
  if MemOperand.spBased m then do
    let spv ← s.spBase after asz n
    .ok (after.effectiveAddress asz spv next m)
  else .ok (after.effectiveAddress asz 0 next m)

/-- Steps 1 to 3 of the destination write: the physical addresses of the bytes to store (R71). -/
def destAddrs (s : State) (p : Prefixes) (n : Size) (m : MemOperand) (len : Nat) : Exec (List Nat) := do
  let off ← s.destOffset p n m len
  s.accessAddrs .write (segmentOf s.mode p m) off n.bytes 1

end State

end Sys2Proof.Machine
end

