-- ==== Sys2Proof/Machine/PopGpr.lean ====
section
/-! DEFINITION. POP to a general register or to memory (40_pop_gpr_mem.md R150 to R165). -/

namespace Sys2Proof.Machine

/-- POP into a register: read at the old top of stack, increment the stack pointer, then write the register, so that POP into
the stack pointer leaves the value popped (R150, R154 to R157). -/
def popToReg (i : Instr) (n : Size) (d : GprNum) (s : State) : Exec State := do
  let v ← s.stackRead n.bytes
  ((s.writeSp s.stackAddrSize (s.spAfter n)).writeReg n d v).complete i.length false false

/-- The stack read as reported beside a destination write that would fault too: the read's fault, or under `either` a free one
of the two (R256, log 13). -/
def State.reportedRead (s : State) (read : Exec Word) (dest : Exec (List Nat)) : Exec Word :=
  match read, dest with
  | .error (.fault f), .error (.fault g) => .error (.fault (if s.reportsLater 2 then g else f))
  | r, _ => r

/-- POP into memory: the stack read, then the checks of the destination, whose address is formed from the incremented stack
pointer, then the write; a fault commits nothing (R151 to R153, R158, R160, R164). -/
def popToMem (i : Instr) (n : Size) (m : MemOperand) (s : State) : Exec State := do
  let v ← s.reportedRead (s.stackRead n.bytes) (s.destAddrs i.prefixes n m i.length)
  let as ← s.destAddrs i.prefixes n m i.length
  let t ← (s.writeSp s.stackAddrSize (s.spAfter n)).storeBytes as v
  t.complete i.length false false

/-- Format M: a register or memory (R151 to R153). -/
def popRm (i : Instr) (n : Size) (o : RmOperand) (s : State) : Exec State :=
  match o with
  | .reg d => popToReg i n d s
  | .mem m => popToMem i n m s

/-- POP r/m16 (R151). -/
def execPopRm16 (p : Prefixes) (o : RmOperand) (s : State) : Host.Outcome State Fault Refusal :=
  perform (.popRm16 p o) s (popRm (.popRm16 p o) .s16 o s)

/-- POP r/m32 (R152). -/
def execPopRm32 (p : Prefixes) (o : RmOperand) (s : State) : Host.Outcome State Fault Refusal :=
  perform (.popRm32 p o) s (popRm (.popRm32 p o) .s32 o s)

/-- POP r/m64 (R153). -/
def execPopRm64 (p : Prefixes) (o : RmOperand) (s : State) : Host.Outcome State Fault Refusal :=
  perform (.popRm64 p o) s (popRm (.popRm64 p o) .s64 o s)

/-- POP r16 (R154). -/
def execPopR16 (p : Prefixes) (d : GprNum) (s : State) : Host.Outcome State Fault Refusal :=
  perform (.popR16 p d) s (popToReg (.popR16 p d) .s16 d s)

/-- POP r32 (R155). -/
def execPopR32 (p : Prefixes) (d : GprNum) (s : State) : Host.Outcome State Fault Refusal :=
  perform (.popR32 p d) s (popToReg (.popR32 p d) .s32 d s)

/-- POP r64 (R156). -/
def execPopR64 (p : Prefixes) (d : GprNum) (s : State) : Host.Outcome State Fault Refusal :=
  perform (.popR64 p d) s (popToReg (.popR64 p d) .s64 d s)

end Sys2Proof.Machine
end

