-- ==== Sys2Proof/Machine/Segment.lean ====
section
/-! DEFINITION. The load of a segment register: selectors, descriptors, the checks by mode and the accessed bit
(41_pop_segreg.md R215 to R224). -/

namespace Sys2Proof.Machine

/-- `sel.index` (R216). -/
def selIndex (sel : BitVec 16) : Nat := (sel.extractLsb' 3 13).toNat

/-- `sel.TI`: the local table (R216). -/
def selLocal (sel : BitVec 16) : Bool := sel.getLsbD 2

/-- `sel.RPL` (R216). -/
def selRpl (sel : BitVec 16) : BitVec 2 := sel.extractLsb' 0 2

/-- A NULL selector, 0000 to 0003 (R216). -/
def isNull (sel : BitVec 16) : Bool := sel.extractLsb' 2 14 == 0

/-- A segment descriptor: the quadword the table holds (R217). -/
structure Descriptor where
  raw : Word
  deriving DecidableEq, Repr

namespace Descriptor

/-- Bits 51:48 and 15:0 (R217). -/
def limit20 (d : Descriptor) : BitVec 20 := d.raw.extractLsb' 48 4 ++ d.raw.extractLsb' 0 16

/-- The byte-granular limit (R217). -/
def limit (d : Descriptor) : BitVec 32 :=
  if d.raw.getLsbD 55 then d.limit20 ++ 0xFFF#12 else d.limit20.setWidth 32

/-- The base, zero-extended (R217, D34). -/
def base (d : Descriptor) : BitVec 64 :=
  (d.raw.extractLsb' 56 8 ++ d.raw.extractLsb' 16 24).setWidth 64

/-- What the segment is for (R217). -/
def kind (d : Descriptor) : SegKind :=
  if d.raw.getLsbD 44 then
    if d.raw.getLsbD 43 then .code (d.raw.getLsbD 41) (d.raw.getLsbD 42)
    else .data (d.raw.getLsbD 41) (d.raw.getLsbD 42)
  else .system

/-- DPL (R217). -/
def dpl (d : Descriptor) : BitVec 2 := d.raw.extractLsb' 45 2

/-- "marked present" (R217). -/
def present (d : Descriptor) : Bool := d.raw.getLsbD 47

/-- The accessed bit (R217, R224). -/
def accessed (d : Descriptor) : Bool := d.raw.getLsbD 40

/-- Byte 5 of the descriptor with the accessed bit set (R224). -/
def accessedByte (d : Descriptor) : Byte := d.raw.extractLsb' 40 8 ||| 1

/-- The hidden part loaded from a descriptor that passed the checks (R223). -/
def hidden (d : Descriptor) : SegHidden where
  base    := d.base
  limit   := d.limit
  kind    := d.kind
  dpl     := d.dpl
  present := true
  db      := d.raw.getLsbD 54
  l       := d.raw.getLsbD 53
  usable  := true

end Descriptor

/-- A writable data segment (R218). -/
def SegKind.writableData : SegKind → Bool
  | .data w _ => w
  | _ => false

/-- A data or readable code segment (R219). -/
def SegKind.dataOrReadable : SegKind → Bool
  | .data _ _ => true
  | .code r _ => r
  | .system => false

/-- A data or nonconforming code segment, to which the privilege test applies (R219). -/
def SegKind.privileged : SegKind → Bool
  | .data _ _ => true
  | .code _ c => !c
  | .system => false

namespace State

/-- The base of the table a selector chooses (R42, R217). -/
def tableBase (s : State) (sel : BitVec 16) : Word := if selLocal sel then s.ldtr.base else s.gdtr.base

/-- The limit of the table a selector chooses (R42, R217). -/
def tableLimit (s : State) (sel : BitVec 16) : Nat :=
  if selLocal sel then s.ldtr.limit.toNat else s.gdtr.limit.toNat

/-- The selector's index is outside the descriptor-table limits (R217). -/
def outsideTable (s : State) (sel : BitVec 16) : Bool :=
  (selLocal sel && !s.ldtr.usable) || decide (s.tableLimit sel < selIndex sel * 8 + 7)

/-- The linear address of byte `k` of the descriptor (R217, R60, log 20). -/
def descriptorByte (s : State) (sel : BitVec 16) (k : Nat) : Word :=
  s.truncLinear (s.tableBase sel + BitVec.ofNat 64 (selIndex sel * 8 + k))

/-- Read the descriptor of a selector inside the limits: eight bytes, with supervisor privilege, never alignment-checked
(R217, R79). Where several of them page-fault, which one #PF reports the spec does not say: the model takes the lowest (DESIGN
CHOICE, log 35). -/
def readDescriptor (s : State) (sel : BitVec 16) : Exec Descriptor := do
  let as ← s.translateAll .read supervisor ((List.range 8).map (s.descriptorByte sel))
  let bs ← s.loadBytes as
  .ok ⟨leValue bs⟩

/-- Set the accessed bit of a descriptor that was loaded: byte 5 is rewritten with bit 0 set, with supervisor privilege
(R224, log 19). -/
def markAccessed (s : State) (sel : BitVec 16) (d : Descriptor) : Exec State :=
  if d.accessed then .ok s
  else do
    let as ← s.translateAll .write supervisor [s.descriptorByte sel 5]
    s.storeBytes as (d.accessedByte.setWidth 64)

/-- The accessed bit, then the register from the descriptor (R218, R219, R223, R224). -/
def loadFrom (s : State) (sg : SegName) (sel : BitVec 16) (d : Descriptor) : Exec State := do
  let t ← s.markAccessed sel d
  .ok (t.setSreg sg ⟨sel, d.hidden⟩)

/-- Loading SS in Protected or Compat mode (R218). -/
def loadStackSegment (s : State) (sel : BitVec 16) : Exec State :=
  if isNull sel then raise s (.gp (some 0))
  else if s.outsideTable sel then raise s (.gp (some (selectorCode sel)))
  else do
    let d ← s.readDescriptor sel
    if selRpl sel ≠ s.cpl ∨ SegKind.writableData d.kind = false ∨ d.dpl ≠ s.cpl then
      raise s (.gp (some (selectorCode sel)))
    else if d.present = false then raise s (.ss (some (selectorCode sel)))
    else s.loadFrom .ss sel d

/-- `PrivViolation`: both RPL and CPL above DPL; where exactly one is, what the parameter DataSegPriv says (R219, D40, log 8). -/
def privViolation (s : State) (sel : BitVec 16) (d : Descriptor) : Exec Bool :=
  let rplAbove := decide (d.dpl.toNat < (selRpl sel).toNat)
  let cplAbove := decide (d.dpl.toNat < s.cpl.toNat)
  if rplAbove && cplAbove then .ok true
  else if rplAbove || cplAbove then
    match s.params.dataSegPriv with
    | .either => .ok true
    | .both => .ok false
    | .refuse => refuse .dataSegPriv
    | .anyReading => .ok (Config.freePrivilege s.draws)
  else .ok false

/-- The privilege part of the #GP(selector) group: conforming code is exempt (R219). -/
def privDenied (s : State) (sel : BitVec 16) (d : Descriptor) : Exec Bool :=
  if SegKind.privileged d.kind then s.privViolation sel d else .ok false

/-- Loading DS, ES, FS or GS with a non-NULL selector outside Real and V8086 mode (R219, R220). -/
def loadDataSegment (s : State) (sg : SegName) (sel : BitVec 16) : Exec State :=
  if s.outsideTable sel then raise s (.gp (some (selectorCode sel)))
  else do
    let d ← s.readDescriptor sel
    if SegKind.dataOrReadable d.kind = false then raise s (.gp (some (selectorCode sel)))
    else do
      let denied ← s.privDenied sel d
      if denied = true then raise s (.gp (some (selectorCode sel)))
      else if d.present = false then raise s (.np (selectorCode sel))
      else s.loadFrom sg sel d

/-- The hidden part after a NULL selector: any value, or the parameter's, and not usable (R222, D23, log 9). -/
def nullHidden (s : State) : SegHidden :=
  { s.params.nullLoadHidden.getD (Config.freeHidden s.draws) with usable := false }

/-- Loading DS, ES, FS or GS with a NULL selector: no table is read and no check is made (R222). -/
def loadNull (s : State) (sg : SegName) (sel : BitVec 16) : State := s.setSreg sg ⟨sel, s.nullHidden⟩

/-- Loading a segment register in Real or V8086 mode: the base is the selector times 16 (R221, D22). -/
def loadReal (s : State) (sg : SegName) (sel : BitVec 16) : State :=
  s.setSreg sg ⟨sel, { (s.sreg sg).hid with base := sel.setWidth 64 <<< 4 }⟩

/-- `LoadSeg(S, sel)`, by mode (R215). -/
def loadSeg (s : State) (sg : SegName) (sel : BitVec 16) : Exec State :=
  match s.mode with
  | .real | .v8086 => .ok (s.loadReal sg sel)
  | .protected_ | .compat =>
    if sg = .ss then s.loadStackSegment sel
    else if isNull sel then .ok (s.loadNull sg sel)
    else s.loadDataSegment sg sel
  | .long64 =>
    if isNull sel then .ok (s.loadNull sg sel) else s.loadDataSegment sg sel

end State

end Sys2Proof.Machine
end

