-- ==== Sys2Proof/Machine/PopSeg.lean ====
section
/-! DEFINITION. POP to a segment register (41_pop_segreg.md R200 to R209, R226). -/

namespace Sys2Proof.Machine

/-- How many bytes a POP into a segment register reads (R12, R200, D37). -/
def State.sregReadBytes (s : State) (n : Size) : Nat :=
  match s.params.sregPopReadBytes with
  | .operand => n.bytes
  | .two => 2

/-- `PopSreg(S)` at operand size `n`: the selector is the low 16 bits of the datum, the stack pointer goes up by the operand
size at the old stack-address size, and POP SS sets the inhibition (R200, R210, R212, R226). -/
def popToSeg (i : Instr) (n : Size) (sg : SegName) (s : State) : Exec State := do
  let raw ← s.stackRead (s.sregReadBytes n)
  let t ← s.loadSeg sg (raw.setWidth 16)
  (t.writeSp s.stackAddrSize (s.spAfter n)).complete i.length
    (sg == .ss && s.inhibitAfterPopSs) (sg == .ss)

/-- POP DS, ES or SS: invalid in Long64, where it raises #UD before anything else (R130, D20); elsewhere the operand size is
computed (R201 to R203). -/
def popLegacySeg (i : Instr) (sg : SegName) (s : State) : Exec State :=
  if s.mode = .long64 then raise s .ud
  else popToSeg i (s.ctx.operandSize i.prefixes) sg s

/-- POP DS (R201). -/
def execPopDs (p : Prefixes) (s : State) : Host.Outcome State Fault Refusal :=
  perform (.popDs p) s (popLegacySeg (.popDs p) .ds s)

/-- POP ES (R202). -/
def execPopEs (p : Prefixes) (s : State) : Host.Outcome State Fault Refusal :=
  perform (.popEs p) s (popLegacySeg (.popEs p) .es s)

/-- POP SS (R203). -/
def execPopSs (p : Prefixes) (s : State) : Host.Outcome State Fault Refusal :=
  perform (.popSs p) s (popLegacySeg (.popSs p) .ss s)

/-- POP FS, 16-bit operand size (R204). -/
def execPopFs16 (p : Prefixes) (s : State) : Host.Outcome State Fault Refusal :=
  perform (.popFs16 p) s (popToSeg (.popFs16 p) .s16 .fs s)

/-- POP FS, 32-bit operand size (R205). -/
def execPopFs32 (p : Prefixes) (s : State) : Host.Outcome State Fault Refusal :=
  perform (.popFs32 p) s (popToSeg (.popFs32 p) .s32 .fs s)

/-- POP FS, 64-bit operand size (R206). -/
def execPopFs64 (p : Prefixes) (s : State) : Host.Outcome State Fault Refusal :=
  perform (.popFs64 p) s (popToSeg (.popFs64 p) .s64 .fs s)

/-- POP GS, 16-bit operand size (R207). -/
def execPopGs16 (p : Prefixes) (s : State) : Host.Outcome State Fault Refusal :=
  perform (.popGs16 p) s (popToSeg (.popGs16 p) .s16 .gs s)

/-- POP GS, 32-bit operand size (R208). -/
def execPopGs32 (p : Prefixes) (s : State) : Host.Outcome State Fault Refusal :=
  perform (.popGs32 p) s (popToSeg (.popGs32 p) .s32 .gs s)

/-- POP GS, 64-bit operand size (R209). -/
def execPopGs64 (p : Prefixes) (s : State) : Host.Outcome State Fault Refusal :=
  perform (.popGs64 p) s (popToSeg (.popGs64 p) .s64 .gs s)

end Sys2Proof.Machine
end

