-- ==== Sys2Proof/Machine/Fetch.lean ====
section
/-! DEFINITION. Fetching an instruction's bytes at CS:pc (rules R29, R74, R88, R256, log 16), the run's record of them,
and placing an instruction there from outside (log 22). -/

namespace Sys2Proof.Machine

namespace State

/-- The code-segment offset of instruction byte `k` (R29). -/
def fetchOffset (s : State) (k : Nat) : Word :=
  if s.mode = .long64 then s.pc + BitVec.ofNat 64 k
  else (s.pc.setWidth 32).setWidth 64 + BitVec.ofNat 64 k

/-- The linear address of instruction byte `k` (R64, R65). -/
def fetchLinear (s : State) (k : Nat) : Word := s.linear .cs (s.fetchOffset 0) k

/-- The byte lies in the code segment, or its address is canonical (R256). -/
def fetchRefusal? (s : State) (k : Nat) : Option Refusal :=
  if s.mode = .long64 then
    if canonical s.params.linAddrBits (s.fetchLinear k) then none else some .fetchNonCanonical
  else if (s.fetchOffset k).toNat ≤ s.sregs.cs.hid.limit.toNat then none
  else some .fetchBeyondLimit

/-- Instruction byte `k` with its physical address, or why the spec gives its fetch no meaning (R256). -/
def fetchByte (s : State) (k : Nat) : Except Refusal (Nat × Byte) :=
  match s.fetchRefusal? k with
  | some r => .error r
  | none =>
    match s.translate .read s.cpl (s.fetchLinear k) with
    | .error _ => .error .fetchPageFault
    | .ok a => if s.inPhysMem a then .ok (a, s.mem.read a) else .error (.outsidePhysMem a)

/-- The bytes from byte `k` on, up to `count` of them, as far as they can be fetched, and why the next one cannot. -/
def fetchFrom (s : State) : Nat → Nat → List (Nat × Byte) × Option Refusal
  | 0, _ => ([], none)
  | count + 1, k =>
    match s.fetchByte k with
    | .error r => ([], some r)
    | .ok c => (c :: (s.fetchFrom count (k + 1)).1, (s.fetchFrom count (k + 1)).2)

/-- The physical addresses of the `len` bytes at pc, as far as they can be fetched. -/
def fetchAddrs (s : State) (len : Nat) : List Nat := ((s.fetchFrom maxInstrLength 0).1.take len).map Prod.fst

/-- One of the `len` bytes at pc is one the run itself wrote (R88). -/
def fetchedModified (s : State) (len : Nat) : Bool := (s.fetchAddrs len).any s.written.contains

/-- The instruction at pc, or why there is none. Bytes after it play no part, readable or not. -/
def fetchInstr (s : State) : Except Refusal Instr :=
  match decode s.ctx ((s.fetchFrom maxInstrLength 0).1.map Prod.snd) with
  | .ok (i, _) =>
    if s.fetchedModified i.length then .error .fetchModified else .ok i
  | .error .truncated => .error ((s.fetchFrom maxInstrLength 0).2.getD (.undecoded .truncated))
  | .error e => .error (.undecoded e)

/-- The state in which an instruction of `len` bytes runs: the boundary's offer is past, and the run has executed the bytes at pc
(R15, R88, log 17). -/
def enter (s : State) (len : Nat) : State :=
  { s with offers := s.offers.tail, fetched := (s.fetchAddrs len).foldr insertAddr s.fetched }

/-- The run wrote no byte of an instruction it executed (R88, P3). -/
def codeIntact (s : State) : Bool := s.written.all fun a => !s.fetched.contains a

/-- Put one byte into memory from outside: not a write of the run. -/
def placeByte (s : State) (a : Nat) (v : Byte) : State :=
  { s with mem := s.mem.write a v, written := s.written.filter (· != a) }

/-- Put bytes where the fetch reads its bytes from byte `k` on. -/
def placeBytes (s : State) : List Byte → Nat → State
  | [], _ => s
  | b :: bs, k =>
    match s.translate .read s.cpl (s.fetchLinear k) with
    | .ok a => (s.placeByte a b).placeBytes bs (k + 1)
    | .error _ => s.placeBytes bs (k + 1)

end State

/-- A run that writes a byte of an instruction it executed, the writing one included, has no meaning (R88, P3, D16, log 17). -/
def sparingCode : Host.Outcome State Fault Refusal → Host.Outcome State Fault Refusal
  | .next t => if t.codeIntact then .next t else .refused .codeWritten
  | .fault f => .fault f
  | .refused r => .refused r

end Sys2Proof.Machine
end

