-- ==== Sys2Proof/Machine/Step.lean ====
section
/-! DEFINITION. One step: the instruction boundary, where an interrupt may be delivered (rule R260), then the instruction at pc,
which must write no byte of an executed instruction (R88). -/

namespace Sys2Proof.Machine

/-- One step of the machine. Each step begins at a boundary, the first of a run too: of an offer that stands at the launch the
spec says nothing (DESIGN CHOICE, log 15). -/
def step (s : State) : Host.Outcome State Fault Refusal :=
  if s.interruptDue then .refused .interruptDelivered
  else
    match s.fetchInstr with
    | .error r => .refused r
    | .ok i => sparingCode (exec i (s.enter i.length))

/-- The state with an instruction's bits (numbered from the first byte up, those above `nbits` zero) stored where `step` fetches
its next instruction (log 22). -/
def State.withFetchWord (s : State) (nbits w : Nat) : State :=
  s.placeBytes (bytesOfNat (w % 2 ^ nbits) maxInstrLength) 0

end Sys2Proof.Machine
end

