-- ==== Sys2Proof/Safety.lean ====
section
/-! DEFINITION. What a safe run is (rule R299), the launch premises (R293), and the invariant every step keeps. -/

namespace Sys2Proof.Machine

/-- How a run ends (R299). -/
inductive RunEnd where
  /-- pc reached `end_pc` at an instruction boundary. -/
  | finished (s : State)
  | faulted (f : Fault) (s : State)
  | refused (r : Refusal) (s : State)
  /-- The given number of steps was not enough. -/
  | outOfSteps (s : State)
  deriving DecidableEq, Repr

/-- A run of at most `k` steps towards `end_pc`. It says nothing about what the hardware does there (R299, log 25). pc and
`end_pc` are compared as 64-bit values in every mode (DESIGN CHOICE, log 25). -/
def run (endPc : Word) : Nat → State → RunEnd
  | 0, s => if s.pc = endPc then .finished s else .outOfSteps s
  | k + 1, s =>
    if s.pc = endPc then .finished s
    else
      match step s with
      | .next t => run endPc k t
      | .fault f => .faulted f s
      | .refused r => .refused r s

/-- The state a run towards `end_pc` is in after `k` steps, if it comes so far. pc and `end_pc` are compared as in `run`. -/
def reached (endPc : Word) : Nat → State → Option State
  | 0, s => some s
  | k + 1, s =>
    if s.pc = endPc then none
    else
      match step s with
      | .next t => reached endPc k t
      | .fault _ => none
      | .refused _ => none

/-- A run that ends successfully (R299). -/
def SafeRun (endPc : Word) (k : Nat) (s : State) : Prop := ∃ t, run endPc k s = .finished t

/-- The memory operand an instruction pops into, if it has one. -/
def Instr.destination? : Instr → Option MemOperand
  | .popRm16 _ (.mem m) | .popRm32 _ (.mem m) | .popRm64 _ (.mem m) => some m
  | .popRm16 _ (.reg _) | .popRm32 _ (.reg _) | .popRm64 _ (.reg _) => none
  | .popR16 _ _ | .popR32 _ _ | .popR64 _ _ => none
  | .popDs _ | .popEs _ | .popSs _ => none
  | .popFs16 _ | .popFs32 _ | .popFs64 _ => none
  | .popGs16 _ | .popGs32 _ | .popGs64 _ => none

/-- The segment register an instruction pops into, if it pops into one. -/
def Instr.segment? : Instr → Option SegName
  | .popDs _ => some .ds
  | .popEs _ => some .es
  | .popSs _ => some .ss
  | .popFs16 _ | .popFs32 _ | .popFs64 _ => some .fs
  | .popGs16 _ | .popGs32 _ | .popGs64 _ => some .gs
  | .popRm16 _ _ | .popRm32 _ _ | .popRm64 _ _ => none
  | .popR16 _ _ | .popR32 _ _ | .popR64 _ _ => none

/-- Addresses strictly rising. -/
def rising : List Nat → Bool
  | [] => true
  | [_] => true
  | a :: b :: bs => decide (a < b) && rising (b :: bs)

namespace State

/-- Premise P1: mode, privilege level and CS agree (R293). -/
abbrev modeConsistent (s : State) : Prop :=
  (s.mode = .long64 → s.sregs.cs.hid.l = true) ∧ (s.mode = .v8086 → s.cpl = 3) ∧ (s.mode = .real → s.cpl = 0)

/-- Premise P2: in Protected and Compat mode SS holds a usable, present, writable data segment with DPL = CPL (R293). -/
abbrev stackLoaded (s : State) : Prop :=
  s.protectedLike = true →
    s.sregs.ss.hid.usable = true ∧ s.sregs.ss.hid.present = true ∧
      SegKind.writableData s.sregs.ss.hid.kind = true ∧ s.sregs.ss.hid.dpl = s.cpl

/-- `i` pops the selector `sel`: it is a POP to a segment register that raises no #UD, and its stack read succeeds (R130, R134,
R200). -/
def popsSelector (s : State) (i : Instr) (sel : BitVec 16) : Prop :=
  i.prefixes.locked = false ∧
    (∃ sg, Instr.segment? i = some sg ∧ (s.mode = .long64 → sg = .fs ∨ sg = .gs)) ∧
    ∃ raw, s.stackRead (s.sregReadBytes (s.ctx.operandSize i.prefixes)) = .ok raw ∧ sel = raw.setWidth 16

/-- A mode in which a segment load looks a selector up in a descriptor table (R42). -/
abbrev usesTables (s : State) : Prop := s.mode ≠ .real ∧ s.mode ≠ .v8086

/-- The table's byte `k` at linear address `base + k` is memory that exists, for a read and for a write, where it translates
(P4, P9). Of a byte whose translation page-faults the spec says nothing, and nothing is asked (DESIGN CHOICE, log 34). -/
def tableByteExists (s : State) (base : Word) (k : Nat) : Prop :=
  ∀ acc a, s.translate acc supervisor (s.truncLinear (base + BitVec.ofNat 64 k)) = .ok a → s.inPhysMem a = true

/-- Premises P4 and P9 for one descriptor table: each byte up to its limit exists (R293). -/
def tableExists (s : State) (base : Word) (limit : Nat) : Prop := ∀ k, k ≤ limit → s.tableByteExists base k

/-- Premises P4 and P9 for the global table (R293). -/
def globalTableExists (s : State) : Prop := s.tableExists s.gdtr.base s.gdtr.limit.toNat

/-- Premises P4 and P9 for the local table, asked where the instruction pops a selector with TI = 1 that is looked up (R293). An
LDTR that is not usable describes no table, and nothing is asked of it (DESIGN CHOICE, log 34). -/
def localTableExists (s : State) (i : Instr) : Prop :=
  ∀ sel, s.popsSelector i sel → s.usesTables → selLocal sel = true → s.ldtr.usable = true →
    s.tableExists s.ldtr.base s.ldtr.limit.toNat

/-- Premise P4 for the stack: as many bytes at its top as the operand size has are memory that exists, where they translate
(R293). P4 does not say which bytes it means for an instruction that reads fewer or none: the model asks them of every
instruction (DESIGN CHOICE, log 34). -/
def stackExists (s : State) (i : Instr) : Prop :=
  ∀ k a, k < (s.ctx.operandSize i.prefixes).bytes → s.translate .read s.cpl (s.linear .ss s.sp k) = .ok a →
    s.inPhysMem a = true

/-- Premise P4 for a memory destination: as many bytes at its address as the operand size has are memory that exists, where they
translate (R293). P4 does not say whether it means those of an instruction that does not come to store: the model asks them of
every instruction with such an operand whose address is defined (DESIGN CHOICE, log 34). -/
def destinationExists (s : State) (i : Instr) : Prop :=
  ∀ m off k a, Instr.destination? i = some m →
    s.destOffset i.prefixes (s.ctx.operandSize i.prefixes) m i.length = .ok off →
    k < (s.ctx.operandSize i.prefixes).bytes →
    s.translate .write s.cpl (s.linear (segmentOf s.mode i.prefixes m) off k) = .ok a → s.inPhysMem a = true

/-- Premise P6 for one instruction: the descriptor it loads, if it completes and loads one, has its accessed bit set (R293). A
NULL selector loads no descriptor (R222). -/
def loadsAccessed (s : State) (i : Instr) : Prop :=
  ∀ sel d t, s.popsSelector i sel → s.usesTables → isNull sel = false → s.readDescriptor sel = .ok d →
    exec i s = .next t → d.accessed = true

/-- Premise P6: each descriptor that a segment-register POP of the run loads has its accessed bit set (R293). -/
def descriptorsAccessed (s : State) (endPc : Word) : Prop :=
  ∀ k t i, reached endPc k s = some t → t.pc ≠ endPc → t.fetchInstr = .ok i → (t.enter i.length).loadsAccessed i

/-- The premises a launch state meets: P1, P2, P8, P4 and P9 for the global table, and nothing executed or written yet. Of P4, that
a read returns the last value written is a property of memory in its canonical form, which a launch has; that it has no side
effect, P5 and P7 are the shape of the model: no device, no other agent, no debug facility. The rest of P1, that no claim outside Long64 reads bits 63:32 of a
general register or registers 8 to 15, is a rule for the statements (R293). -/
structure Launch (s : State) : Prop where
  modeConsistent : s.modeConsistent
  stackLoaded : s.stackLoaded
  notInhibited : s.inhibit = false ∧ s.afterPopSs = false
  memoryCanonical : s.mem.wf = true
  globalTableExists : s.globalTableExists
  nothingWritten : s.written = []
  nothingExecuted : s.fetched = []

/-- The physical addresses of the instruction at pc. -/
def codeAddrs (s : State) : List Nat :=
  match decode s.ctx ((s.fetchFrom maxInstrLength 0).1.map Prod.snd) with
  | .ok (i, _) => s.fetchAddrs i.length
  | .error _ => []

/-- Premise P3: no instruction the run comes to has a byte that the run has written once an instruction it comes to completes,
whichever of the two is earlier (R293). -/
def codeDisjoint (s : State) (endPc : Word) : Prop :=
  ∀ j k t u i v, reached endPc j s = some t → t.pc ≠ endPc → reached endPc k s = some u → u.pc ≠ endPc →
    u.fetchInstr = .ok i → exec i (u.enter i.length) = .next v → ∀ a ∈ t.codeAddrs, a ∉ v.written

/-- The premises of a run towards `endPc`: those of its launch state, P3, and, for each instruction it comes to, P4 for the stack
and the destination, and P4 and P9 for the local table (R293). P6 is optional and stands alone. -/
structure RunPremises (s : State) (endPc : Word) : Prop where
  launch : s.Launch
  codeDisjoint : s.codeDisjoint endPc
  stackExists : ∀ k t i, reached endPc k s = some t → t.pc ≠ endPc → t.fetchInstr = .ok i → t.stackExists i
  destinationExists : ∀ k t i, reached endPc k s = some t → t.pc ≠ endPc → t.fetchInstr = .ok i →
    t.destinationExists i
  localTableExists : ∀ k t i, reached endPc k s = some t → t.pc ≠ endPc → t.fetchInstr = .ok i →
    (t.enter i.length).localTableExists i

/-- What every step keeps: memory and the two records of addresses in canonical form, no executed byte among the written ones,
premises P1 and P2, and inhibition only right after a POP SS. -/
abbrev Inv (s : State) : Prop :=
  s.mem.wf = true ∧ rising s.written = true ∧ rising s.fetched = true ∧ s.codeIntact = true ∧
    s.modeConsistent ∧ s.stackLoaded ∧ (s.inhibit = true → s.afterPopSs = true)

end State

end Sys2Proof.Machine
end

