-- ==== Sys2Proof/Certificates/Slice0/Obligations.lean ====
section
/-! DEFINITION. The statements about the machine, each a Prop. Docstrings name the rule or section a statement formalises and
the log entries it rests on. The first part names the hypotheses and results the statements share. -/

namespace Sys2Proof.Machine

/-- `i` pops `n` into general register `d`: formats O and M with mod 3 (R111). -/
inductive PopsRegister : Instr → Size → GprNum → Prop
  | rm16 (p : Prefixes) (d : GprNum) : PopsRegister (.popRm16 p (.reg d)) .s16 d
  | rm32 (p : Prefixes) (d : GprNum) : PopsRegister (.popRm32 p (.reg d)) .s32 d
  | rm64 (p : Prefixes) (d : GprNum) : PopsRegister (.popRm64 p (.reg d)) .s64 d
  | r16 (p : Prefixes) (d : GprNum) : PopsRegister (.popR16 p d) .s16 d
  | r32 (p : Prefixes) (d : GprNum) : PopsRegister (.popR32 p d) .s32 d
  | r64 (p : Prefixes) (d : GprNum) : PopsRegister (.popR64 p d) .s64 d

/-- `i` is `8F C0+r` where `j` is `58+r`, with the same prefixes (R111). -/
inductive SecondEncoding : Instr → Instr → Prop
  | pop16 (p : Prefixes) (d : GprNum) : SecondEncoding (.popRm16 p (.reg d)) (.popR16 p d)
  | pop32 (p : Prefixes) (d : GprNum) : SecondEncoding (.popRm32 p (.reg d)) (.popR32 p d)
  | pop64 (p : Prefixes) (d : GprNum) : SecondEncoding (.popRm64 p (.reg d)) (.popR64 p d)

/-- `i` pops `n` into memory. -/
inductive PopsMemory : Instr → Size → MemOperand → Prop
  | rm16 (p : Prefixes) (m : MemOperand) : PopsMemory (.popRm16 p (.mem m)) .s16 m
  | rm32 (p : Prefixes) (m : MemOperand) : PopsMemory (.popRm32 p (.mem m)) .s32 m
  | rm64 (p : Prefixes) (m : MemOperand) : PopsMemory (.popRm64 p (.mem m)) .s64 m

/-- `i` pops into segment register `sg`. -/
inductive PopsSegment : Instr → SegName → Prop
  | ds (p : Prefixes) : PopsSegment (.popDs p) .ds
  | es (p : Prefixes) : PopsSegment (.popEs p) .es
  | ss (p : Prefixes) : PopsSegment (.popSs p) .ss
  | fs16 (p : Prefixes) : PopsSegment (.popFs16 p) .fs
  | fs32 (p : Prefixes) : PopsSegment (.popFs32 p) .fs
  | fs64 (p : Prefixes) : PopsSegment (.popFs64 p) .fs
  | gs16 (p : Prefixes) : PopsSegment (.popGs16 p) .gs
  | gs32 (p : Prefixes) : PopsSegment (.popGs32 p) .gs
  | gs64 (p : Prefixes) : PopsSegment (.popGs64 p) .gs

/-- The step raises `e`, with some vector and pc (`Obligations.ExceptionsByMode` says which). -/
def Raises (o : Host.Outcome State Fault Refusal) (e : Exception) : Prop :=
  ∃ vector pc, o = .fault (.raised e vector pc)

namespace State

/-- `i` is an instruction of this mode, has no LOCK prefix and is not POP DS, ES or SS in Long64. -/
def Starts (s : State) (i : Instr) : Prop :=
  i.wf s.ctx = true ∧ i.prefixes.locked = false ∧
    (s.mode = .long64 → ∀ sg, PopsSegment i sg → sg = .fs ∨ sg = .gs)

/-- `i` starts, and pc past it stays in bounds. -/
def Ready (s : State) (i : Instr) : Prop := s.Starts i ∧ s.nextPcFits i.length = true

/-- The access passes the segment test and the alignment check, and its bytes are at the physical addresses `as`. -/
def Reaches (s : State) (acc : Access) (sg : SegName) (off : Word) (n : Nat) (as : List Nat) : Prop :=
  s.segTest acc sg off n = true ∧ s.alignFault (s.linear sg off 0) n = false ∧
    (s.linears sg off n).map (s.translate acc s.cpl) = as.map Except.ok ∧ ∀ a ∈ as, s.inPhysMem a = true

/-- The `n` bytes at the top of the stack can be read, and `v` is their value. -/
def Popped (s : State) (n : Nat) (v : Word) : Prop :=
  ∃ as : List Nat, s.Reaches .read .ss s.sp n as ∧ v = leValue (as.map s.mem.read)

/-- How many bytes `i` reads from the stack (R12, R150, R200). -/
def stackBytes (s : State) (i : Instr) : Nat :=
  match i with
  | .popRm16 _ _ | .popR16 _ _ => 2
  | .popRm32 _ _ | .popR32 _ _ => 4
  | .popRm64 _ _ | .popR64 _ _ => 8
  | .popDs _ | .popEs _ | .popSs _ | .popFs16 _ | .popFs32 _ | .popFs64 _ | .popGs16 _ | .popGs32 _ | .popGs64 _ =>
    if s.params.sregPopReadBytes = .two then 2 else (s.ctx.operandSize i.prefixes).bytes

/-- `i` pops the selector `sel`. -/
def PopsSelector (s : State) (i : Instr) (sel : BitVec 16) : Prop :=
  ∃ raw, s.Popped (s.stackBytes i) raw ∧ sel = raw.setWidth 16

/-- A register a program of the mode reaches: each in Long64, elsewhere 0 to 7 (R24). -/
def Shows (s : State) (j : GprNum) : Prop := s.mode = .long64 ∨ j.val < 8

/-- The index register, if there is one, is one a program of the mode reaches. -/
def ShowsIndex (s : State) (x : Option GprNum) : Prop := ∀ j, x = some j → s.Shows j

/-- Register `j` is as before, as far as the mode shows it: whole in Long64, elsewhere bits 31:0 of registers 0 to 7 (R24). -/
def Kept (s t : State) (j : GprNum) : Prop :=
  if s.mode = .long64 then t.r64 j = s.r64 j else j.val < 8 → t.r32 j = s.r32 j

/-- The bits of register `d` above the low 16 are as before, as far as the mode shows them (R24). -/
def KeptAbove16 (s t : State) (d : GprNum) : Prop :=
  if s.mode = .long64 then (t.r64 d).extractLsb' 16 48 = (s.r64 d).extractLsb' 16 48
  else (t.r32 d).extractLsb' 16 16 = (s.r32 d).extractLsb' 16 16

/-- `s` with pc past an instruction of `len` bytes, the inhibition as given and the free values moved on. -/
def retired (s : State) (len : Nat) (inhibit popSs : Bool) : State :=
  { s with
    pc := s.pc + BitVec.ofNat 64 len
    inhibit := inhibit
    afterPopSs := popSs
    draws := s.draws + 1 }

/-- The stack pointer went up by `k` at the stack-address size, modulo its width. A 16-bit one, which exists outside Long64
only, leaves bits 31:16 of register 4. -/
def SpMoved (s t : State) (k : Nat) : Prop :=
  match s.stackAddrSize with
  | .s16 => t.r32 4 = (s.r32 4).extractLsb' 16 16 ++ (s.r16 4 + BitVec.ofNat 16 k)
  | .s32 => t.r32 4 = s.r32 4 + BitVec.ofNat 32 k
  | .s64 => t.r64 4 = s.r64 4 + BitVec.ofNat 64 k

/-- What every completed POP into `sg` does beside loading it: the stack pointer moves by the operand size, pc passes the
instruction, only POP SS leaves an inhibition, and no other register changes as far as the mode
shows it (R24). -/
def SegmentPopped (s t : State) (i : Instr) (sg : SegName) : Prop :=
  t = { s.retired i.length t.inhibit (sg == .ss) with
        regs := t.regs, sregs := t.sregs, mem := t.mem, written := t.written } ∧
    s.SpMoved t (s.ctx.operandSize i.prefixes).bytes ∧
    (∀ j, j ≠ 4 → s.Kept t j) ∧
    (∀ q, q ≠ sg → t.sreg q = s.sreg q) ∧
    (sg ≠ .ss → t.inhibit = false) ∧
    (sg = .ss → s.inhibit = false → s.afterPopSs = false → t.inhibit = true)

/-- Memory is untouched. -/
def SameMemory (s t : State) : Prop := t.mem = s.mem ∧ t.written = s.written

/-- The selector is inside its table, the table's eight bytes can be read, and `d` is what they hold. -/
def DescriptorAt (s : State) (sel : BitVec 16) (d : Descriptor) : Prop :=
  s.outsideTable sel = false ∧
    ∃ as : List Nat, ((List.range 8).map (s.descriptorByte sel)).map (s.translate .read supervisor) = as.map Except.ok ∧
      (∀ a ∈ as, s.inPhysMem a = true) ∧ d.raw = leValue (as.map s.mem.read)

/-- The accessed bit is set already, or the byte that holds it can be written. -/
def CanMark (s : State) (sel : BitVec 16) (d : Descriptor) : Prop :=
  d.raw.getLsbD 40 = true ∨
    ∃ a, s.translate .write supervisor (s.descriptorByte sel 5) = .ok a ∧ s.inPhysMem a = true

/-- What a load does to memory: nothing where the accessed bit was set; elsewhere it sets that bit and touches no other byte
(R224, log 19). -/
def Marked (s t : State) (sel : BitVec 16) (d : Descriptor) : Prop :=
  (d.raw.getLsbD 40 = true → s.SameMemory t) ∧
    (d.raw.getLsbD 40 = false → ∀ a, s.translate .write supervisor (s.descriptorByte sel 5) = .ok a →
      (s.mem.wf = true → t.mem.read a = d.raw.extractLsb' 40 8 ||| 1) ∧
        ∀ b, b ≠ a → t.mem.read b = s.mem.read b)

/-- The kind of segment the bits of a descriptor name: bit 44 (S), bit 43 (code), bits 42 and 41 (R217). -/
def kindOf (q : Word) : SegKind :=
  match q.getLsbD 44, q.getLsbD 43 with
  | false, _ => .system
  | true, false => .data (q.getLsbD 41) (q.getLsbD 42)
  | true, true => .code (q.getLsbD 41) (q.getLsbD 42)

/-- The register holds the selector and the fields of the descriptor (R217, R223). -/
def LoadedFrom (r : SegReg) (sel : BitVec 16) (d : Descriptor) : Prop :=
  r.sel = sel ∧
    r.hid.base = (d.raw.extractLsb' 56 8 ++ d.raw.extractLsb' 16 24).setWidth 64 ∧
    r.hid.limit.toNat =
      (if d.raw.getLsbD 55 then
        (d.raw.extractLsb' 48 4 ++ d.raw.extractLsb' 0 16).toNat * 4096 + 4095
      else (d.raw.extractLsb' 48 4 ++ d.raw.extractLsb' 0 16).toNat) ∧
    r.hid.kind = kindOf d.raw ∧ r.hid.dpl = d.raw.extractLsb' 45 2 ∧ r.hid.present = true ∧
    r.hid.db = d.raw.getLsbD 54 ∧ r.hid.l = d.raw.getLsbD 53 ∧ r.hid.usable = true

/-- A mode with descriptor-table loads, in which POP can load `sg`. -/
def LoadsData (s : State) (sg : SegName) : Prop :=
  sg ≠ .ss ∧ sg ≠ .cs ∧ s.mode ≠ .real ∧ s.mode ≠ .v8086

/-- Protected or Compat mode. -/
def ProtectedOrCompat (s : State) : Prop := s.mode = .protected_ ∨ s.mode = .compat

/-- RPL and CPL as numbers beside DPL: both above, both not above. -/
def BothAbove (s : State) (sel : BitVec 16) (d : Descriptor) : Prop :=
  d.dpl.toNat < (selRpl sel).toNat ∧ d.dpl.toNat < s.cpl.toNat

/-- Neither RPL nor CPL is above DPL. -/
def NoneAbove (s : State) (sel : BitVec 16) (d : Descriptor) : Prop :=
  (selRpl sel).toNat ≤ d.dpl.toNat ∧ s.cpl.toNat ≤ d.dpl.toNat

/-- Exactly one of RPL and CPL is above DPL. -/
def OneAbove (s : State) (sel : BitVec 16) (d : Descriptor) : Prop := ¬ s.BothAbove sel d ∧ ¬ s.NoneAbove sel d

/-- The privilege test does not fail: conforming code, or neither RPL nor CPL above DPL, or one of them where the parameter
asks for both (R219). -/
def PrivilegeHolds (s : State) (sel : BitVec 16) (d : Descriptor) : Prop :=
  d.kind = .code true true ∨ s.NoneAbove sel d ∨ (s.OneAbove sel d ∧ s.params.dataSegPriv = .both)

/-- The segment can be loaded into `sg`: it is present, and the checks of R218 for SS or of R219 for the others pass. -/
def Loadable (s : State) (sg : SegName) (sel : BitVec 16) (d : Descriptor) : Prop :=
  d.present = true ∧
    if sg = .ss then selRpl sel = s.cpl ∧ d.dpl = s.cpl ∧ ∃ e, d.kind = .data true e
    else SegKind.dataOrReadable d.kind = true ∧ s.PrivilegeHolds sel d

/-- A mode in which a non-NULL selector for `sg` reads a descriptor (R215). -/
def LoadsDescriptor (s : State) (sg : SegName) : Prop := s.LoadsData sg ∨ (sg = .ss ∧ s.ProtectedOrCompat)

/-- The load of `sg` with `sel` succeeds, in any of the ways there are (R215). -/
def LoadSucceeds (s : State) (sg : SegName) (sel : BitVec 16) : Prop :=
  (s.mode = .real ∨ s.mode = .v8086) ∨ (s.LoadsData sg ∧ sel.toNat ≤ 3) ∨
    (s.LoadsDescriptor sg ∧ 3 < sel.toNat ∧ ∃ d, s.DescriptorAt sel d ∧ s.Loadable sg sel d ∧ s.CanMark sel d)

/-- A linear address that faults at the privilege `cpl`, the addresses before it in the access not faulting. -/
def FirstFaultAt (s : State) (acc : Access) (cpl : BitVec 2) (ls : List Word) (l : Word) (code : BitVec 32) : Prop :=
  ∃ before after, ls = before ++ l :: after ∧ s.translate acc cpl l = .error code ∧
    ∀ x ∈ before, ∃ a, s.translate acc cpl x = .ok a

/-- The same at the current privilege level. -/
def FirstFault (s : State) (acc : Access) (ls : List Word) (l : Word) (code : BitVec 32) : Prop :=
  s.FirstFaultAt acc s.cpl ls l code

/-- The first of these physical addresses that does not exist (R83). -/
def FirstOutside (s : State) (as : List Nat) (a : Nat) : Prop :=
  ∃ before after, as = before ++ a :: after ∧ s.inPhysMem a = false ∧ ∀ x ∈ before, s.inPhysMem x = true

/-- An unaligned access at privilege level 3 with alignment checking enabled, outside Real mode (R76, R248, log 24). -/
def Unaligned (s : State) (lin : Word) (n : Nat) : Prop :=
  s.acEnable = true ∧ s.cpl = 3 ∧ s.mode ≠ .real ∧ lin.toNat % n ≠ 0

/-- A fault the access gives cause for: the segment fault where the segment test fails; elsewhere #AC(0) where the access is
unaligned, and #PF where one of its bytes faults (R70, R71, R258). -/
def AccessRaises (s : State) (acc : Access) (sg : SegName) (off : Word) (n : Nat) (e : Exception) : Prop :=
  (s.segTest acc sg off n = false ∧ e = if sg = .ss then .ss s.zeroCode else .gp s.zeroCode) ∨
    (s.segTest acc sg off n = true ∧
      ((s.Unaligned (s.linear sg off 0) n ∧ e = .ac) ∨
        ∃ l code, s.FirstFault acc (s.linears sg off n) l code ∧ e = .pf code l))

/-- A fault the write of the destination gives cause for. -/
def DestinationRaises (s : State) (i : Instr) (n : Size) (m : MemOperand) (e : Exception) : Prop :=
  ∃ off, s.destOffset i.prefixes n m i.length = .ok off ∧
    s.AccessRaises .write (segmentOf s.mode i.prefixes m) off n.bytes e

/-- The same machine as far as a program outside Long64 can see: only bits 63:32 of the registers and registers 8 to 15
differ (R24). -/
def SameNarrowView (s t : State) : Prop :=
  t = { s with regs := t.regs } ∧ ∀ i : GprNum, i.val < 8 → t.r32 i = s.r32 i

/-- `t` and `u` are the same machine as far as a program in the mode of `s` can see (R24). -/
def SeenAlike (s t u : State) : Prop := if s.mode = .long64 then u = t else t.SameNarrowView u

end State

/-- The number bytes stand for, least significant first (R62). -/
def littleEndian : List Byte → Nat
  | [] => 0
  | b :: bs => b.toNat + 256 * littleEndian bs

/-- The default size the D flag selects: 1 is 32 bits, 0 is 16 (R120, D6). -/
def sizeOfFlag (flag : Bool) : Nat := if flag then 32 else 16

/-- The bit of a number. -/
def bitIsSet (x k : Nat) : Prop := x / 2 ^ k % 2 = 1

/-- Byte offset `x` lies inside the segment (R66). -/
def InsideByte (h : SegHidden) (x : Nat) : Prop :=
  match h.kind with
  | .data _ true => h.limit.toNat < x ∧ x ≤ (if h.db then 0xFFFFFFFF else 0xFFFF)
  | .data _ false => x ≤ h.limit.toNat
  | .code _ _ => x ≤ h.limit.toNat
  | .system => x ≤ h.limit.toNat

/-- Bits 63 down to `w - 1` of the address are equal (R78). -/
def TopBitsEqual (w : Nat) (a : Word) : Prop := ∀ j, w - 1 ≤ j → j ≤ 63 → a.getLsbD j = a.getLsbD 63

/-- A displacement at 16 bits (R112). -/
def disp16 : Disp → BitVec 16
  | .none => 0
  | .d8 d => d.signExtend 16
  | .d16 d => d
  | .d32 d => d.setWidth 16

/-- A displacement at 32 bits (R113). -/
def disp32 : Disp → BitVec 32
  | .none => 0
  | .d8 d => d.signExtend 32
  | .d16 d => d.signExtend 32
  | .d32 d => d

/-- A displacement at 64 bits (R114). -/
def disp64 : Disp → BitVec 64
  | .none => 0
  | .d8 d => d.signExtend 64
  | .d16 d => d.signExtend 64
  | .d32 d => d.signExtend 64

/-- The registers' part of a 16-bit address (R112). -/
def State.sum16 (s : State) : Addr16 → BitVec 16
  | .bxSi => s.r16 3 + s.r16 6
  | .bxDi => s.r16 3 + s.r16 7
  | .bpSi => s.r16 5 + s.r16 6
  | .bpDi => s.r16 5 + s.r16 7
  | .si => s.r16 6
  | .di => s.r16 7
  | .bp => s.r16 5
  | .bx => s.r16 3
  | .abs => 0

/-- The scale as a factor (R113). -/
def Scale.factor : Scale → Nat
  | .x1 => 1
  | .x2 => 2
  | .x4 => 4
  | .x8 => 8

/-- A base register at 32 bits, register 4 after a POP of `n` (R113, R158). -/
def State.base32 (s : State) (n : Size) (b : GprNum) : BitVec 32 :=
  if b = 4 then s.r32 4 + BitVec.ofNat 32 n.bytes else s.r32 b

/-- A base register at 64 bits, register 4 after a POP of `n` (R114, R158). -/
def State.base64 (s : State) (n : Size) (b : GprNum) : BitVec 64 :=
  if b = 4 then s.r64 4 + BitVec.ofNat 64 n.bytes else s.r64 b

/-- An index register at 32 bits, none counting 0 (R113). -/
def State.index32 (s : State) : Option GprNum → BitVec 32
  | none => 0
  | some i => s.r32 i

/-- An index register at 64 bits, none counting 0 (R114). -/
def State.index64 (s : State) : Option GprNum → BitVec 64
  | none => 0
  | some i => s.r64 i

end Sys2Proof.Machine

section Statements

open Sys2Proof Sys2Proof.Machine

/-! ### Reset, encoding, fetch -/

/-- The reset values that the table of 10_state.md section 7 lists for the family (PRESUMED, log 1: the spec marks them general
knowledge, so this is the model's choice). Register 2, for which the table names no number, is left out, and nothing is said
of bits 63:32 and of registers 8 to 15, Real mode showing neither. -/
def Obligations.ResetHoldsFamilyValues : Prop :=
  State.reset.mode = .real ∧ State.reset.pc = 0xFFF0 ∧ State.reset.cpl = 0 ∧ State.reset.rflags = 2 ∧
    (∀ i : GprNum, i.val < 8 → i ≠ 2 → State.reset.r32 i = 0) ∧
    (State.reset.sreg .cs).sel = 0xF000 ∧ (State.reset.sreg .cs).hid.base = 0xFFFF0000 ∧
    (State.reset.sreg .cs).hid.limit = 0xFFFF ∧ (State.reset.sreg .cs).hid.present = true ∧
    (∃ c, (State.reset.sreg .cs).hid.kind = .code true c) ∧
    (∀ sg, sg ≠ .cs → (State.reset.sreg sg).sel = 0 ∧ (State.reset.sreg sg).hid.base = 0 ∧
      (State.reset.sreg sg).hid.limit = 0xFFFF ∧ (State.reset.sreg sg).hid.present = true ∧
      (∃ x, (State.reset.sreg sg).hid.kind = .data true x) ∧ (State.reset.sreg sg).hid.db = false) ∧
    State.reset.gdtr = ⟨0, 0xFFFF⟩ ∧ State.reset.ldtr.sel = 0 ∧ State.reset.ldtr.base = 0 ∧
    State.reset.ldtr.limit = 0xFFFF ∧ State.reset.acEnable = false ∧ State.reset.inhibit = false

/-- What the table leaves out and the model chooses: register 2 is 0, no segment is conforming, expand-down or a
64-bit one, each has DPL 0 and is usable, CS has D = 0, the LDTR is usable (log 2), and memory lists no byte, each byte reading 0
(log 3). -/
def Obligations.ResetHoldsTheModelsChoices : Prop :=
  State.reset.r32 2 = 0 ∧ (State.reset.sreg .cs).hid.kind = .code true false ∧ (State.reset.sreg .cs).hid.db = false ∧
    (∀ sg, sg ≠ .cs → (State.reset.sreg sg).hid.kind = .data true false) ∧
    (∀ sg, (State.reset.sreg sg).hid.dpl = 0 ∧ (State.reset.sreg sg).hid.usable = true ∧
      (State.reset.sreg sg).hid.l = false) ∧
    State.reset.ldtr.usable = true ∧ State.reset.afterPopSs = false ∧ State.reset.written = [] ∧
    State.reset.fetched = [] ∧ State.reset.mem = [] ∧ ∀ a, State.reset.mem.read a = 0

/-- A machine starts with the spec's default for each parameter: 48 linear-address bits, WrapEA16 and DataSegPriv refusing, the
operand's bytes read by a POP to a segment register, the fixed order of faults, any value hidden after a NULL load (R10 to R12,
R14, R310), Translate the identity (R13) and no interrupt offered (R15). -/
def Obligations.LaunchDefaults : Prop :=
  State.reset.params.linAddrBits = .w48 ∧ State.reset.params.wrapEA16 = .refuse ∧
    State.reset.params.sregPopReadBytes = .operand ∧ State.reset.params.faultOrder = .fixed ∧
    State.reset.params.nullLoadHidden = none ∧ State.reset.params.dataSegPriv = .refuse ∧
    State.reset.offers = [] ∧
    ∀ acc cpl lin, ({ State.reset with mode := .protected_ } : State).translate acc cpl lin = .ok lin.toNat

/-- Nine words written out from the encodings of 30_encoding.md decode to the instructions they stand for: `58+r`, `8F /0` with a
SIB byte and RIP-relative, `1F`, `0F A1`, `0F A9` with 66 in Real mode and in Long64, `58+r` in Long64 with REX.B, and with both
66 and REX.W, which takes precedence. -/
def Obligations.WordsDecodeToTheirInstructions : Prop :=
  decode ⟨.protected_, true⟩ [0x5B#8] = .ok (.popR32 ⟨[], none⟩ 3, []) ∧
    decode ⟨.protected_, true⟩ [0x8F#8, 0x44#8, 0x24#8, 0x04#8] =
      .ok (.popRm32 ⟨[], none⟩ (.mem (.sib .x1 none (some 4) (.d8 4))), []) ∧
    decode ⟨.real, false⟩ [0x1F#8] = .ok (.popDs ⟨[], none⟩, []) ∧
    decode ⟨.real, false⟩ [0x66#8, 0x0F#8, 0xA9#8] = .ok (.popGs32 ⟨[.opSize], none⟩, []) ∧
    decode ⟨.long64, false⟩ [0x41#8, 0x5F#8] = .ok (.popR64 ⟨[], some ⟨false, false, false, true⟩⟩ 15, []) ∧
    decode ⟨.long64, false⟩ [0x66#8, 0x0F#8, 0xA9#8] = .ok (.popGs16 ⟨[.opSize], none⟩, []) ∧
    decode ⟨.long64, false⟩ [0x66#8, 0x48#8, 0x58#8] =
      .ok (.popR64 ⟨[.opSize], some ⟨true, false, false, false⟩⟩ 0, []) ∧
    decode ⟨.long64, false⟩ [0x0F#8, 0xA1#8] = .ok (.popFs64 ⟨[], none⟩, []) ∧
    decode ⟨.long64, false⟩ [0x8F#8, 0x05#8, 0x12#8, 0#8, 0#8, 0#8] =
      .ok (.popRm64 ⟨[], none⟩ (.mem (.ripRel 0x12)), [])

/-- A step whose fetched bytes decode to an instruction ends as `exec` of it does, in the state with the boundary's offer past and
the instruction's bytes among the executed ones. It has no meaning where the run wrote a byte of the instruction, nor where, once
the instruction completes, a byte the run wrote is one it executed. The bytes fetched are those from pc on, each as
`StepRunsTheEncodedInstruction` says, up to the first that cannot be fetched (R15, R29, R74, R88, R125, logs 15 to 17). -/
def Obligations.StepRunsTheDecodedInstruction : Prop :=
  ∀ (s : State),
    (∀ n k c, (s.fetchFrom n 0).1[k]? = some c ↔
      k < n ∧ s.fetchByte k = .ok c ∧ ∀ j, j < k → ∃ b, s.fetchByte j = .ok b) ∧
    (∀ len, s.enter len = { s with offers := s.offers.tail, fetched := (s.enter len).fetched } ∧
      ∀ a, a ∈ (s.enter len).fetched ↔
        (∃ c ∈ (s.fetchFrom maxInstrLength 0).1.take len, c.1 = a) ∨ a ∈ s.fetched) ∧
    ∀ i rest, s.interruptDue = false →
      decode s.ctx ((s.fetchFrom maxInstrLength 0).1.map Prod.snd) = .ok (i, rest) →
      ((∃ c ∈ (s.fetchFrom maxInstrLength 0).1.take i.length, c.1 ∈ s.written) → step s = .refused .fetchModified) ∧
      ((∀ c ∈ (s.fetchFrom maxInstrLength 0).1.take i.length, c.1 ∉ s.written) →
        (∀ t, exec i (s.enter i.length) = .next t →
          ((∃ a ∈ t.written, a ∈ (s.enter i.length).fetched) → step s = .refused .codeWritten) ∧
          ((∀ a ∈ t.written, a ∉ (s.enter i.length).fetched) → step s = .next t)) ∧
        (∀ f, exec i (s.enter i.length) = .fault f → step s = .fault f) ∧
        ∀ r, exec i (s.enter i.length) = .refused r → step s = .refused r)

/-- Instruction byte `k` is the byte of memory at offset pc + `k` of the code segment: outside Long64 the low 32 bits of pc count,
the offset must be within the CS limit and the linear address is the CS base and the offset added modulo 2^32; in Long64 the
linear address is pc + `k` and must be canonical. It is translated as a read at CPL and must exist (R29, R64, R65, R74, R78, R83,
R256, log 16). The encoded bytes of a well-formed instruction standing there, not written by the run, make the step `exec` of it,
whatever bytes follow and whether they can be fetched or not; `StepRunsTheDecodedInstruction` says what stands around `exec`. -/
def Obligations.StepRunsTheEncodedInstruction : Prop :=
  (∀ (s : State) (k a : Nat) (b : Byte), k < 12 → (s.fetchByte k = .ok (a, b) ↔
    (s.mode = .long64 →
      TopBitsEqual (match s.params.linAddrBits with | .w48 => 48 | .w57 => 57) (s.pc + BitVec.ofNat 64 k) ∧
        s.translate .read s.cpl (s.pc + BitVec.ofNat 64 k) = .ok a) ∧
    (s.mode ≠ .long64 →
      s.pc.toNat % 2 ^ 32 + k ≤ (s.sreg .cs).hid.limit.toNat ∧
        s.translate .read s.cpl
          (BitVec.ofNat 64 (((s.sreg .cs).hid.base.toNat + s.pc.toNat % 2 ^ 32 + k) % 2 ^ 32)) = .ok a) ∧
    s.inPhysMem a = true ∧ b = s.mem.read a)) ∧
  ∀ (s : State) (i : Instr), s.interruptDue = false → i.wf s.ctx = true →
    (∀ k b, (encode i)[k]? = some b → ∃ a, s.fetchByte k = .ok (a, b) ∧ a ∉ s.written) →
    step s = sparingCode (exec i (s.enter i.length))

/-- At a boundary an offered interrupt is delivered, which the spec describes no further, exactly when `inhibit` is 0 and, for a
maskable one, IF is 1; otherwise the instruction at pc runs or has no meaning for a reason of its own (R45, R260; IF being bit
9 is PRESUMED, log 15). -/
def Obligations.InterruptsAtTheBoundary : Prop :=
  ∀ (s : State) (o : InterruptOffer) (os : List InterruptOffer), s.offers = o :: os →
    (s.inhibit = false → o = .nonMaskable → step s = .refused .interruptDelivered) ∧
    (s.inhibit = false → o = .maskable → s.rflags.getLsbD 9 = true → step s = .refused .interruptDelivered) ∧
    ((s.inhibit = true ∨ o = .quiet ∨ (o = .maskable ∧ s.rflags.getLsbD 9 = false)) →
      step s ≠ .refused .interruptDelivered)

/-- Decoding the bytes of a well-formed instruction gives it back, whatever bytes follow: every prefix order, operand form,
register number, scale and displacement. -/
def Obligations.DecodeInvertsEncode : Prop :=
  ∀ (c : CodeContext) (i : Instr) (rest : List Byte), i.wf c = true → decode c (encode i ++ rest) = .ok (i, rest)

/-- What the decoder accepts is a well-formed instruction of the mode, and its bytes are exactly those the encoder writes. -/
def Obligations.EncodeInvertsDecode : Prop :=
  ∀ (c : CodeContext) (bs : List Byte) (i : Instr) (rest : List Byte), decode c bs = .ok (i, rest) →
    i.wf c = true ∧ bs = encode i ++ rest

/-- An instruction takes 1 to 12 bytes, and its length is the number of bytes it is encoded in (R100, R103, R126). -/
def Obligations.LengthIsOneToTwelve : Prop :=
  ∀ (c : CodeContext) (i : Instr), i.wf c = true →
    (encode i).length = i.length ∧ 1 ≤ i.length ∧ i.length ≤ 12

/-- R123: the stack-address size and the operand size of an instruction are one of the six pairs the Operation section lists, and
each of the six occurs. Besides, no 32-bit row is an instruction of Long64, no 64-bit row one of the other modes. -/
def Obligations.SixSizePairs : Prop :=
  (∀ (s : State) (i : Instr), i.wf s.ctx = true →
    (s.stackAddrSize, s.ctx.operandSize i.prefixes) ∈
      [(Size.s32, Size.s32), (.s32, .s16), (.s64, .s64), (.s64, .s16), (.s16, .s16), (.s16, .s32)] ∧
    (s.mode = .long64 → i.rowSize ≠ some .s32) ∧ (s.mode ≠ .long64 → i.rowSize ≠ some .s64)) ∧
  ∀ p ∈ [(Size.s32, Size.s32), (.s32, .s16), (.s64, .s64), (.s64, .s16), (.s16, .s16), (.s16, .s32)],
    ∃ (s : State) (i : Instr), i.wf s.ctx = true ∧ (s.stackAddrSize, s.ctx.operandSize i.prefixes) = p

/-- The three sizes from the flags and the prefixes: outside Long64 the D flag of CS gives the default of operand and address
size and 66 and 67 select the other one, the B flag of SS gives the stack-address size; in Long64 the operand size is 64, 16
with 66 and without REX.W, the address size 64, 32 with 67, the stack-address size 64. The stack pointer is register 4 at
the stack-address size, and the 16- and 32-bit views of a register are its low bits (R22, R25, R120 to R122; that a flag of 1
is 32 bits is decision D6, REX.W over 66 decision D7). -/
def Obligations.SizesFollowFlagsAndPrefixes : Prop :=
  ∀ (s : State) (p : Prefixes),
    (s.mode ≠ .long64 →
      s.stackAddrSize.bits = sizeOfFlag (s.sreg .ss).hid.db ∧
      (s.ctx.operandSize p).bits =
        (if LegacyPrefix.opSize ∈ p.legacy then 48 - sizeOfFlag (s.sreg .cs).hid.db
          else sizeOfFlag (s.sreg .cs).hid.db) ∧
      (s.ctx.addressSize p).bits =
        (if LegacyPrefix.addrSize ∈ p.legacy then 48 - sizeOfFlag (s.sreg .cs).hid.db
          else sizeOfFlag (s.sreg .cs).hid.db)) ∧
    (s.mode = .long64 →
      s.stackAddrSize.bits = 64 ∧
      (s.ctx.operandSize p).bits =
        (if ∃ r, p.rex = some r ∧ r.w = true then 64 else if LegacyPrefix.opSize ∈ p.legacy then 16 else 64) ∧
      (s.ctx.addressSize p).bits = (if LegacyPrefix.addrSize ∈ p.legacy then 32 else 64)) ∧
    s.sp.toNat = (s.r64 4).toNat % 2 ^ s.stackAddrSize.bits ∧
    ∀ i, s.Shows i → (s.r32 i).toNat = (s.r64 i).toNat % 2 ^ 32 ∧ (s.r16 i).toNat = (s.r64 i).toNat % 2 ^ 16

/-! ### Memory and the access checks -/

/-- Byte `k` of a value read or stored, its bits 8k+7 down to 8k, is the `k`-th byte in memory, the least significant byte at the
lowest address: a value read is the little-endian number of its bytes, and the bytes a store leaves at distinct addresses stand
for the value's low bits (R62, whose byte order is decision D1). -/
def Obligations.BytesAreLittleEndian : Prop :=
  (∀ (bs : List Byte), bs.length ≤ 8 → (leValue bs).toNat = littleEndian bs) ∧
    ∀ (s t : State) (as : List Nat) (v : Word), s.mem.wf = true → as.Nodup → as.length ≤ 8 →
      s.storeBytes as v = .ok t → littleEndian (as.map t.mem.read) = v.toNat % 2 ^ (8 * as.length)

/-- The linear address of byte `k` of an access: outside Long64 the segment's base, the offset and `k` added modulo 2^32; in
Long64 the base of FS or GS, or 0 for the other segments, the offset and `k` added modulo 2^64. An access of `n` bytes is at
the linear addresses of its bytes 0 to n - 1. In Real mode linear addresses are physical ones (R64, R65, R79). -/
def Obligations.LinearAddresses : Prop :=
  ∀ (s : State) (sg : SegName) (off : Word),
    (s.mode ≠ .long64 → ∀ k, (s.linear sg off k).toNat = ((s.sreg sg).hid.base.toNat + off.toNat + k) % 2 ^ 32) ∧
    (s.mode = .long64 → ∀ k, (s.linear sg off k).toNat =
      ((match sg with
        | .fs => (s.sreg .fs).hid.base.toNat
        | .gs => (s.sreg .gs).hid.base.toNat
        | .es | .cs | .ss | .ds => 0) + off.toNat + k) % 2 ^ 64) ∧
    (∀ n, (s.linears sg off n).length = n ∧ ∀ k, k < n → (s.linears sg off n)[k]? = some (s.linear sg off k)) ∧
    (s.mode = .real → ∀ acc cpl lin, s.translate acc cpl lin = .ok lin.toNat)

/-- A byte just written reads back, and every other byte is as before, in memory of canonical form, which the write keeps (R61,
R62). -/
def Obligations.MemoryReadAfterWrite : Prop :=
  ∀ (m : Memory) (a : Nat) (v : Byte), m.wf = true →
    Memory.read (Memory.write m a v) a = v ∧ (∀ b, b ≠ a → Memory.read (Memory.write m a v) b = Memory.read m b) ∧
      Memory.wf (Memory.write m a v) = true

/-- Outside Long64 an access passes the segment test exactly when each of its byte offsets, counted without wrap, lies in the
segment, and in Protected and Compat mode the register is not NULL-loaded and the kind of segment admits the access (R66 to
R68). -/
def Obligations.SegmentTestIsByteWise : Prop :=
  ∀ (s : State) (acc : Access) (sg : SegName) (off : Word) (n : Nat), s.mode ≠ .long64 → 0 < n →
    (s.segTest acc sg off n = true ↔
      (∀ k, k < n → InsideByte (s.sreg sg).hid (off.toNat + k)) ∧
        (s.ProtectedOrCompat →
          ((sg = .ss ∨ sg = .cs ∨ (s.sreg sg).hid.usable = true) ∧
            match acc with
            | .read => (∃ w e, (s.sreg sg).hid.kind = .data w e) ∨ (∃ c, (s.sreg sg).hid.kind = .code true c)
            | .write => ∃ e, (s.sreg sg).hid.kind = .data true e)))

/-- In Long64 an access passes exactly when the top bits of every byte's linear address are equal, at 48 or 57 bits, and no
limit, kind or NULL test is made (R65, R78). -/
def Obligations.CanonicalTestInLong64 : Prop :=
  ∀ (s : State) (acc : Access) (sg : SegName) (off : Word) (n : Nat), s.mode = .long64 →
    (s.segTest acc sg off n = true ↔
      ∀ k, k < n →
        TopBitsEqual (match s.params.linAddrBits with | .w48 => 48 | .w57 => 57)
          ((match sg with
            | .fs => (s.sreg .fs).hid.base
            | .gs => (s.sreg .gs).hid.base
            | .es | .cs | .ss | .ds => 0) + off + BitVec.ofNat 64 k))

/-- A stack read that fails: outside the stack segment, or non-canonical in Long64, it is the stack fault; unaligned, #AC(0);
on a page that faults, #PF with the code and the first faulting address; in that order, under the spec's default order of
faults. If the read faults nowhere but a byte is at a physical address that does not exist, the instruction has no meaning under
any order, and the refusal names the first such address (R70, R72, R73, R83, R256, R258, logs 13 and 30). -/
def Obligations.StackReadFaults : Prop :=
  ∀ (s : State) (i : Instr), s.Starts i →
    (s.params.faultOrder = .fixed →
      (s.segTest .read .ss s.sp (s.stackBytes i) = false → Raises (exec i s) (.ss s.zeroCode)) ∧
      (s.segTest .read .ss s.sp (s.stackBytes i) = true → s.Unaligned (s.linear .ss s.sp 0) (s.stackBytes i) →
        Raises (exec i s) .ac) ∧
      (∀ l code, s.segTest .read .ss s.sp (s.stackBytes i) = true →
        ¬ s.Unaligned (s.linear .ss s.sp 0) (s.stackBytes i) →
        s.FirstFault .read (s.linears .ss s.sp (s.stackBytes i)) l code → Raises (exec i s) (.pf code l))) ∧
    (∀ as a, s.segTest .read .ss s.sp (s.stackBytes i) = true →
      ¬ s.Unaligned (s.linear .ss s.sp 0) (s.stackBytes i) →
      (s.linears .ss s.sp (s.stackBytes i)).map (s.translate .read s.cpl) = as.map Except.ok → s.FirstOutside as a →
      exec i s = .refused (.outsidePhysMem a))

/-- A destination write that fails after a stack read that succeeds: the stack fault for SS and #GP for the other segments where
the segment test fails, then #AC(0), then #PF, under the spec's default order of faults; if nothing faults but a byte is at a
physical address that does not exist, the instruction has no meaning under any order (R71, R73, R83, R242, R244, R256, R258, logs 13 and 30). -/
def Obligations.DestinationWriteFaults : Prop :=
  ∀ (s : State) (i : Instr) (n : Size) (m : MemOperand) (v off : Word), PopsMemory i n m → s.Starts i →
    s.Popped n.bytes v → s.destOffset i.prefixes n m i.length = .ok off →
    (s.params.faultOrder = .fixed →
      (s.segTest .write (segmentOf s.mode i.prefixes m) off n.bytes = false →
        Raises (exec i s)
          (if segmentOf s.mode i.prefixes m = .ss then .ss s.zeroCode else .gp s.zeroCode)) ∧
      (s.segTest .write (segmentOf s.mode i.prefixes m) off n.bytes = true →
        s.Unaligned (s.linear (segmentOf s.mode i.prefixes m) off 0) n.bytes → Raises (exec i s) .ac) ∧
      (∀ l code, s.segTest .write (segmentOf s.mode i.prefixes m) off n.bytes = true →
        ¬ s.Unaligned (s.linear (segmentOf s.mode i.prefixes m) off 0) n.bytes →
        s.FirstFault .write (s.linears (segmentOf s.mode i.prefixes m) off n.bytes) l code →
        Raises (exec i s) (.pf code l))) ∧
    (∀ as a, s.segTest .write (segmentOf s.mode i.prefixes m) off n.bytes = true →
      ¬ s.Unaligned (s.linear (segmentOf s.mode i.prefixes m) off 0) n.bytes →
      (s.linears (segmentOf s.mode i.prefixes m) off n.bytes).map (s.translate .write s.cpl) = as.map Except.ok →
      s.FirstOutside as a → exec i s = .refused (.outsidePhysMem a))

/-- Under `FaultOrder.either`, an unaligned stack read on a page that faults is reported as #AC(0) or as #PF (R258, log 13;
register and segment-register destinations, whose only access to data memory is the read). -/
def Obligations.EitherFaultIsReported : Prop :=
  ∀ (s : State) (i : Instr) (l : Word) (code : BitVec 32), s.Starts i → (∀ n m, ¬ PopsMemory i n m) →
    s.params.faultOrder = .either →
    s.segTest .read .ss s.sp (s.stackBytes i) = true →
    s.Unaligned (s.linear .ss s.sp 0) (s.stackBytes i) →
    s.FirstFault .read (s.linears .ss s.sp (s.stackBytes i)) l code →
    Raises (exec i s) .ac ∨ Raises (exec i s) (.pf code l)

/-- Under `FaultOrder.either`, a POP to memory that gives cause for several faults reports one of them: where the stack read
does, a fault of the read or of the destination write; where the stack read succeeds, one of the write; where only the stack
read does, one of the read (R256, R258, log 13). -/
def Obligations.EitherFaultOfMemoryForms : Prop :=
  ∀ (s : State) (i : Instr) (n : Size) (m : MemOperand), PopsMemory i n m → s.Starts i →
    s.params.faultOrder = .either →
    ((∃ e, s.AccessRaises .read .ss s.sp n.bytes e) →
      ∃ e, (s.AccessRaises .read .ss s.sp n.bytes e ∨ s.DestinationRaises i n m e) ∧ Raises (exec i s) e) ∧
    ((∃ v, s.Popped n.bytes v) → (∃ e, s.DestinationRaises i n m e) →
      ∃ e, s.DestinationRaises i n m e ∧ Raises (exec i s) e) ∧
    ((∃ e, s.AccessRaises .read .ss s.sp n.bytes e) → (∀ e, ¬ s.DestinationRaises i n m e) →
      ∃ e, s.AccessRaises .read .ss s.sp n.bytes e ∧ Raises (exec i s) e)

/-- R225: a POP to memory through DS, ES, FS or GS that holds a NULL selector, in the modes where that disables it, raises
#GP(0). The outcome is a fault, so it makes no memory reference and changes no register. -/
def Obligations.NullSegmentDestinationRaisesGp : Prop :=
  ∀ (s : State) (i : Instr) (n : Size) (m : MemOperand) (v off : Word), PopsMemory i n m → s.Starts i →
    s.ProtectedOrCompat → s.Popped n.bytes v → s.destOffset i.prefixes n m i.length = .ok off →
    segmentOf s.mode i.prefixes m ≠ .ss → segmentOf s.mode i.prefixes m ≠ .cs →
    isNull (s.sreg (segmentOf s.mode i.prefixes m)).sel = true →
    (s.sreg (segmentOf s.mode i.prefixes m)).hid.usable = false →
    Raises (exec i s) (.gp (some 0))

/-! ### The effective address -/

/-- A 16-bit address is the 16-bit sum of the table's registers and the displacement (R112). -/
def Obligations.EffectiveAddress16 : Prop :=
  ∀ (s : State) (p : Prefixes) (n : Size) (f : Addr16) (d : Disp) (len : Nat), s.ctx.addressSize p = .s16 →
    s.destOffset p n (.addr16 f d) len = .ok ((s.sum16 f + disp16 d).setWidth 64)

/-- With 32-bit addressing the offset is the 32-bit sum of base, scaled index and displacement, a base of register 4 counting
as incremented by the POP. Registers 8 to 15 take part in Long64 only. The case in which that increment wraps a 16-bit stack
pointer is `WrappedStackPointerBase` (R113, R115, R158, R24). -/
def Obligations.EffectiveAddress32 : Prop :=
  ∀ (s : State) (p : Prefixes) (n : Size) (len : Nat), s.ctx.addressSize p = .s32 →
    (∀ d, s.destOffset p n (.abs32 d) len = .ok (d.setWidth 64)) ∧
    (∀ d, s.destOffset p n (.ripRel d) len =
      .ok (((s.pc + BitVec.ofNat 64 len).setWidth 32 + d).setWidth 64)) ∧
    (∀ b d, s.Shows b → (b = 4 → s.spWraps n = false) →
      s.destOffset p n (.base b d) len = .ok ((s.base32 n b + disp32 d).setWidth 64)) ∧
    (∀ c x b d, s.Shows b → s.ShowsIndex x → (b = 4 → s.spWraps n = false) → x ≠ some 4 →
      s.destOffset p n (.sib c x (some b) d) len =
        .ok ((s.base32 n b + s.index32 x * BitVec.ofNat 32 (Scale.factor c) + disp32 d).setWidth 64)) ∧
    (∀ c x d, s.ShowsIndex x → x ≠ some 4 → s.destOffset p n (.sib c x none d) len =
      .ok ((s.index32 x * BitVec.ofNat 32 (Scale.factor c) + disp32 d).setWidth 64))

/-- The same at 64 bits, with the RIP-relative form counted from the next instruction (R114, R115, R158). -/
def Obligations.EffectiveAddress64 : Prop :=
  ∀ (s : State) (p : Prefixes) (n : Size) (len : Nat), s.ctx.addressSize p = .s64 →
    (∀ d, s.destOffset p n (.ripRel d) len = .ok (s.pc + BitVec.ofNat 64 len + d.signExtend 64)) ∧
    (∀ b d, s.destOffset p n (.base b d) len = .ok (s.base64 n b + disp64 d)) ∧
    (∀ c x b d, x ≠ some 4 → s.destOffset p n (.sib c x (some b) d) len =
      .ok (s.base64 n b + s.index64 x * BitVec.ofNat 64 (Scale.factor c) + disp64 d)) ∧
    (∀ c x d, x ≠ some 4 → s.destOffset p n (.sib c x none d) len =
      .ok (s.index64 x * BitVec.ofNat 64 (Scale.factor c) + disp64 d))

/-- Where a 16-bit stack pointer wraps and register 4 is the base, the parameter WrapEA16 says what the base is: no meaning,
the carry into bit 16, the wrapped pointer, or a free base (R159; the free base is the model's choice, log 7). -/
def Obligations.WrappedStackPointerBase : Prop :=
  ∀ (s : State) (p : Prefixes) (n : Size) (c : Scale) (x : Option GprNum) (d : Disp) (len : Nat),
    s.ctx.addressSize p = .s32 → s.spWraps n = true → s.ShowsIndex x → x ≠ some 4 →
    (s.params.wrapEA16 = .refuse →
      s.destOffset p n (.sib c x (some 4) d) len = .error (.refused .wrapEA16)) ∧
    (s.params.wrapEA16 = .carry →
      s.destOffset p n (.sib c x (some 4) d) len =
        .ok ((s.r32 4 + BitVec.ofNat 32 n.bytes + s.index32 x * BitVec.ofNat 32 (Scale.factor c) + disp32 d).setWidth 64)) ∧
    (s.params.wrapEA16 = .wrap →
      s.destOffset p n (.sib c x (some 4) d) len =
        .ok ((((s.r32 4).extractLsb' 16 16 ++ (s.r16 4 + BitVec.ofNat 16 n.bytes) : BitVec 32) +
          s.index32 x * BitVec.ofNat 32 (Scale.factor c) + disp32 d).setWidth 64)) ∧
    (s.params.wrapEA16 = .anyBase →
      ∃ base : BitVec 32, s.destOffset p n (.sib c x (some 4) d) len =
        .ok ((base + s.index32 x * BitVec.ofNat 32 (Scale.factor c) + disp32 d).setWidth 64))

/-- The segment of a memory destination: SS for a base of register 4 or 5 and for the BP forms, DS otherwise; an override
replaces it, in Long64 only one of FS or GS (R112, R113, R115, R116). -/
def Obligations.DestinationSegment : Prop :=
  ∀ (mode : Mode) (p : Prefixes),
    (p.segOverride = none →
      (∀ d, segmentOf mode p (.addr16 .bpSi d) = .ss ∧ segmentOf mode p (.addr16 .bpDi d) = .ss ∧
        segmentOf mode p (.addr16 .bp d) = .ss) ∧
      (∀ f d, f ≠ .bpSi → f ≠ .bpDi → f ≠ .bp → segmentOf mode p (.addr16 f d) = .ds) ∧
      (∀ d, segmentOf mode p (.abs32 d) = .ds ∧ segmentOf mode p (.ripRel d) = .ds) ∧
      (∀ b d, segmentOf mode p (.base b d) = if b.val = 4 ∨ b.val = 5 then .ss else .ds) ∧
      (∀ c x b d, segmentOf mode p (.sib c x (some b) d) = if b.val = 4 ∨ b.val = 5 then .ss else .ds) ∧
      (∀ c x d, segmentOf mode p (.sib c x none d) = .ds)) ∧
    (∀ o m, p.segOverride = some o → (mode ≠ .long64 ∨ o = .fs ∨ o = .gs) → segmentOf mode p m = o) ∧
    (∀ o m, p.segOverride = some o → mode = .long64 → o ≠ .fs → o ≠ .gs →
      segmentOf mode p m = segmentOf mode ⟨[], p.rex⟩ m)

/-! ### POP to a general register and to memory -/

/-- POP r16 and its second encoding complete: the register's low 16 bits are the word popped and its other bits are unchanged,
the stack pointer goes up by 2, pc passes the instruction, nothing else changes. Outside Long64 that says nothing of bits 63:32
and of registers 8 to 15 (R151, R154, R150, R161, R162, R24). -/
def Obligations.PopRegister16Completes : Prop :=
  ∀ (s : State) (i : Instr) (d : GprNum) (v : Word), PopsRegister i .s16 d → s.Ready i → s.Popped 2 v →
    ∃ t, exec i s = .next t ∧ t = { s.retired i.length false false with regs := t.regs } ∧
      (t.r16 d).setWidth 64 = v ∧
      (d ≠ 4 → s.KeptAbove16 t d ∧ s.SpMoved t 2) ∧
      ∀ j, j ≠ d → j ≠ 4 → s.Kept t j

/-- POP r32 and its second encoding complete: bits 31:0 of the register are the doubleword popped, the stack pointer goes up by
4, pc passes the instruction, nothing else changes. These forms exist outside Long64 only, so nothing is said of bits 63:32 and
of registers 8 to 15 (R152, R155, R24, log 10). -/
def Obligations.PopRegister32Completes : Prop :=
  ∀ (s : State) (i : Instr) (d : GprNum) (v : Word), PopsRegister i .s32 d → s.Ready i → s.Popped 4 v →
    ∃ t, exec i s = .next t ∧ t = { s.retired i.length false false with regs := t.regs } ∧
      (t.r32 d).setWidth 64 = v ∧ (d ≠ 4 → s.SpMoved t 4) ∧
      ∀ j, j ≠ d → j ≠ 4 → s.Kept t j

/-- POP r64 and its second encoding complete: the register is the quadword popped, RSP goes up by 8, pc passes the instruction,
nothing else changes (R153, R156). -/
def Obligations.PopRegister64Completes : Prop :=
  ∀ (s : State) (i : Instr) (d : GprNum) (v : Word), PopsRegister i .s64 d → s.Ready i → s.Popped 8 v →
    ∃ t, exec i s = .next t ∧ t = { s.retired i.length false false with regs := t.regs } ∧
      t.r64 d = v ∧ (d ≠ 4 → t.r64 4 = s.r64 4 + 8) ∧
      ∀ j, j ≠ d → j ≠ 4 → t.r64 j = s.r64 j

/-- POP into the stack pointer: the value popped is written last, over the incremented pointer, in the bits the operand size
covers; of a wider pointer the other bits are those of the incremented one. The six rows of the table of R157, of which the
spec marks those for SP and RSP as derived. -/
def Obligations.PopIntoTheStackPointer : Prop :=
  ∀ (s : State) (i : Instr) (n : Size) (v : Word), PopsRegister i n 4 → s.Ready i → s.Popped n.bytes v →
    ∃ t, exec i s = .next t ∧
      match n, s.stackAddrSize with
      | .s32, _ => (t.r32 4).setWidth 64 = v
      | .s64, _ => t.r64 4 = v
      | .s16, .s16 => t.r32 4 = (s.r32 4).extractLsb' 16 16 ++ v.setWidth 16
      | .s16, .s32 => t.r32 4 = (s.r32 4 + 2).extractLsb' 16 16 ++ v.setWidth 16
      | .s16, .s64 => t.r64 4 = (s.r64 4 + 2).extractLsb' 16 48 ++ v.setWidth 16

/-- `8F C0+r` does what `58+r` does, but for its length: where it completes `58+r` completes with the same registers, and where
`58+r` completes and pc past the longer one stays in bounds, it completes; the one raises a fault exactly where the other does,
the same fault under the spec's default order of faults (R111, R24, log 13). -/
def Obligations.TwoEncodingsOneMeaning : Prop :=
  ∀ (i j : Instr) (s : State), SecondEncoding i j →
    (∀ t, exec i s = .next t → ∃ u, exec j s = .next u ∧ s.SeenAlike { t with pc := t.pc - 1 } u) ∧
    (∀ u, exec j s = .next u → s.nextPcFits i.length = true →
      ∃ t, exec i s = .next t ∧ s.SeenAlike { u with pc := u.pc + 1 } t) ∧
    ((∃ f, exec i s = .fault f) ↔ ∃ f, exec j s = .fault f) ∧
    (s.params.faultOrder = .fixed → ∀ f, exec i s = .fault f ↔ exec j s = .fault f)

/-- POP to memory completes at each operand size: the bytes at the destination are the value popped, read before anything is
written, the stack pointer goes up by the operand size, pc passes the instruction, every other byte is as before, and
so is every other register as far as the mode shows it (R151 to R153, R158, R164, R71, R24). -/
def Obligations.PopMemoryCompletes : Prop :=
  ∀ (s : State) (i : Instr) (n : Size) (m : MemOperand) (v off : Word) (as : List Nat), PopsMemory i n m →
    s.Ready i → s.Popped n.bytes v → s.destOffset i.prefixes n m i.length = .ok off →
    s.Reaches .write (segmentOf s.mode i.prefixes m) off n.bytes as →
    ∃ t, exec i s = .next t ∧
      t = { s.retired i.length false false with regs := t.regs, mem := t.mem, written := t.written } ∧
      s.SpMoved t n.bytes ∧ (∀ j, j ≠ 4 → s.Kept t j) ∧
      (s.mem.wf = true → as.Nodup → leValue (as.map t.mem.read) = v) ∧
      ∀ a, a ∉ as → t.mem.read a = s.mem.read a

/-- What a POP into a general register leaves unchanged: every byte of memory, every segment register, the flags and the control
state, every general register but the destination and the stack pointer, as far as the mode shows them (R24). -/
def Obligations.FrameOfRegisterForms : Prop :=
  ∀ (s t : State) (i : Instr) (n : Size) (d : GprNum), PopsRegister i n d → exec i s = .next t →
    t = { s with regs := t.regs, pc := t.pc, inhibit := false, afterPopSs := false, draws := t.draws } ∧
      (∀ a, t.mem.read a = s.mem.read a) ∧ ∀ j, j ≠ d → j ≠ 4 → s.Kept t j

/-- What a POP into memory leaves unchanged: every byte but those at the addresses the destination operand stands for, computed
as the meaning computes them, every segment register, the flags and the control state, every general register but the stack
pointer, as far as the mode shows them (R24). -/
def Obligations.FrameOfMemoryForms : Prop :=
  ∀ (s t : State) (i : Instr) (n : Size) (m : MemOperand), PopsMemory i n m → exec i s = .next t →
    t = { s with regs := t.regs, pc := t.pc, mem := t.mem, written := t.written,
                 inhibit := false, afterPopSs := false, draws := t.draws } ∧
      (∀ as, s.destAddrs i.prefixes n m i.length = .ok as → as.length = n.bytes ∧
        ∀ a, a ∉ as → t.mem.read a = s.mem.read a) ∧
      ∀ j, j ≠ 4 → s.Kept t j

/-- What a POP into a segment register leaves unchanged: every general register but the stack pointer, as far as the mode shows
them (R24), every other segment register, the flags and the control state, and every byte of memory but the one that
holds the descriptor's accessed bit, which in Real and V8086 mode, and for a NULL selector, is none. -/
def Obligations.FrameOfSegmentForms : Prop :=
  ∀ (s t : State) (i : Instr) (sg : SegName), PopsSegment i sg → exec i s = .next t →
    t = { s with regs := t.regs, pc := t.pc, sregs := t.sregs, mem := t.mem, written := t.written,
                 inhibit := t.inhibit, afterPopSs := (sg == .ss), draws := t.draws } ∧
      (∀ j, j ≠ 4 → s.Kept t j) ∧ (∀ q, q ≠ sg → t.sreg q = s.sreg q) ∧
      (∀ a, s.translate .write supervisor (s.descriptorByte (t.sreg sg).sel 5) ≠ .ok a →
        t.mem.read a = s.mem.read a) ∧
      ((s.mode = .real ∨ s.mode = .v8086 ∨ isNull (t.sreg sg).sel = true) → s.SameMemory t)

/-! ### POP to a segment register -/

/-- The fields of selectors and descriptors by their bits: RPL, NULL and the error code of a selector; what a descriptor is for
(S, code, writable or readable, expand-down or conforming), DPL, P, and the accessed bit (R216, R217, R253; the code's value is
decision D19). -/
def Obligations.SelectorAndDescriptorFields : Prop :=
  (∀ (sel : BitVec 16), (selRpl sel).toNat = sel.toNat % 4 ∧ (isNull sel = true ↔ sel.toNat < 4) ∧
    (selectorCode sel).toNat = sel.toNat / 4 * 4) ∧
  ∀ (d : Descriptor),
    (d.kind = .system ↔ ¬ bitIsSet d.raw.toNat 44) ∧
    (∀ w e, d.kind = .data w e ↔ bitIsSet d.raw.toNat 44 ∧ ¬ bitIsSet d.raw.toNat 43 ∧
      (w = true ↔ bitIsSet d.raw.toNat 41) ∧ (e = true ↔ bitIsSet d.raw.toNat 42)) ∧
    (∀ r c, d.kind = .code r c ↔ bitIsSet d.raw.toNat 44 ∧ bitIsSet d.raw.toNat 43 ∧
      (r = true ↔ bitIsSet d.raw.toNat 41) ∧ (c = true ↔ bitIsSet d.raw.toNat 42)) ∧
    (d.present = true ↔ bitIsSet d.raw.toNat 47) ∧ (d.accessed = true ↔ bitIsSet d.raw.toNat 40) ∧
    d.dpl.toNat = d.raw.toNat / 2 ^ 45 % 4

/-- The descriptor lookup: bit 2 of the selector chooses the local table, which must be usable; the index, bits 15:3, is outside
when 8 times it plus 7 is above the table's limit; byte `k` of the descriptor is at the table's base plus 8 times the index plus
`k`, modulo the width of linear addresses (R216, R217, R60; the width is log 20). -/
def Obligations.DescriptorLookup : Prop :=
  ∀ (s : State) (sel : BitVec 16),
    (¬ bitIsSet sel.toNat 2 →
      (s.outsideTable sel = true ↔ s.gdtr.limit.toNat < sel.toNat / 8 * 8 + 7) ∧
      ∀ k, k < 8 → (s.descriptorByte sel k).toNat =
        (s.gdtr.base.toNat + sel.toNat / 8 * 8 + k) % (if s.mode = .long64 then 2 ^ 64 else 2 ^ 32)) ∧
    (bitIsSet sel.toNat 2 →
      (s.outsideTable sel = true ↔ s.ldtr.usable = false ∨ s.ldtr.limit.toNat < sel.toNat / 8 * 8 + 7) ∧
      ∀ k, k < 8 → (s.descriptorByte sel k).toNat =
        (s.ldtr.base.toNat + sel.toNat / 8 * 8 + k) % (if s.mode = .long64 then 2 ^ 64 else 2 ^ 32))

/-- In Real and V8086 mode each POP to a segment register completes: the selector is the low 16 bits popped, the base is 16
times it, the rest of the hidden part is unchanged, no check is made and no memory is written (R200 to R205, R207, R208, R210,
R221, R226). -/
def Obligations.RealModeSegmentPopCompletes : Prop :=
  ∀ (s : State) (i : Instr) (sg : SegName) (sel : BitVec 16), PopsSegment i sg → s.Ready i →
    (s.mode = .real ∨ s.mode = .v8086) → s.PopsSelector i sel →
    ∃ t, exec i s = .next t ∧ s.SegmentPopped t i sg ∧ s.SameMemory t ∧
      t.sreg sg = ⟨sel, { (s.sreg sg).hid with base := BitVec.ofNat 64 (16 * sel.toNat) }⟩

/-- A NULL selector, 0000 to 0003, loads into DS, ES, FS and GS (FS and GS in Long64) without any table: the register keeps it
and is not usable; the rest of its hidden part is the parameter's, or any value (R222, log 9). -/
def Obligations.NullSelectorPopCompletes : Prop :=
  ∀ (s : State) (i : Instr) (sg : SegName) (sel : BitVec 16), PopsSegment i sg → s.Ready i → s.LoadsData sg →
    s.PopsSelector i sel → sel.toNat ≤ 3 →
    ∃ t, exec i s = .next t ∧ s.SegmentPopped t i sg ∧ s.SameMemory t ∧
      (t.sreg sg).sel = sel ∧ (t.sreg sg).hid.usable = false ∧
      ∀ h, s.params.nullLoadHidden = some h → (t.sreg sg).hid = { h with usable := false }

/-- DS, ES, FS and GS (FS and GS in Long64) load from a present data or readable code segment where the privilege test does not
fail in any reading, or not in the reading the parameter chooses; the accessed bit is set in memory (R200 to R209, R219, R220,
R223, R224, logs 8 and 19). -/
def Obligations.DataSegmentPopCompletes : Prop :=
  ∀ (s : State) (i : Instr) (sg : SegName) (sel : BitVec 16) (d : Descriptor), PopsSegment i sg → s.Ready i →
    s.LoadsData sg → s.PopsSelector i sel → 3 < sel.toNat → s.DescriptorAt sel d →
    SegKind.dataOrReadable d.kind = true → s.PrivilegeHolds sel d → d.present = true → s.CanMark sel d →
    ∃ t, exec i s = .next t ∧ s.SegmentPopped t i sg ∧ State.LoadedFrom (t.sreg sg) sel d ∧ s.Marked t sel d

/-- What turns a load of DS, ES, FS or GS away: #GP(selector) outside the table, for a segment neither data nor readable code,
and for one not conforming whose DPL is below both RPL and CPL, then #NP(selector) if it is not present. Where exactly one of
RPL and CPL is above DPL the parameter DataSegPriv says: `either` and `both` here and in `DataSegmentPopCompletes`, by default
no meaning, and the model's fourth value in `DataSegmentFreeReading` (R219, R220, R243, R246, R257, R310). -/
def Obligations.DataSegmentLoadChecks : Prop :=
  ∀ (s : State) (i : Instr) (sg : SegName) (sel : BitVec 16), PopsSegment i sg → s.Starts i → s.LoadsData sg →
    s.PopsSelector i sel → 3 < sel.toNat →
    (s.outsideTable sel = true → Raises (exec i s) (.gp (some (selectorCode sel)))) ∧
    ∀ d, s.DescriptorAt sel d →
      (SegKind.dataOrReadable d.kind = false → Raises (exec i s) (.gp (some (selectorCode sel)))) ∧
      (SegKind.dataOrReadable d.kind = true → d.kind ≠ .code true true →
        (s.BothAbove sel d ∨ (s.OneAbove sel d ∧ s.params.dataSegPriv = .either)) →
        Raises (exec i s) (.gp (some (selectorCode sel)))) ∧
      (SegKind.dataOrReadable d.kind = true → d.kind ≠ .code true true → s.OneAbove sel d →
        s.params.dataSegPriv = .refuse → exec i s = .refused .dataSegPriv) ∧
      (SegKind.dataOrReadable d.kind = true → s.PrivilegeHolds sel d →
        d.present = false → Raises (exec i s) (.np (selectorCode sel)))

/-- Under the model's fourth value of DataSegPriv, a free reading, a load for which exactly one of RPL and CPL is above DPL does
what one of the spec's two readings says: #GP(selector), or, as with `both`, #NP(selector) for a segment not present and a
completed load for one that is (R219, D40, log 8). -/
def Obligations.DataSegmentFreeReading : Prop :=
  ∀ (s : State) (i : Instr) (sg : SegName) (sel : BitVec 16) (d : Descriptor), PopsSegment i sg → s.Starts i →
    s.LoadsData sg → s.PopsSelector i sel → 3 < sel.toNat → s.DescriptorAt sel d →
    SegKind.dataOrReadable d.kind = true → d.kind ≠ .code true true → s.OneAbove sel d →
    s.params.dataSegPriv = .anyReading →
    (d.present = false →
      Raises (exec i s) (.gp (some (selectorCode sel))) ∨ Raises (exec i s) (.np (selectorCode sel))) ∧
    (d.present = true → s.CanMark sel d → s.nextPcFits i.length = true →
      Raises (exec i s) (.gp (some (selectorCode sel))) ∨
        ∃ t, exec i s = .next t ∧ s.SegmentPopped t i sg ∧ State.LoadedFrom (t.sreg sg) sel d ∧ s.Marked t sel d)

/-- Where the descriptor-table accesses of a load fail. They raise #PF for the lowest of the descriptor's eight bytes whose read
faults at supervisor privilege, whatever CPL is (that it is the lowest is the model's choice, log 35), and, after every check has passed, for byte 5 whose write faults where the
accessed bit is to be set. A byte that translates to a physical address that does not exist gives the load no meaning (R79, R83,
R217, R224, R247, R254, R256, logs 19, 30, 33 and 35). -/
def Obligations.DescriptorAccessFaults : Prop :=
  ∀ (s : State) (i : Instr) (sg : SegName) (sel : BitVec 16), PopsSegment i sg → s.Starts i → s.LoadsDescriptor sg →
    s.PopsSelector i sel → 3 < sel.toNat → s.outsideTable sel = false →
    (∀ l code, s.FirstFaultAt .read supervisor ((List.range 8).map (s.descriptorByte sel)) l code →
      Raises (exec i s) (.pf code l)) ∧
    (∀ as a, ((List.range 8).map (s.descriptorByte sel)).map (s.translate .read supervisor) = as.map Except.ok →
      s.FirstOutside as a → exec i s = .refused (.outsidePhysMem a)) ∧
    ∀ d, s.DescriptorAt sel d → s.Loadable sg sel d → d.raw.getLsbD 40 = false →
      (∀ code, s.translate .write supervisor (s.descriptorByte sel 5) = .error code →
        Raises (exec i s) (.pf code (s.descriptorByte sel 5))) ∧
      ∀ a, s.translate .write supervisor (s.descriptorByte sel 5) = .ok a → s.inPhysMem a = false →
        exec i s = .refused (.outsidePhysMem a)

/-- Under premise P6, that the descriptor an instruction loads has its accessed bit set, a POP to a segment register writes no
memory, and so it is for each instruction of a run that meets P6 (R224, R293). -/
def Obligations.AccessedDescriptorsAreNotWritten : Prop :=
  (∀ (s t : State) (i : Instr) (sg : SegName), PopsSegment i sg → s.loadsAccessed i → exec i s = .next t →
    s.SameMemory t) ∧
  ∀ (s t u : State) (endPc : Word) (k : Nat) (i : Instr) (sg : SegName), s.descriptorsAccessed endPc →
    reached endPc k s = some t → t.pc ≠ endPc → t.fetchInstr = .ok i → PopsSegment i sg → step t = .next u →
    t.SameMemory u

/-- POP SS in Protected and Compat mode: NULL is #GP(0); outside the table, RPL or DPL other than CPL, or no writable data
segment is #GP(selector); then not present is #SS(selector); else SS is loaded and interrupts are inhibited (R203, R218, R223,
R224, R226, R257; the code's value is decision D19, and the accessed bit log 19). -/
def Obligations.StackSegmentPopChecksAndLoads : Prop :=
  ∀ (s : State) (p : Prefixes) (sel : BitVec 16), s.Starts (.popSs p) → s.ProtectedOrCompat →
    s.PopsSelector (.popSs p) sel →
    (sel.toNat ≤ 3 → Raises (exec (.popSs p) s) (.gp (some 0))) ∧
    (3 < sel.toNat → s.outsideTable sel = true → Raises (exec (.popSs p) s) (.gp (some (selectorCode sel)))) ∧
    ∀ d, 3 < sel.toNat → s.DescriptorAt sel d →
      ((selRpl sel ≠ s.cpl ∨ d.dpl ≠ s.cpl ∨ ∀ e, d.kind ≠ .data true e) →
        Raises (exec (.popSs p) s) (.gp (some (selectorCode sel)))) ∧
      (selRpl sel = s.cpl → d.dpl = s.cpl → (∃ e, d.kind = .data true e) → d.present = false →
        Raises (exec (.popSs p) s) (.ss (some (selectorCode sel)))) ∧
      (selRpl sel = s.cpl → d.dpl = s.cpl → (∃ e, d.kind = .data true e) → d.present = true →
        s.CanMark sel d → s.nextPcFits (Instr.popSs p).length = true →
        ∃ t, exec (.popSs p) s = .next t ∧ s.SegmentPopped t (.popSs p) .ss ∧
          State.LoadedFrom (t.sreg .ss) sel d ∧ s.Marked t sel d)

/-- POP DS, ES and SS in Long64 raise #UD, whatever the rest of the state: R130, whose exception is the spec's decision D20. -/
def Obligations.LegacySegmentPopInvalidInLong64 : Prop :=
  ∀ (s : State) (p : Prefixes), s.mode = .long64 → p.wf s.ctx = true →
    Raises (exec (.popDs p) s) .ud ∧ Raises (exec (.popEs p) s) .ud ∧ Raises (exec (.popSs p) s) .ud

/-- R211: no instruction changes CS. -/
def Obligations.CsIsNeverLoaded : Prop :=
  ∀ (s t : State) (i : Instr), exec i s = .next t → t.sreg .cs = s.sreg .cs

/-! ### Flags, control state, exceptions, boundaries -/

/-- R163: no instruction of any form writes a flag. -/
def Obligations.FlagsAreNeverWritten : Prop :=
  ∀ (s t : State) (i : Instr), exec i s = .next t → t.rflags = s.rflags

/-- R134: a LOCK prefix makes every form of POP raise #UD in every mode. The outcome is a fault, so nothing is read or written. -/
def Obligations.LockRaisesUd : Prop :=
  ∀ (s : State) (i : Instr), i.wf s.ctx = true → LegacyPrefix.lock ∈ i.prefixes.legacy → Raises (exec i s) .ud

/-- Which exceptions each mode can raise, with what vector, pc being the POP's: in Real mode #UD, #SS and #GP without a code; in
V8086 mode no #NP and only codes 0; in Long64 no #SS but #SS(0); #SS and #GP with a code everywhere outside Real mode
(R240, R249 to R253, R262; vectors are general knowledge, logs 14 and 27). -/
def Obligations.ExceptionsByMode : Prop :=
  ∀ (s : State) (i : Instr) (e : Exception) (vector : Nat) (pc : Word), exec i s = .fault (.raised e vector pc) →
    pc = s.pc ∧
    vector = (match e with | .ud => 6 | .np _ => 11 | .ss _ => 12 | .gp _ => 13 | .pf _ _ => 14 | .ac => 17) ∧
    (s.mode = .real → e = .ud ∨ e = .ss none ∨ e = .gp none) ∧
    (s.mode = .v8086 → e = .ud ∨ e = .ss (some 0) ∨ e = .gp (some 0) ∨ (∃ c a, e = .pf c a) ∨ e = .ac) ∧
    (s.mode = .long64 → (∀ c, e = .ss c → c = some 0)) ∧
    (s.mode ≠ .real → e ≠ .ss none ∧ e ≠ .gp none)

/-- A completed step moves pc past the instruction it fetched, and pc stays below the width in force and, outside Long64, within
the CS limit (R30, R31, log 18). -/
def Obligations.PcPassesTheInstruction : Prop :=
  ∀ (s t : State), step s = .next t →
    ∃ i, s.fetchInstr = .ok i ∧ t.pc = s.pc + BitVec.ofNat 64 i.length ∧
      (s.mode = .long64 → s.pc.toNat + i.length < 2 ^ 64) ∧
      (s.mode ≠ .long64 →
        (s.pc.setWidth 32).toNat + i.length < (if (s.sreg .cs).hid.db then 2 ^ 32 else 2 ^ 16) ∧
          (s.pc.setWidth 32).toNat + i.length ≤ (s.sreg .cs).hid.limit.toNat)

/-- A POP into a general register, into memory or into a segment register that would carry pc out of bounds has no meaning, even
if all its accesses and checks succeed (R31, log 18). -/
def Obligations.PcOverrunIsRefused : Prop :=
  ∀ (s : State) (i : Instr), s.Starts i → s.nextPcFits i.length = false →
    (∀ n d v, PopsRegister i n d → s.Popped n.bytes v → exec i s = .refused .pcOverrun) ∧
    (∀ n m v off as, PopsMemory i n m → s.Popped n.bytes v → s.destOffset i.prefixes n m i.length = .ok off →
      s.Reaches .write (segmentOf s.mode i.prefixes m) off n.bytes as → exec i s = .refused .pcOverrun) ∧
    (∀ sg sel, PopsSegment i sg → s.PopsSelector i sel → s.LoadSucceeds sg sel → exec i s = .refused .pcOverrun)

/-- A completed step writes no mode, privilege level, flags, table register, alignment enable, paging or parameter (R32, R40 to
R44, R270). It takes the boundary's offer, which is the model's choice (log 15). -/
def Obligations.ControlStateIsNeverWritten : Prop :=
  ∀ (s t : State), step s = .next t →
    t.mode = s.mode ∧ t.cpl = s.cpl ∧ t.rflags = s.rflags ∧ t.gdtr = s.gdtr ∧ t.ldtr = s.ldtr ∧
      t.acEnable = s.acEnable ∧ t.physMem = s.physMem ∧ t.paging = s.paging ∧ t.params = s.params ∧
      t.offers = s.offers.tail

/-- A byte that a completed step changes is one it records as written, and every byte it records exists; the bytes of the
instruction at pc join the executed ones, and no executed byte is a written one (R83, R88, log 17). -/
def Obligations.ChangedBytesAreRecorded : Prop :=
  ∀ (s t : State), step s = .next t →
    (∀ a, a ∉ t.written → t.mem.read a = s.mem.read a) ∧
      (∀ a, a ∈ t.written → (a ∈ s.written ∨ s.inPhysMem a = true) ∧ a ∉ t.fetched) ∧
      ∀ a, a ∈ t.fetched ↔ a ∈ s.codeAddrs ∨ a ∈ s.fetched

/-- Under the launch premises and those of the run, each state the run comes to meets the invariant of Safety, so that by
`MemoryReadAfterWrite` a read returns the last value written, and no instruction is refused for an access outside the memory
that exists, none for fetching a byte the run wrote and none for writing a byte the run executed (R83, R88, R293: P3, P4, P9;
log 34 for which bytes P4 and P9 mean). -/
def Obligations.PremisesKeepTheRunInMemory : Prop :=
  ∀ (s t : State) (endPc : Word) (k : Nat), s.RunPremises endPc → reached endPc k s = some t →
    t.Inv ∧ (t.pc ≠ endPc →
      step t ≠ .refused .fetchModified ∧ step t ≠ .refused .codeWritten ∧
        ∀ i, t.fetchInstr = .ok i → ∀ a, exec i (t.enter i.length) ≠ .refused (.outsidePhysMem a))

/-- A completed POP SS that does not follow another inhibits interrupts at the next boundary, whatever is offered there; every
other completed instruction ends the inhibition (R45, R226, log 11). -/
def Obligations.PopSsHoldsOffInterrupts : Prop :=
  (∀ (s t : State) (p : Prefixes) (os : List InterruptOffer), exec (.popSs p) s = .next t → s.inhibit = false →
    s.afterPopSs = false → t.inhibit = true ∧ step { t with offers := os } ≠ .refused .interruptDelivered) ∧
  ∀ (s t : State) (i : Instr), exec i s = .next t → ¬ PopsSegment i .ss → t.inhibit = false

/-! ### Headline results -/

/-- The invariant of Safety holds at reset. -/
def Obligations.ResetMeetsTheInvariant : Prop := State.reset.Inv

/-- Every step keeps memory and the records of written and executed addresses canonical, no executed byte among the written ones,
mode and privilege consistent with CS, SS a writable present data segment at CPL in Protected and Compat mode, and an inhibition
only after POP SS (R61, R88, R218, R226, R293). -/
def Obligations.StepKeepsTheInvariant : Prop := ∀ (s t : State), s.Inv → step s = .next t → t.Inv

/-- Outside Long64 a step depends on no bit 63:32 of a general register and on no register 8 to 15: two states that differ only
there end alike and, if they go on, still differ only there (R24). Where an instruction draws a free value (the base of log 7,
the reading of log 8, the hidden part of log 9, the inhibition of log 11, the fault of log 13), this rests on both runs drawing
it alike, being at one count of draws, against which log 12 warns: hardware may draw differently in two runs. -/
def Obligations.UpperHalvesAreNotSeen : Prop :=
  ∀ (s t : State), s.mode ≠ .long64 → s.SameNarrowView t →
    match step s, step t with
    | .next s', .next t' => s'.SameNarrowView t'
    | .fault f, .fault g => f = g
    | .refused r, .refused q => r = q
    | .next _, .fault _ | .next _, .refused _ | .fault _, .next _ => False
    | .fault _, .refused _ | .refused _, .next _ | .refused _, .fault _ => False

end Statements
end

