-- ==== Sys2Proof/Laws/Memory.lean ====
section
/-! SUPPORT. Memory: a read after a write, and the canonical form every operation keeps. -/

namespace Sys2Proof.Machine

namespace Memory

theorem read_eq_unlisted_of_above {lo a : Nat} : ∀ {m : Memory}, above lo m = true → a ≤ lo → read m a = unlisted
  | [], _, _ => rfl
  | (b, v) :: m, h, ha => by
    simp only [above, Bool.and_eq_true, decide_eq_true_eq] at h
    rw [read, if_neg (by omega)]
    exact read_eq_unlisted_of_above h.2 ha

theorem above_mono {lo lo' : Nat} (hl : lo ≤ lo') : ∀ {m : Memory}, above lo' m = true → above lo m = true
  | [], _ => rfl
  | (b, v) :: m, h => by
    simp only [above, Bool.and_eq_true, decide_eq_true_eq] at h ⊢
    exact ⟨by omega, above_mono hl h.2⟩

theorem above_write {lo a : Nat} (v : Byte) (ha : lo < a) :
    ∀ {m : Memory}, above lo m = true → above lo (write m a v) = true
  | [], _ => by
    unfold write; split <;> simp [above, ha]
  | (b, w) :: m, h => by
    simp only [above, Bool.and_eq_true, decide_eq_true_eq] at h
    unfold write
    split
    · split <;> simp [above, h.1, h.2, ha]
    · split
      · split <;> simp [above, h.2, ha]
      · simp [above, h.1, above_write v ha h.2]

/-- Writing keeps the canonical form. -/
theorem write_wf (a : Nat) (v : Byte) : ∀ {m : Memory}, wf m = true → wf (write m a v) = true
  | [], _ => by
    unfold write; split
    · rfl
    · next h => simp [wf, above, h]
  | (b, w) :: m, h => by
    have hw := h
    simp only [wf, Bool.and_eq_true, bne_iff_ne] at h
    obtain ⟨⟨hb, hv⟩, hm⟩ := h
    unfold write
    split
    · next hab =>
      split
      · exact hw
      · next hv0 => simp [wf, above, hab, above_mono (Nat.le_of_lt hab) hb, hb, hv, hm, hv0]
    · split
      · next hab =>
        split
        · exact hm
        · next hv0 => simp [wf, hab, hb, hm, hv0]
      · next h1 h2 =>
        have hba : b < a := by omega
        simp [wf, above_write v hba hb, hv, write_wf a v hm]

/-- A write leaves every other byte as it was. -/
theorem read_write_ne {a b : Nat} (v : Byte) (h : b ≠ a) : ∀ m : Memory, read (write m a v) b = read m b
  | [] => by
    unfold write; split <;> simp [read, h]
  | (c, w) :: m => by
    unfold write
    split
    · split
      · rfl
      · simp [read, h]
    · split
      · next hca =>
        split <;> simp [read, ← hca, h]
      · simp only [read]
        split
        · rfl
        · exact read_write_ne v h m

/-- A byte reads as it was written. -/
theorem read_write_self (a : Nat) (v : Byte) : ∀ {m : Memory}, wf m = true → read (write m a v) a = v
  | [], _ => by
    unfold write; split
    · next h => simp [read, h]
    · simp [read]
  | (b, w) :: m, h => by
    have hw := h
    simp only [wf, Bool.and_eq_true, bne_iff_ne] at h
    obtain ⟨⟨hb, hv⟩, hm⟩ := h
    unfold write
    split
    · next hab =>
      split
      · next hv0 =>
        rw [read, if_neg (by omega), read_eq_unlisted_of_above hb (by omega), hv0]
      · simp [read]
    · split
      · next hab =>
        split
        · next hv0 => rw [read_eq_unlisted_of_above hb (by omega), hv0]
        · simp [read]
      · next h1 h2 => rw [read, if_neg h2, read_write_self a v hm]

theorem read_write {m : Memory} (h : wf m = true) (a b : Nat) (v : Byte) :
    read (write m a v) b = if b = a then v else read m b := by
  split
  · next e => subst e; exact read_write_self b v h
  · next e => exact read_write_ne v e m

end Memory

theorem mem_insertAddr (a b : Nat) : ∀ l : List Nat, b ∈ insertAddr a l ↔ b = a ∨ b ∈ l
  | [] => by simp [insertAddr]
  | c :: l => by
    unfold insertAddr
    split
    · simp
    · split
      · next h => subst h; simp
      · simp only [List.mem_cons, mem_insertAddr a b l]; tauto

theorem rising_cons {a : Nat} : ∀ {l : List Nat}, rising (a :: l) = true ↔ (∀ b ∈ l.head?, a < b) ∧ rising l = true
  | [] => by simp [rising]
  | b :: l => by simp [rising]

/-- Recording an address keeps the list rising. -/
theorem rising_insertAddr (a : Nat) : ∀ {l : List Nat}, rising l = true → rising (insertAddr a l) = true
  | [], _ => rfl
  | b :: l, h => by
    unfold insertAddr
    split
    · next hab => exact rising_cons.2 ⟨by simpa using hab, h⟩
    · split
      · exact h
      · next h1 h2 =>
        have hl := rising_cons.1 h
        refine rising_cons.2 ⟨?_, rising_insertAddr a hl.2⟩
        intro c hc
        cases l with
        | nil =>
          simp only [insertAddr, List.head?_cons, Option.mem_some_iff] at hc
          omega
        | cons d l =>
          have hbd : b < d := hl.1 d (by simp)
          unfold insertAddr at hc
          split at hc
          · simp only [List.head?_cons, Option.mem_some_iff] at hc; omega
          · split at hc <;> · simp only [List.head?_cons, Option.mem_some_iff] at hc; omega

namespace State

theorem storeByte_wf {s : State} (a : Nat) (v : Byte) (h : s.mem.wf = true) : (s.storeByte a v).mem.wf = true :=
  Memory.write_wf a v h

/-- A launch meets the invariant. -/
theorem Launch.inv {s : State} (h : s.Launch) : s.Inv :=
  ⟨h.memoryCanonical, by rw [h.nothingWritten]; rfl, by rw [h.nothingExecuted]; rfl,
    by rw [codeIntact, h.nothingWritten]; rfl, h.modeConsistent, h.stackLoaded,
    fun e => by rw [h.notInhibited.1] at e; cases e⟩

/-- The executed bytes on entering an instruction: those from before and its own. -/
theorem mem_enter_fetched {s : State} {len a : Nat} :
    a ∈ (s.enter len).fetched ↔ a ∈ s.fetchAddrs len ∨ a ∈ s.fetched := by
  show a ∈ (s.fetchAddrs len).foldr insertAddr s.fetched ↔ _
  induction s.fetchAddrs len with
  | nil => simp
  | cons b bs ih => rw [List.foldr_cons, mem_insertAddr, ih, List.mem_cons, or_assoc]

/-- Their record stays rising. -/
theorem rising_enter_fetched {s : State} (len : Nat) (h : rising s.fetched = true) :
    rising (s.enter len).fetched = true := by
  show rising ((s.fetchAddrs len).foldr insertAddr s.fetched) = true
  induction s.fetchAddrs len with
  | nil => exact h
  | cons b bs ih => exact rising_insertAddr b ih

end State

end Sys2Proof.Machine
end

