-- ==== Sys2Proof/Laws/State.lean ====
section
/-! SUPPORT. One lemma per field per update of State, true by rfl, so that no proof unfolds a record update. -/

namespace Sys2Proof.Machine.State

/-! ### Fields -/

section SetGpr
variable (s : State) (i : GprNum) (g : Gpr)
@[simp] theorem setGpr_pc : (s.setGpr i g).pc = s.pc := rfl
@[simp] theorem setGpr_rflags : (s.setGpr i g).rflags = s.rflags := rfl
@[simp] theorem setGpr_sregs : (s.setGpr i g).sregs = s.sregs := rfl
@[simp] theorem setGpr_mode : (s.setGpr i g).mode = s.mode := rfl
@[simp] theorem setGpr_cpl : (s.setGpr i g).cpl = s.cpl := rfl
@[simp] theorem setGpr_gdtr : (s.setGpr i g).gdtr = s.gdtr := rfl
@[simp] theorem setGpr_ldtr : (s.setGpr i g).ldtr = s.ldtr := rfl
@[simp] theorem setGpr_acEnable : (s.setGpr i g).acEnable = s.acEnable := rfl
@[simp] theorem setGpr_inhibit : (s.setGpr i g).inhibit = s.inhibit := rfl
@[simp] theorem setGpr_mem : (s.setGpr i g).mem = s.mem := rfl
@[simp] theorem setGpr_physMem : (s.setGpr i g).physMem = s.physMem := rfl
@[simp] theorem setGpr_paging : (s.setGpr i g).paging = s.paging := rfl
@[simp] theorem setGpr_offers : (s.setGpr i g).offers = s.offers := rfl
@[simp] theorem setGpr_params : (s.setGpr i g).params = s.params := rfl
@[simp] theorem setGpr_afterPopSs : (s.setGpr i g).afterPopSs = s.afterPopSs := rfl
@[simp] theorem setGpr_written : (s.setGpr i g).written = s.written := rfl
@[simp] theorem setGpr_fetched : (s.setGpr i g).fetched = s.fetched := rfl
@[simp] theorem setGpr_draws : (s.setGpr i g).draws = s.draws := rfl
end SetGpr

section SetSreg
variable (s : State) (n : SegName) (r : SegReg)
@[simp] theorem setSreg_regs : (s.setSreg n r).regs = s.regs := rfl
@[simp] theorem setSreg_pc : (s.setSreg n r).pc = s.pc := rfl
@[simp] theorem setSreg_rflags : (s.setSreg n r).rflags = s.rflags := rfl
@[simp] theorem setSreg_mode : (s.setSreg n r).mode = s.mode := rfl
@[simp] theorem setSreg_cpl : (s.setSreg n r).cpl = s.cpl := rfl
@[simp] theorem setSreg_gdtr : (s.setSreg n r).gdtr = s.gdtr := rfl
@[simp] theorem setSreg_ldtr : (s.setSreg n r).ldtr = s.ldtr := rfl
@[simp] theorem setSreg_acEnable : (s.setSreg n r).acEnable = s.acEnable := rfl
@[simp] theorem setSreg_inhibit : (s.setSreg n r).inhibit = s.inhibit := rfl
@[simp] theorem setSreg_mem : (s.setSreg n r).mem = s.mem := rfl
@[simp] theorem setSreg_physMem : (s.setSreg n r).physMem = s.physMem := rfl
@[simp] theorem setSreg_paging : (s.setSreg n r).paging = s.paging := rfl
@[simp] theorem setSreg_offers : (s.setSreg n r).offers = s.offers := rfl
@[simp] theorem setSreg_params : (s.setSreg n r).params = s.params := rfl
@[simp] theorem setSreg_afterPopSs : (s.setSreg n r).afterPopSs = s.afterPopSs := rfl
@[simp] theorem setSreg_written : (s.setSreg n r).written = s.written := rfl
@[simp] theorem setSreg_fetched : (s.setSreg n r).fetched = s.fetched := rfl
@[simp] theorem setSreg_draws : (s.setSreg n r).draws = s.draws := rfl
end SetSreg

section StoreByte
variable (s : State) (a : Nat) (v : Byte)
@[simp] theorem storeByte_regs : (s.storeByte a v).regs = s.regs := rfl
@[simp] theorem storeByte_pc : (s.storeByte a v).pc = s.pc := rfl
@[simp] theorem storeByte_rflags : (s.storeByte a v).rflags = s.rflags := rfl
@[simp] theorem storeByte_sregs : (s.storeByte a v).sregs = s.sregs := rfl
@[simp] theorem storeByte_mode : (s.storeByte a v).mode = s.mode := rfl
@[simp] theorem storeByte_cpl : (s.storeByte a v).cpl = s.cpl := rfl
@[simp] theorem storeByte_gdtr : (s.storeByte a v).gdtr = s.gdtr := rfl
@[simp] theorem storeByte_ldtr : (s.storeByte a v).ldtr = s.ldtr := rfl
@[simp] theorem storeByte_acEnable : (s.storeByte a v).acEnable = s.acEnable := rfl
@[simp] theorem storeByte_inhibit : (s.storeByte a v).inhibit = s.inhibit := rfl
@[simp] theorem storeByte_physMem : (s.storeByte a v).physMem = s.physMem := rfl
@[simp] theorem storeByte_paging : (s.storeByte a v).paging = s.paging := rfl
@[simp] theorem storeByte_offers : (s.storeByte a v).offers = s.offers := rfl
@[simp] theorem storeByte_params : (s.storeByte a v).params = s.params := rfl
@[simp] theorem storeByte_afterPopSs : (s.storeByte a v).afterPopSs = s.afterPopSs := rfl
@[simp] theorem storeByte_fetched : (s.storeByte a v).fetched = s.fetched := rfl
@[simp] theorem storeByte_draws : (s.storeByte a v).draws = s.draws := rfl
end StoreByte

section Enter
variable (s : State) (len : Nat)
@[simp] theorem enter_regs : (s.enter len).regs = s.regs := rfl
@[simp] theorem enter_pc : (s.enter len).pc = s.pc := rfl
@[simp] theorem enter_rflags : (s.enter len).rflags = s.rflags := rfl
@[simp] theorem enter_sregs : (s.enter len).sregs = s.sregs := rfl
@[simp] theorem enter_mode : (s.enter len).mode = s.mode := rfl
@[simp] theorem enter_cpl : (s.enter len).cpl = s.cpl := rfl
@[simp] theorem enter_gdtr : (s.enter len).gdtr = s.gdtr := rfl
@[simp] theorem enter_ldtr : (s.enter len).ldtr = s.ldtr := rfl
@[simp] theorem enter_acEnable : (s.enter len).acEnable = s.acEnable := rfl
@[simp] theorem enter_inhibit : (s.enter len).inhibit = s.inhibit := rfl
@[simp] theorem enter_mem : (s.enter len).mem = s.mem := rfl
@[simp] theorem enter_physMem : (s.enter len).physMem = s.physMem := rfl
@[simp] theorem enter_paging : (s.enter len).paging = s.paging := rfl
@[simp] theorem enter_params : (s.enter len).params = s.params := rfl
@[simp] theorem enter_afterPopSs : (s.enter len).afterPopSs = s.afterPopSs := rfl
@[simp] theorem enter_written : (s.enter len).written = s.written := rfl
@[simp] theorem enter_draws : (s.enter len).draws = s.draws := rfl
end Enter

@[simp] theorem setGpr_regs (s : State) (i : GprNum) (g : Gpr) :
    (s.setGpr i g).regs = s.regs.set i.val g i.isLt := rfl

@[simp] theorem storeByte_mem (s : State) (a : Nat) (v : Byte) : (s.storeByte a v).mem = s.mem.write a v := rfl

@[simp] theorem storeByte_written (s : State) (a : Nat) (v : Byte) :
    (s.storeByte a v).written = insertAddr a s.written := rfl

@[simp] theorem enter_offers (s : State) (len : Nat) : (s.enter len).offers = s.offers.tail := rfl

@[simp] theorem enter_fetched (s : State) (len : Nat) :
    (s.enter len).fetched = (s.fetchAddrs len).foldr insertAddr s.fetched := rfl

section WriteReg
variable (s : State) (n : Size) (i : GprNum) (v : Word)
@[simp] theorem writeReg_pc : (s.writeReg n i v).pc = s.pc := by cases n <;> rfl
@[simp] theorem writeReg_rflags : (s.writeReg n i v).rflags = s.rflags := by cases n <;> rfl
@[simp] theorem writeReg_sregs : (s.writeReg n i v).sregs = s.sregs := by cases n <;> rfl
@[simp] theorem writeReg_mode : (s.writeReg n i v).mode = s.mode := by cases n <;> rfl
@[simp] theorem writeReg_cpl : (s.writeReg n i v).cpl = s.cpl := by cases n <;> rfl
@[simp] theorem writeReg_gdtr : (s.writeReg n i v).gdtr = s.gdtr := by cases n <;> rfl
@[simp] theorem writeReg_ldtr : (s.writeReg n i v).ldtr = s.ldtr := by cases n <;> rfl
@[simp] theorem writeReg_acEnable : (s.writeReg n i v).acEnable = s.acEnable := by cases n <;> rfl
@[simp] theorem writeReg_inhibit : (s.writeReg n i v).inhibit = s.inhibit := by cases n <;> rfl
@[simp] theorem writeReg_mem : (s.writeReg n i v).mem = s.mem := by cases n <;> rfl
@[simp] theorem writeReg_physMem : (s.writeReg n i v).physMem = s.physMem := by cases n <;> rfl
@[simp] theorem writeReg_paging : (s.writeReg n i v).paging = s.paging := by cases n <;> rfl
@[simp] theorem writeReg_offers : (s.writeReg n i v).offers = s.offers := by cases n <;> rfl
@[simp] theorem writeReg_params : (s.writeReg n i v).params = s.params := by cases n <;> rfl
@[simp] theorem writeReg_afterPopSs : (s.writeReg n i v).afterPopSs = s.afterPopSs := by cases n <;> rfl
@[simp] theorem writeReg_written : (s.writeReg n i v).written = s.written := by cases n <;> rfl
@[simp] theorem writeReg_fetched : (s.writeReg n i v).fetched = s.fetched := by cases n <;> rfl
@[simp] theorem writeReg_draws : (s.writeReg n i v).draws = s.draws := by cases n <;> rfl
@[simp] theorem writeReg_sreg (m : SegName) : (s.writeReg n i v).sreg m = s.sreg m := by cases n <;> cases m <;> rfl
end WriteReg

/-! ### General registers -/

@[simp] theorem gpr_setGpr_self (s : State) (i : GprNum) (g : Gpr) : (s.setGpr i g).gpr i = g := by
  simp [gpr]

theorem gpr_setGpr_ne (s : State) {i j : GprNum} (g : Gpr) (h : i ≠ j) : (s.setGpr i g).gpr j = s.gpr j := by
  have : i.val ≠ j.val := fun e => h (Fin.ext e)
  simp [gpr, this]

theorem gpr_setGpr (s : State) (i j : GprNum) (g : Gpr) :
    (s.setGpr i g).gpr j = if i = j then g else s.gpr j := by
  split
  · next h => subst h; simp
  · next h => exact gpr_setGpr_ne s g h

@[simp] theorem gpr_setSreg (s : State) (n : SegName) (r : SegReg) (i : GprNum) : (s.setSreg n r).gpr i = s.gpr i := rfl

@[simp] theorem gpr_storeByte (s : State) (a : Nat) (v : Byte) (i : GprNum) : (s.storeByte a v).gpr i = s.gpr i := rfl

/-- A register write at a size replaces one register. -/
theorem writeReg_eq (s : State) (n : Size) (i : GprNum) (v : Word) : ∃ g, s.writeReg n i v = s.setGpr i g := by
  cases n <;> exact ⟨_, rfl⟩

theorem gpr_writeReg_ne (s : State) (n : Size) {i j : GprNum} (v : Word) (h : i ≠ j) :
    (s.writeReg n i v).gpr j = s.gpr j := by
  obtain ⟨g, e⟩ := writeReg_eq s n i v
  rw [e, gpr_setGpr_ne s g h]

/-- What a step does on entering an instruction plays no part in the address of a destination. -/
@[simp] theorem enter_destOffset (s : State) (l : Nat) (p : Prefixes) (n : Size) (m : MemOperand) (len : Nat) :
    (s.enter l).destOffset p n m len = s.destOffset p n m len := by
  unfold destOffset writeSp
  rw [show (s.enter l).stackAddrSize = s.stackAddrSize from rfl]
  cases s.stackAddrSize <;> rfl

/-! ### Segment registers -/

@[simp] theorem sreg_setSreg_self (s : State) (n : SegName) (r : SegReg) : (s.setSreg n r).sreg n = r := by
  cases n <;> rfl

theorem sreg_setSreg_ne (s : State) {n m : SegName} (r : SegReg) (h : n ≠ m) : (s.setSreg n r).sreg m = s.sreg m := by
  cases n <;> cases m <;> first | rfl | exact absurd rfl h

@[simp] theorem sreg_setGpr (s : State) (i : GprNum) (g : Gpr) (n : SegName) : (s.setGpr i g).sreg n = s.sreg n := by
  cases n <;> rfl

@[simp] theorem sreg_storeByte (s : State) (a : Nat) (v : Byte) (n : SegName) : (s.storeByte a v).sreg n = s.sreg n := by
  cases n <;> rfl

/-- Loading another segment register leaves CS alone. -/
theorem setSreg_cs (s : State) {n : SegName} (r : SegReg) (h : n ≠ .cs) : (s.setSreg n r).sregs.cs = s.sregs.cs :=
  sreg_setSreg_ne s r h

/-- Loading another segment register leaves SS alone. -/
theorem setSreg_ss (s : State) {n : SegName} (r : SegReg) (h : n ≠ .ss) : (s.setSreg n r).sregs.ss = s.sregs.ss :=
  sreg_setSreg_ne s r h

end Sys2Proof.Machine.State
end

