-- ==== Sys2Proof/Laws/Access.lean ====
section
/-! SUPPORT. One lemma per shared operation of Machine/Ops.lean that says everything it can do: translation, the checked
accesses, loads, stores, the stack pointer, completion. -/

namespace Sys2Proof.Machine

/-- A sequence succeeds when both parts do. -/
theorem bind_ok {ε α β : Type} {x : Except ε α} {f : α → Except ε β} {b : β} :
    (x >>= f) = .ok b ↔ ∃ a, x = .ok a ∧ f a = .ok b := by
  cases x <;> simp [bind, Except.bind]

/-- A sequence fails when its first part does, or its second part after it. -/
theorem bind_error {ε α β : Type} {x : Except ε α} {f : α → Except ε β} {e : ε} :
    (x >>= f) = .error e ↔ x = .error e ∨ ∃ a, x = .ok a ∧ f a = .error e := by
  cases x <;> simp [bind, Except.bind]

@[simp] theorem ok_bind {ε α β : Type} (a : α) (f : α → Except ε β) : (Except.ok a >>= f) = f a := rfl

@[simp] theorem error_bind {ε α β : Type} (e : ε) (f : α → Except ε β) : (Except.error e >>= f) = .error e := rfl

@[simp] theorem toOutcome_next {x : Exec State} {t : State} : toOutcome x = .next t ↔ x = .ok t := by
  cases x with
  | ok s => simp [toOutcome]
  | error e => cases e <;> simp [toOutcome]

@[simp] theorem toOutcome_fault {x : Exec State} {f : Fault} : toOutcome x = .fault f ↔ x = .error (.fault f) := by
  cases x with
  | ok s => simp [toOutcome]
  | error e => cases e <;> simp [toOutcome]

@[simp] theorem toOutcome_refused {x : Exec State} {r : Refusal} :
    toOutcome x = .refused r ↔ x = .error (.refused r) := by
  cases x with
  | ok s => simp [toOutcome]
  | error e => cases e <;> simp [toOutcome]

/-- The three outcomes of `perform`. -/
theorem perform_next {i : Instr} {s t : State} {b : Exec State} :
    perform i s b = .next t ↔ i.wf s.ctx = true ∧ i.prefixes.locked = false ∧ b = .ok t := by
  unfold perform
  split
  · next h => cases hl : i.prefixes.locked <;> simp [h, raise]
  · next h => simp [h]

theorem perform_fault {i : Instr} {s : State} {b : Exec State} {f : Fault} :
    perform i s b = .fault f ↔
      i.wf s.ctx = true ∧
        ((i.prefixes.locked = true ∧ f = .raised .ud 6 s.pc) ∨
          (i.prefixes.locked = false ∧ b = .error (.fault f))) := by
  unfold perform
  split
  · next h =>
    cases hl : i.prefixes.locked
    · simp [h]
    · simp only [h, raise, Exception.vector, if_true, true_and, toOutcome]
      simp [eq_comm]
  · next h => simp [h]

/-- An instruction of this mode without LOCK does what its body does. -/
theorem perform_eq {i : Instr} {s : State} {b : Exec State} (hw : i.wf s.ctx = true) (hl : i.prefixes.locked = false) :
    perform i s b = toOutcome b := by simp [perform, hw, hl]

namespace State

/-! ### Translation -/

/-- Translating each byte succeeds exactly when each byte translates. -/
theorem translateAll_ok {s : State} {acc : Access} {cpl : BitVec 2} :
    ∀ {ls : List Word} {ps : List Nat},
      s.translateAll acc cpl ls = .ok ps ↔ ls.map (s.translate acc cpl) = ps.map .ok
  | [], ps => by cases ps <;> simp [translateAll]
  | l :: ls, ps => by
    unfold translateAll
    cases hl : s.translate acc cpl l with
    | error c => cases ps <;> simp [raise, hl]
    | ok p =>
      simp only [bind_ok, translateAll_ok (ls := ls), Except.ok.injEq, List.map_cons, hl]
      cases ps with
      | nil => simp
      | cons q qs => simp only [List.cons.injEq, List.map_cons, Except.ok.injEq]; exact
          ⟨by rintro ⟨_, h, rfl, rfl⟩; exact ⟨rfl, h⟩, by rintro ⟨rfl, h⟩; exact ⟨qs, h, rfl, rfl⟩⟩

theorem translateAll_length {s : State} {acc : Access} {cpl : BitVec 2} {ls : List Word} {ps : List Nat}
    (h : s.translateAll acc cpl ls = .ok ps) : ps.length = ls.length := by
  simpa using (congrArg List.length (translateAll_ok.1 h)).symm

/-- When translation fails it is the page fault of one of the addresses, and not in Real mode. -/
theorem translateAll_error {s : State} {acc : Access} {cpl : BitVec 2} :
    ∀ {ls : List Word} {e : Stop}, s.translateAll acc cpl ls = .error e →
      ∃ l ∈ ls, ∃ code, s.translate acc cpl l = .error code ∧ s.mode ≠ .real ∧
        e = .fault (.raised (.pf code l) 14 s.pc)
  | [], e, h => by simp [translateAll] at h
  | l :: ls, e, h => by
    unfold translateAll at h
    cases hl : s.translate acc cpl l with
    | error c =>
      refine ⟨l, by simp, c, hl, ?_, ?_⟩
      · intro hr; simp [translate, hr] at hl
      · simpa [hl, raise, Exception.vector, eq_comm] using h
    | ok p =>
      simp only [hl, bind_error] at h
      obtain h | ⟨_, -, h⟩ := h
      · obtain ⟨l', hl', r⟩ := translateAll_error h
        exact ⟨l', by simp [hl'], r⟩
      · cases h

/-! ### Bytes of memory -/

theorem loadBytes_ok {s : State} : ∀ {as : List Nat} {bs : List Byte},
    s.loadBytes as = .ok bs ↔ (∀ a ∈ as, s.inPhysMem a = true) ∧ bs = as.map s.mem.read
  | [], bs => by
    simp only [loadBytes, Except.ok.injEq, List.map_nil]
    exact ⟨fun h => ⟨by simp, h.symm⟩, fun h => h.2.symm⟩
  | a :: as, bs => by
    unfold loadBytes
    cases ha : s.inPhysMem a
    · simp [refuse, ha]
    · simp only [if_true, bind_ok, loadBytes_ok (as := as), Except.ok.injEq, List.mem_cons, List.map_cons]
      constructor
      · rintro ⟨_, ⟨h1, rfl⟩, rfl⟩; exact ⟨by rintro b (rfl | hb); exacts [ha, h1 b hb], rfl⟩
      · rintro ⟨h, rfl⟩; exact ⟨_, ⟨fun b hb => h b (.inr hb), rfl⟩, rfl⟩

/-- A load that fails is outside PhysMem. -/
theorem loadBytes_error {s : State} : ∀ {as : List Nat} {e : Stop}, s.loadBytes as = .error e →
    ∃ a ∈ as, s.inPhysMem a = false ∧ e = .refused (.outsidePhysMem a)
  | [], e, h => by simp [loadBytes] at h
  | a :: as, e, h => by
    unfold loadBytes at h
    cases ha : s.inPhysMem a
    · exact ⟨a, by simp, ha, by simpa [ha, refuse, eq_comm] using h⟩
    · simp only [ha, if_true, bind_error] at h
      obtain h | ⟨_, -, h⟩ := h
      · obtain ⟨b, hb, r⟩ := loadBytes_error h
        exact ⟨b, by simp [hb], r⟩
      · cases h

/-- The bytes of a value at addresses, written one after the other. -/
def storeAll (s : State) : List Nat → Word → State
  | [], _ => s
  | a :: as, v => (s.storeByte a (v.setWidth 8)).storeAll as (v >>> 8)

@[simp] theorem inPhysMem_storeByte (s : State) (a b : Nat) (v : Byte) :
    (s.storeByte a v).inPhysMem b = s.inPhysMem b := rfl

theorem storeBytes_ok {t : State} : ∀ {as : List Nat} {s : State} {v : Word},
    s.storeBytes as v = .ok t ↔ (∀ a ∈ as, s.inPhysMem a = true) ∧ t = s.storeAll as v
  | [], s, v => by
    simp only [storeBytes, storeAll, Except.ok.injEq]
    exact ⟨fun h => ⟨by simp, h.symm⟩, fun h => h.2.symm⟩
  | a :: as, s, v => by
    unfold storeBytes
    cases ha : s.inPhysMem a
    · simp [refuse, ha]
    · simp [storeBytes_ok (as := as), storeAll, ha]

theorem storeBytes_error : ∀ {as : List Nat} {s : State} {v : Word} {e : Stop}, s.storeBytes as v = .error e →
    ∃ a ∈ as, s.inPhysMem a = false ∧ e = .refused (.outsidePhysMem a)
  | [], s, v, e, h => by simp [storeBytes] at h
  | a :: as, s, v, e, h => by
    unfold storeBytes at h
    cases ha : s.inPhysMem a
    · exact ⟨a, by simp, ha, by simpa [ha, refuse, eq_comm] using h⟩
    · obtain ⟨b, hb, hp, he⟩ := storeBytes_error (by simpa [ha] using h)
      exact ⟨b, by simp [hb], by simpa using hp, he⟩

/-- A store changes memory and the record of written addresses, nothing else. -/
theorem storeAll_eq : ∀ (as : List Nat) (s : State) (v : Word),
    s.storeAll as v = { s with mem := (s.storeAll as v).mem, written := (s.storeAll as v).written }
  | [], s, v => rfl
  | a :: as, s, v => by
    have h := storeAll_eq as (s.storeByte a (v.setWidth 8)) (v >>> 8)
    simp only [storeAll]
    rw [h]; rfl

/-- A store leaves every byte outside its addresses. -/
theorem storeAll_read {b : Nat} : ∀ {as : List Nat} (s : State) (v : Word), b ∉ as →
    (s.storeAll as v).mem.read b = s.mem.read b
  | [], s, v, _ => rfl
  | a :: as, s, v, h => by
    simp only [List.mem_cons, not_or] at h
    rw [storeAll, storeAll_read _ _ h.2, storeByte_mem, Memory.read_write_ne _ h.1]

theorem storeAll_wf : ∀ (as : List Nat) {s : State} (v : Word), s.mem.wf = true → (s.storeAll as v).mem.wf = true
  | [], _, _, h => h
  | a :: as, _, _, h => storeAll_wf as _ (storeByte_wf a _ h)

theorem storeAll_rising : ∀ (as : List Nat) {s : State} (v : Word), rising s.written = true →
    rising (s.storeAll as v).written = true
  | [], _, _, h => h
  | a :: as, _, _, h => storeAll_rising as _ (rising_insertAddr a h)

/-! ### The checked accesses -/

/-- An access reaches memory exactly when the segment test passes, alignment is in order and every byte translates. -/
theorem accessAddrs_ok {s : State} {acc : Access} {sg : SegName} {off : Word} {n c : Nat} {as : List Nat} :
    s.accessAddrs acc sg off n c = .ok as ↔
      s.segTest acc sg off n = true ∧ s.alignFault (s.linear sg off 0) n = false ∧
        s.translateAll acc s.cpl (s.linears sg off n) = .ok as := by
  unfold accessAddrs
  cases hs : s.segTest acc sg off n
  · simp [raise]
  · cases ha : s.alignFault (s.linear sg off 0) n
    · simp
    · cases ht : s.translateAll acc s.cpl (s.linears sg off n)
      · cases hr : s.reportsLater c <;> simp [raise]
      · simp [raise]

/-- An access that does not reach memory raises SegFault, #AC, or the page fault of one of its bytes. -/
theorem accessAddrs_error {s : State} {acc : Access} {sg : SegName} {off : Word} {n c : Nat} {e : Stop}
    (h : s.accessAddrs acc sg off n c = .error e) :
    (s.segTest acc sg off n = false ∧ e = .fault (.raised (s.segFault sg) (s.segFault sg).vector s.pc)) ∨
    (s.alignFault (s.linear sg off 0) n = true ∧ e = .fault (.raised .ac 17 s.pc)) ∨
    s.translateAll acc s.cpl (s.linears sg off n) = .error e := by
  unfold accessAddrs at h
  cases hs : s.segTest acc sg off n
  · left; simpa [hs, raise, eq_comm] using h
  · right
    cases ha : s.alignFault (s.linear sg off 0) n
    · right; simpa [hs, ha] using h
    · cases ht : s.translateAll acc s.cpl (s.linears sg off n) with
      | ok as => left; simpa [hs, ha, ht, raise, Exception.vector, eq_comm] using h
      | error e' =>
        cases hr : s.reportsLater c
        · left; simpa [hs, ha, ht, hr, raise, Exception.vector, eq_comm] using h
        · right; simpa [hs, ha, ht, hr] using h

/-- A read answers exactly the bytes at the translated addresses. -/
theorem segRead_ok {s : State} {sg : SegName} {off : Word} {n c : Nat} {v : Word} :
    s.segRead sg off n c = .ok v ↔
      ∃ as, s.accessAddrs .read sg off n c = .ok as ∧ (∀ a ∈ as, s.inPhysMem a = true) ∧
        v = leValue (as.map s.mem.read) := by
  simp only [segRead, bind_ok, loadBytes_ok, Except.ok.injEq]
  constructor
  · rintro ⟨as, h, _, ⟨hp, rfl⟩, rfl⟩; exact ⟨as, h, hp, rfl⟩
  · rintro ⟨as, h, hp, rfl⟩; exact ⟨as, h, _, ⟨hp, rfl⟩, rfl⟩

theorem segRead_error {s : State} {sg : SegName} {off : Word} {n c : Nat} {e : Stop}
    (h : s.segRead sg off n c = .error e) :
    s.accessAddrs .read sg off n c = .error e ∨ ∃ a, e = .refused (.outsidePhysMem a) := by
  simp only [segRead, bind_error] at h
  obtain h | ⟨as, -, h | ⟨_, -, h⟩⟩ := h
  · exact .inl h
  · obtain ⟨a, -, -, he⟩ := loadBytes_error h; exact .inr ⟨a, he⟩
  · cases h

/-! ### Completion -/

/-- An instruction leaves each register a program of the mode can reach (R24). -/
theorem regsAfter_get (s : State) {j : GprNum} (h : s.mode = .long64 ∨ j.val < 8) : s.regsAfter[j] = s.gpr j := by
  unfold regsAfter
  split
  · rfl
  · next hm =>
    have h8 : j.val < 8 := h.resolve_left hm
    match j, h8 with
    | ⟨0, _⟩, _ | ⟨1, _⟩, _ | ⟨2, _⟩, _ | ⟨3, _⟩, _ | ⟨4, _⟩, _ | ⟨5, _⟩, _ | ⟨6, _⟩, _ | ⟨7, _⟩, _ => rfl

/-- The state after completion: pc past the instruction, the inhibition as given, the registers no program reaches any value,
the free values moved on. -/
def completed (s : State) (len : Nat) (inhibit popSs : Bool) : State :=
  { s with
    regs := s.regsAfter
    pc := s.pc + BitVec.ofNat 64 len
    inhibit := inhibit
    afterPopSs := popSs
    draws := s.draws + 1 }

theorem complete_ok {s t : State} {len : Nat} {a b : Bool} :
    s.complete len a b = .ok t ↔ s.nextPcFits len = true ∧ t = s.completed len a b := by
  unfold complete completed
  cases h : s.nextPcFits len
  · simp [refuse]
  · simp only [if_true, Except.ok.injEq, true_and]; exact eq_comm

/-- Completion leaves each register a program of the mode can reach. -/
theorem gpr_completed (s : State) (len : Nat) (a b : Bool) {j : GprNum} (h : s.mode = .long64 ∨ j.val < 8) :
    (s.completed len a b).gpr j = s.gpr j := s.regsAfter_get h

theorem complete_error {s : State} {len : Nat} {a b : Bool} {e : Stop} :
    s.complete len a b = .error e ↔ s.nextPcFits len = false ∧ e = .refused .pcOverrun := by
  unfold complete
  cases h : s.nextPcFits len <;> simp [refuse, eq_comm]

end State

end Sys2Proof.Machine
end

