-- ==== Sys2Proof/Laws/Segment.lean ====
section
/-! SUPPORT. What the load of a segment register can do (Machine/Segment.lean). -/

namespace Sys2Proof.Machine.State

/-- A descriptor is the quadword at its eight translated bytes. -/
theorem readDescriptor_ok {s : State} {sel : BitVec 16} {d : Descriptor} :
    s.readDescriptor sel = .ok d ↔
      ∃ as, s.translateAll .read supervisor ((List.range 8).map (s.descriptorByte sel)) = .ok as ∧
        (∀ a ∈ as, s.inPhysMem a = true) ∧ d = ⟨leValue (as.map s.mem.read)⟩ := by
  simp only [readDescriptor, bind_ok, loadBytes_ok, Except.ok.injEq]
  constructor
  · rintro ⟨as, h, _, ⟨hp, rfl⟩, rfl⟩; exact ⟨as, h, hp, rfl⟩
  · rintro ⟨as, h, hp, rfl⟩; exact ⟨as, h, _, ⟨hp, rfl⟩, rfl⟩

/-- Reading a descriptor fails with a page fault, outside Real mode, or outside PhysMem. -/
theorem readDescriptor_error {s : State} {sel : BitVec 16} {e : Stop} (h : s.readDescriptor sel = .error e) :
    (∃ code addr, s.mode ≠ .real ∧ e = .fault (.raised (.pf code addr) 14 s.pc)) ∨ ∃ r, e = .refused r := by
  simp only [readDescriptor, bind_error] at h
  obtain h | ⟨as, -, h | ⟨_, -, h⟩⟩ := h
  · obtain ⟨l, -, c, -, hr, he⟩ := translateAll_error h; exact .inl ⟨c, l, hr, he⟩
  · obtain ⟨a, -, -, he⟩ := loadBytes_error h; exact .inr ⟨_, he⟩
  · cases h

/-- The memory a segment load leaves: as it was, or with byte 5 of the descriptor rewritten. -/
def TableWrite (s : State) (sel : BitVec 16) (u : State) : Prop :=
  u = s ∨ ∃ a v, s.translate .write supervisor (s.descriptorByte sel 5) = .ok a ∧ s.inPhysMem a = true ∧
    u = s.storeByte a v

/-- The accessed bit: nothing where it is set, else one byte rewritten with bit 0 set. -/
theorem markAccessed_ok {s t : State} {sel : BitVec 16} {d : Descriptor} :
    s.markAccessed sel d = .ok t ↔
      (d.accessed = true ∧ t = s) ∨
      (d.accessed = false ∧ ∃ a, s.translate .write supervisor (s.descriptorByte sel 5) = .ok a ∧
        s.inPhysMem a = true ∧ t = s.storeByte a d.accessedByte) := by
  unfold markAccessed
  cases d.accessed
  · simp only [Bool.false_eq_true, if_false, bind_ok, translateAll_ok, storeBytes_ok, false_and, false_or, true_and]
    constructor
    · rintro ⟨as, h, hp, rfl⟩
      match as with
      | [] => simp at h
      | [a] => exact ⟨a, by simpa using h, hp a (by simp), by simp [storeAll]⟩
      | _ :: _ :: _ => simp at h
    · rintro ⟨a, h, hp, rfl⟩
      exact ⟨[a], by simpa using h, by simpa using hp, by simp [storeAll]⟩
  · simp only [if_true, Except.ok.injEq, true_and, Bool.true_eq_false, false_and, or_false]; exact eq_comm

theorem markAccessed_tableWrite {s t : State} {sel : BitVec 16} {d : Descriptor} (h : s.markAccessed sel d = .ok t) :
    s.TableWrite sel t := by
  rcases markAccessed_ok.1 h with ⟨-, rfl⟩ | ⟨-, a, h1, h2, h3⟩
  · exact .inl rfl
  · exact .inr ⟨a, _, h1, h2, h3⟩

theorem markAccessed_error {s : State} {sel : BitVec 16} {d : Descriptor} {e : Stop} (h : s.markAccessed sel d = .error e) :
    (∃ code addr, s.mode ≠ .real ∧ e = .fault (.raised (.pf code addr) 14 s.pc)) ∨ ∃ r, e = .refused r := by
  unfold markAccessed at h
  split at h
  · cases h
  · obtain h | ⟨as, -, h⟩ := bind_error.1 h
    · obtain ⟨l, -, c, -, hr, he⟩ := translateAll_error h; exact .inl ⟨c, l, hr, he⟩
    · obtain ⟨a, -, -, he⟩ := storeBytes_error h; exact .inr ⟨_, he⟩

theorem loadFrom_ok {s t : State} {sg : SegName} {sel : BitVec 16} {d : Descriptor} :
    s.loadFrom sg sel d = .ok t ↔ ∃ u, s.markAccessed sel d = .ok u ∧ t = u.setSreg sg ⟨sel, d.hidden⟩ := by
  simp only [loadFrom, bind_ok, Except.ok.injEq, eq_comm (a := t)]

theorem loadFrom_error {s : State} {sg : SegName} {sel : BitVec 16} {d : Descriptor} {e : Stop}
    (h : s.loadFrom sg sel d = .error e) : s.markAccessed sel d = .error e := by
  obtain h | ⟨_, -, h⟩ := bind_error.1 h
  · exact h
  · cases h

/-- The load of SS succeeds exactly when every check of R218 passes. -/
theorem loadStackSegment_ok {s t : State} {sel : BitVec 16} :
    s.loadStackSegment sel = .ok t ↔
      isNull sel = false ∧ s.outsideTable sel = false ∧ ∃ d, s.readDescriptor sel = .ok d ∧
        selRpl sel = s.cpl ∧ SegKind.writableData d.kind = true ∧ d.dpl = s.cpl ∧ d.present = true ∧
        s.loadFrom .ss sel d = .ok t := by
  unfold loadStackSegment
  cases isNull sel
  · cases s.outsideTable sel
    · simp only [Bool.false_eq_true, if_false, bind_ok, true_and]
      refine exists_congr fun d => and_congr_right fun _ => ?_
      by_cases h1 : selRpl sel ≠ s.cpl ∨ SegKind.writableData d.kind = false ∨ d.dpl ≠ s.cpl
      · simp only [if_pos h1, raise, reduceCtorEq, false_iff]
        rintro ⟨a, b, c, -⟩
        simp [a, b, c] at h1
      · have h2 := h1
        simp only [not_or, not_not, Bool.not_eq_false] at h2
        cases hp : d.present <;> simp [h2.1, h2.2.1, h2.2.2, raise]
    · simp [raise]
  · simp [raise]

/-- The load of a data segment succeeds exactly when every check of R219 passes. -/
theorem loadDataSegment_ok {s t : State} {sg : SegName} {sel : BitVec 16} :
    s.loadDataSegment sg sel = .ok t ↔
      s.outsideTable sel = false ∧ ∃ d, s.readDescriptor sel = .ok d ∧
        SegKind.dataOrReadable d.kind = true ∧ s.privDenied sel d = .ok false ∧ d.present = true ∧
        s.loadFrom sg sel d = .ok t := by
  unfold loadDataSegment
  cases s.outsideTable sel
  · simp only [Bool.false_eq_true, if_false, bind_ok, true_and]
    refine exists_congr fun d => and_congr_right fun _ => ?_
    cases SegKind.dataOrReadable d.kind
    · simp [raise]
    · simp only [Bool.true_eq_false, if_false, bind_ok, true_and]
      constructor
      · rintro ⟨b, hb, h⟩
        cases b <;> cases hp : d.present <;> simp [hp, raise] at h
        exact ⟨hb, rfl, h⟩
      · rintro ⟨hb, hp, h⟩
        exact ⟨false, hb, by simpa [hp] using h⟩
  · simp [raise]

/-- A segment load that succeeds rewrites at most one byte of the table and the one segment register. -/
theorem loadSeg_ok {s t : State} {sg : SegName} {sel : BitVec 16} (h : s.loadSeg sg sel = .ok t) :
    ∃ u hid, s.TableWrite sel u ∧ t = u.setSreg sg ⟨sel, hid⟩ ∧
      (sg = .ss → s.protectedLike = true → hid.usable = true ∧ hid.present = true ∧
        SegKind.writableData hid.kind = true ∧ hid.dpl = s.cpl) := by
  have data : s.loadDataSegment sg sel = .ok t → ∃ u hid, s.TableWrite sel u ∧ t = u.setSreg sg ⟨sel, hid⟩ := by
    intro h
    obtain ⟨-, d, -, -, -, -, hl⟩ := loadDataSegment_ok.1 h
    obtain ⟨u, hu, rfl⟩ := loadFrom_ok.1 hl
    exact ⟨u, _, markAccessed_tableWrite hu, rfl⟩
  have prot :
      (if sg = .ss then s.loadStackSegment sel
        else if isNull sel then .ok (s.loadNull sg sel) else s.loadDataSegment sg sel) = .ok t →
      ∃ u hid, s.TableWrite sel u ∧ t = u.setSreg sg ⟨sel, hid⟩ ∧
        (sg = .ss → s.protectedLike = true → hid.usable = true ∧ hid.present = true ∧
          SegKind.writableData hid.kind = true ∧ hid.dpl = s.cpl) := by
    intro h
    split at h
    · next hs =>
      obtain ⟨-, -, d, -, -, hw, hd, -, hl⟩ := loadStackSegment_ok.1 h
      obtain ⟨u, hu, rfl⟩ := loadFrom_ok.1 hl
      exact ⟨u, _, markAccessed_tableWrite hu, by rw [hs], fun _ _ => ⟨rfl, rfl, hw, hd⟩⟩
    · next hs =>
      split at h
      · cases h; exact ⟨s, _, .inl rfl, rfl, fun e => absurd e hs⟩
      · obtain ⟨u, hid, h1, h2⟩ := data h
        exact ⟨u, hid, h1, h2, fun e => absurd e hs⟩
  unfold loadSeg at h
  cases hm : s.mode <;> simp only [hm] at h
  · cases h; exact ⟨s, _, .inl rfl, rfl, fun _ hp => by simp [protectedLike, hm] at hp⟩
  · exact prot h
  · cases h; exact ⟨s, _, .inl rfl, rfl, fun _ hp => by simp [protectedLike, hm] at hp⟩
  · exact prot h
  · split at h
    · cases h; exact ⟨s, _, .inl rfl, rfl, fun _ hp => by simp [protectedLike, hm] at hp⟩
    · obtain ⟨u, hid, h1, h2⟩ := data h
      exact ⟨u, hid, h1, h2, fun _ hp => by simp [protectedLike, hm] at hp⟩

/-- The privilege test never raises: it may only be refused, by the parameter. -/
theorem privDenied_error {s : State} {sel : BitVec 16} {d : Descriptor} {e : Stop} (h : s.privDenied sel d = .error e) :
    ∃ r, e = .refused r := by
  unfold privDenied privViolation at h
  split at h
  · dsimp only at h
    split at h
    · cases h
    · split at h
      · split at h
        · cases h
        · cases h
        · exact ⟨.dataSegPriv, by simpa [refuse, eq_comm] using h⟩
        · cases h
      · cases h
  · cases h

/-- What a segment load can raise: #GP(0) and #SS(selector) for SS, #NP(selector) for the others, #GP(selector), and page
faults of the table, none of them in Real or V8086 mode. -/
theorem loadSeg_fault {s : State} {sg : SegName} {sel : BitVec 16} {f : Fault}
    (h : s.loadSeg sg sel = .error (.fault f)) :
    s.mode ≠ .real ∧ s.mode ≠ .v8086 ∧
      ((s.protectedLike = true ∧ sg = .ss ∧
          (f = .raised (.gp (some 0)) 13 s.pc ∨ f = .raised (.ss (some (selectorCode sel))) 12 s.pc)) ∨
        f = .raised (.gp (some (selectorCode sel))) 13 s.pc ∨
        f = .raised (.np (selectorCode sel)) 11 s.pc ∨
        ∃ code addr, f = .raised (.pf code addr) 14 s.pc) := by
  have pf : ∀ {e : Stop}, ((∃ code addr, s.mode ≠ .real ∧ e = .fault (.raised (.pf code addr) 14 s.pc)) ∨
      ∃ r, e = .refused r) → e = .fault f → ∃ code addr, f = .raised (.pf code addr) 14 s.pc := by
    rintro e (⟨c, a, -, rfl⟩ | ⟨r, rfl⟩) he
    · exact ⟨c, a, by cases he; rfl⟩
    · cases he
  have stack : s.loadStackSegment sel = .error (.fault f) →
      f = .raised (.gp (some 0)) 13 s.pc ∨ f = .raised (.ss (some (selectorCode sel))) 12 s.pc ∨
      f = .raised (.gp (some (selectorCode sel))) 13 s.pc ∨ ∃ code addr, f = .raised (.pf code addr) 14 s.pc := by
    intro h
    unfold loadStackSegment at h
    split at h
    · left; simpa [raise, Exception.vector, eq_comm] using h
    · split at h
      · right; right; left; simpa [raise, Exception.vector, eq_comm] using h
      · obtain h | ⟨d, -, h⟩ := bind_error.1 h
        · right; right; right; exact pf (readDescriptor_error h) rfl
        · split at h
          · right; right; left; simpa [raise, Exception.vector, eq_comm] using h
          · split at h
            · right; left; simpa [raise, Exception.vector, eq_comm] using h
            · right; right; right; exact pf (markAccessed_error (loadFrom_error h)) rfl
  have data : s.loadDataSegment sg sel = .error (.fault f) →
      f = .raised (.gp (some (selectorCode sel))) 13 s.pc ∨ f = .raised (.np (selectorCode sel)) 11 s.pc ∨
        ∃ code addr, f = .raised (.pf code addr) 14 s.pc := by
    intro h
    unfold loadDataSegment at h
    split at h
    · left; simpa [raise, Exception.vector, eq_comm] using h
    · obtain h | ⟨d, -, h⟩ := bind_error.1 h
      · right; right; exact pf (readDescriptor_error h) rfl
      · split at h
        · left; simpa [raise, Exception.vector, eq_comm] using h
        · obtain h | ⟨b, -, h⟩ := bind_error.1 h
          · obtain ⟨r, hr⟩ := privDenied_error h; cases hr
          · split at h
            · left; simpa [raise, Exception.vector, eq_comm] using h
            · split at h
              · right; left; simpa [raise, Exception.vector, eq_comm] using h
              · right; right; exact pf (markAccessed_error (loadFrom_error h)) rfl
  have prot : s.protectedLike = true →
      (if sg = .ss then s.loadStackSegment sel
        else if isNull sel then .ok (s.loadNull sg sel) else s.loadDataSegment sg sel) = .error (.fault f) →
      (s.protectedLike = true ∧ sg = .ss ∧
          (f = .raised (.gp (some 0)) 13 s.pc ∨ f = .raised (.ss (some (selectorCode sel))) 12 s.pc)) ∨
        f = .raised (.gp (some (selectorCode sel))) 13 s.pc ∨
        f = .raised (.np (selectorCode sel)) 11 s.pc ∨
        ∃ code addr, f = .raised (.pf code addr) 14 s.pc := by
    intro hp h
    split at h
    · next hs =>
      rcases stack h with r | r | r | r
      · exact .inl ⟨hp, hs, .inl r⟩
      · exact .inl ⟨hp, hs, .inr r⟩
      · exact .inr (.inl r)
      · exact .inr (.inr (.inr r))
    · split at h
      · cases h
      · exact .inr (data h)
  unfold loadSeg at h
  cases hm : s.mode <;> simp only [hm] at h
  · cases h
  · exact ⟨by simp, by simp, prot (by simp [protectedLike, hm]) h⟩
  · cases h
  · exact ⟨by simp, by simp, prot (by simp [protectedLike, hm]) h⟩
  · split at h
    · cases h
    · exact ⟨by simp, by simp, .inr (data h)⟩

end Sys2Proof.Machine.State
end

