-- ==== Sys2Proof/Laws/Exec.lean ====
section
/-! SUPPORT. What one instruction can do: each meaning is `perform` of its body, and one lemma per shape of body (register,
memory, segment register) says exactly when it completes and with what state. -/

namespace Sys2Proof.Machine

/-- The body of each meaning, without the checks that come before it. -/
def body : Instr → State → Exec State
  | .popRm16 p o, s => popRm (.popRm16 p o) .s16 o s
  | .popRm32 p o, s => popRm (.popRm32 p o) .s32 o s
  | .popRm64 p o, s => popRm (.popRm64 p o) .s64 o s
  | .popR16 p d, s => popToReg (.popR16 p d) .s16 d s
  | .popR32 p d, s => popToReg (.popR32 p d) .s32 d s
  | .popR64 p d, s => popToReg (.popR64 p d) .s64 d s
  | .popDs p, s => popLegacySeg (.popDs p) .ds s
  | .popEs p, s => popLegacySeg (.popEs p) .es s
  | .popSs p, s => popLegacySeg (.popSs p) .ss s
  | .popFs16 p, s => popToSeg (.popFs16 p) .s16 .fs s
  | .popFs32 p, s => popToSeg (.popFs32 p) .s32 .fs s
  | .popFs64 p, s => popToSeg (.popFs64 p) .s64 .fs s
  | .popGs16 p, s => popToSeg (.popGs16 p) .s16 .gs s
  | .popGs32 p, s => popToSeg (.popGs32 p) .s32 .gs s
  | .popGs64 p, s => popToSeg (.popGs64 p) .s64 .gs s

theorem exec_eq_perform (i : Instr) (s : State) : exec i s = perform i s (body i s) := by
  cases i <;> rfl

theorem exec_next {i : Instr} {s t : State} :
    exec i s = .next t ↔ i.wf s.ctx = true ∧ i.prefixes.locked = false ∧ body i s = .ok t := by
  rw [exec_eq_perform, perform_next]

theorem exec_fault {i : Instr} {s : State} {f : Fault} :
    exec i s = .fault f ↔
      i.wf s.ctx = true ∧
        ((i.prefixes.locked = true ∧ f = .raised .ud 6 s.pc) ∨
          (i.prefixes.locked = false ∧ body i s = .error (.fault f))) := by
  rw [exec_eq_perform, perform_fault]

/-- What no instruction writes, and what only completion writes. -/
structure SameControl (s t : State) : Prop where
  rflags : t.rflags = s.rflags
  cs : t.sregs.cs = s.sregs.cs
  mode : t.mode = s.mode
  cpl : t.cpl = s.cpl
  gdtr : t.gdtr = s.gdtr
  ldtr : t.ldtr = s.ldtr
  acEnable : t.acEnable = s.acEnable
  physMem : t.physMem = s.physMem
  paging : t.paging = s.paging
  offers : t.offers = s.offers
  params : t.params = s.params
  fetched : t.fetched = s.fetched

namespace SameControl

theorem rfl' (s : State) : SameControl s s := by constructor <;> rfl

theorem trans' {s t u : State} (h : SameControl s t) (k : SameControl t u) : SameControl s u := by
  constructor
  · rw [k.rflags, h.rflags]
  · rw [k.cs, h.cs]
  · rw [k.mode, h.mode]
  · rw [k.cpl, h.cpl]
  · rw [k.gdtr, h.gdtr]
  · rw [k.ldtr, h.ldtr]
  · rw [k.acEnable, h.acEnable]
  · rw [k.physMem, h.physMem]
  · rw [k.paging, h.paging]
  · rw [k.offers, h.offers]
  · rw [k.params, h.params]
  · rw [k.fetched, h.fetched]

theorem setGpr (s : State) (i : GprNum) (g : Gpr) : SameControl s (s.setGpr i g) := by constructor <;> rfl

theorem writeReg (s : State) (n : Size) (i : GprNum) (v : Word) : SameControl s (s.writeReg n i v) := by
  obtain ⟨g, h⟩ := State.writeReg_eq s n i v
  rw [h]; exact setGpr s i g

theorem setSreg (s : State) {n : SegName} (r : SegReg) (h : n ≠ .cs) : SameControl s (s.setSreg n r) := by
  constructor <;> first | rfl | exact State.setSreg_cs s r h

theorem storeByte (s : State) (a : Nat) (v : Byte) : SameControl s (s.storeByte a v) := by constructor <;> rfl

theorem storeAll (s : State) (as : List Nat) (v : Word) : SameControl s (s.storeAll as v) := by
  rw [State.storeAll_eq]; constructor <;> rfl

theorem completed (s : State) (len : Nat) (a b : Bool) : SameControl s (s.completed len a b) := by constructor <;> rfl

end SameControl

namespace State

theorem nextPcFits_congr {s t : State} (h : SameControl s t) (hp : t.pc = s.pc) (len : Nat) :
    t.nextPcFits len = s.nextPcFits len := by
  simp only [nextPcFits, h.mode, h.cs, hp]

theorem storeAll_pc (s : State) (as : List Nat) (v : Word) : (s.storeAll as v).pc = s.pc := by rw [storeAll_eq]

theorem storeAll_regs (s : State) (as : List Nat) (v : Word) : (s.storeAll as v).regs = s.regs := by rw [storeAll_eq]

theorem storeAll_sregs (s : State) (as : List Nat) (v : Word) : (s.storeAll as v).sregs = s.sregs := by rw [storeAll_eq]

theorem storeAll_draws (s : State) (as : List Nat) (v : Word) : (s.storeAll as v).draws = s.draws := by rw [storeAll_eq]

theorem storeAll_inPhysMem (s : State) (as : List Nat) (v : Word) (a : Nat) :
    (s.storeAll as v).inPhysMem a = s.inPhysMem a := by
  simp only [inPhysMem, (SameControl.storeAll s as v).physMem]

theorem writeSp_inPhysMem (s : State) (n : Size) (v : Word) (a : Nat) : (s.writeSp n v).inPhysMem a = s.inPhysMem a := by
  simp [inPhysMem, writeSp]

theorem tableWrite_sameControl {s u : State} {sel : BitVec 16} (h : s.TableWrite sel u) : SameControl s u := by
  rcases h with rfl | ⟨a, v, -, -, rfl⟩
  · exact SameControl.rfl' _
  · exact SameControl.storeByte s a v

theorem tableWrite_pc {s u : State} {sel : BitVec 16} (h : s.TableWrite sel u) : u.pc = s.pc := by
  rcases h with rfl | ⟨a, v, -, -, rfl⟩ <;> rfl

theorem tableWrite_regs {s u : State} {sel : BitVec 16} (h : s.TableWrite sel u) : u.regs = s.regs := by
  rcases h with rfl | ⟨a, v, -, -, rfl⟩ <;> rfl

theorem tableWrite_sregs {s u : State} {sel : BitVec 16} (h : s.TableWrite sel u) : u.sregs = s.sregs := by
  rcases h with rfl | ⟨a, v, -, -, rfl⟩ <;> rfl

/-- A reported read that succeeds is the stack read; one that fails is the fault of the read or of the destination. -/
theorem reportedRead_ok {s : State} {read : Exec Word} {dest : Exec (List Nat)} {v : Word} :
    s.reportedRead read dest = .ok v ↔ read = .ok v := by
  unfold reportedRead; split <;> simp

theorem reportedRead_error {s : State} {read : Exec Word} {dest : Exec (List Nat)} {e : Stop}
    (h : s.reportedRead read dest = .error e) : read = .error e ∨ dest = .error e := by
  unfold reportedRead at h
  split at h
  · split at h
    · right; simpa using h
    · left; simpa using h
  · exact .inl h

end State

/-- POP into a register completes exactly when the stack read succeeds and pc stays in bounds. -/
theorem popToReg_ok {i : Instr} {n : Size} {d : GprNum} {s t : State} :
    popToReg i n d s = .ok t ↔
      ∃ v, s.stackRead n.bytes = .ok v ∧ s.nextPcFits i.length = true ∧
        t = ((s.writeSp s.stackAddrSize (s.spAfter n)).writeReg n d v).completed i.length false false := by
  simp only [popToReg, bind_ok, State.complete_ok]
  refine exists_congr fun v => and_congr_right fun _ => ?_
  rw [State.nextPcFits_congr (s := s)]
  · exact (SameControl.writeReg _ _ _ _).trans' (SameControl.writeReg _ _ _ _)
  · simp [State.writeSp]

/-- POP into memory completes exactly when the read and the write reach memory and pc stays in bounds. -/
theorem popToMem_ok {i : Instr} {n : Size} {m : MemOperand} {s t : State} :
    popToMem i n m s = .ok t ↔
      ∃ v as, s.stackRead n.bytes = .ok v ∧ s.destAddrs i.prefixes n m i.length = .ok as ∧
        (∀ a ∈ as, s.inPhysMem a = true) ∧ s.nextPcFits i.length = true ∧
        t = ((s.writeSp s.stackAddrSize (s.spAfter n)).storeAll as v).completed i.length false false := by
  simp only [popToMem, bind_ok, State.complete_ok, State.reportedRead_ok, State.storeBytes_ok, State.writeSp_inPhysMem]
  have key (as : List Nat) (v : Word) :
      ((s.writeSp s.stackAddrSize (s.spAfter n)).storeAll as v).nextPcFits i.length = s.nextPcFits i.length := by
    apply State.nextPcFits_congr
    · exact (SameControl.writeReg _ _ _ _).trans' (SameControl.storeAll _ _ _)
    · simp [State.writeSp, State.storeAll_pc]
  constructor
  · rintro ⟨v, hv, as, has, u, ⟨hp, rfl⟩, hf, rfl⟩
    exact ⟨v, as, hv, has, hp, by rw [← key]; exact hf, rfl⟩
  · rintro ⟨v, as, hv, has, hp, hf, rfl⟩
    exact ⟨v, hv, as, has, _, ⟨hp, rfl⟩, by rw [key]; exact hf, rfl⟩

/-- POP into a segment register completes exactly when the stack read and the load succeed and pc stays in bounds. -/
theorem popToSeg_ok {i : Instr} {n : Size} {sg : SegName} {s t : State} (hc : sg ≠ .cs) :
    popToSeg i n sg s = .ok t ↔
      ∃ raw u, s.stackRead (s.sregReadBytes n) = .ok raw ∧ s.loadSeg sg (raw.setWidth 16) = .ok u ∧
        s.nextPcFits i.length = true ∧
        t = (u.writeSp s.stackAddrSize (s.spAfter n)).completed i.length
          (sg == .ss && s.inhibitAfterPopSs) (sg == .ss) := by
  simp only [popToSeg, bind_ok, State.complete_ok]
  have key (sel : BitVec 16) (u : State) (h : s.loadSeg sg sel = .ok u) :
      (u.writeSp s.stackAddrSize (s.spAfter n)).nextPcFits i.length = s.nextPcFits i.length := by
    obtain ⟨w, hid, hw, rfl, -⟩ := State.loadSeg_ok h
    apply State.nextPcFits_congr
    · exact ((State.tableWrite_sameControl hw).trans' (SameControl.setSreg _ _ hc)).trans' (SameControl.writeReg _ _ _ _)
    · simp [State.writeSp, State.tableWrite_pc hw]
  constructor
  · rintro ⟨raw, hr, u, hu, hf, rfl⟩
    exact ⟨raw, u, hr, hu, by rw [← key _ u hu]; exact hf, rfl⟩
  · rintro ⟨raw, u, hr, hu, hf, rfl⟩
    exact ⟨raw, hr, u, hu, by rw [key _ u hu]; exact hf, rfl⟩

/-- POP DS, ES and SS complete only outside Long64, where they are POP into the segment register. -/
theorem popLegacySeg_ok {i : Instr} {sg : SegName} {s t : State} :
    popLegacySeg i sg s = .ok t ↔ s.mode ≠ .long64 ∧ popToSeg i (s.ctx.operandSize i.prefixes) sg s = .ok t := by
  unfold popLegacySeg
  split
  · next h => simp [h, raise]
  · next h => simp [h]

/-- The segment register an instruction loads, if it is one of the nine of format ZO. -/
def segDest : Instr → Option SegName
  | .popDs _ => some .ds
  | .popEs _ => some .es
  | .popSs _ => some .ss
  | .popFs16 _ | .popFs32 _ | .popFs64 _ => some .fs
  | .popGs16 _ | .popGs32 _ | .popGs64 _ => some .gs
  | _ => none

/-- Every instruction's body has one of three shapes. -/
theorem body_cases {i : Instr} {s t : State} (h : body i s = .ok t) :
    (∃ n d, popToReg i n d s = .ok t) ∨ (∃ n m, popToMem i n m s = .ok t) ∨
      (∃ n sg, segDest i = some sg ∧ sg ≠ .cs ∧ popToSeg i n sg s = .ok t) := by
  cases i with
  | popRm16 p o => cases o with
    | reg d => exact .inl ⟨_, d, h⟩
    | mem m => exact .inr (.inl ⟨_, m, h⟩)
  | popRm32 p o => cases o with
    | reg d => exact .inl ⟨_, d, h⟩
    | mem m => exact .inr (.inl ⟨_, m, h⟩)
  | popRm64 p o => cases o with
    | reg d => exact .inl ⟨_, d, h⟩
    | mem m => exact .inr (.inl ⟨_, m, h⟩)
  | popR16 p d => exact .inl ⟨_, d, h⟩
  | popR32 p d => exact .inl ⟨_, d, h⟩
  | popR64 p d => exact .inl ⟨_, d, h⟩
  | popDs p => exact .inr (.inr ⟨_, .ds, rfl, by simp, (popLegacySeg_ok.1 h).2⟩)
  | popEs p => exact .inr (.inr ⟨_, .es, rfl, by simp, (popLegacySeg_ok.1 h).2⟩)
  | popSs p => exact .inr (.inr ⟨_, .ss, rfl, by simp, (popLegacySeg_ok.1 h).2⟩)
  | popFs16 p => exact .inr (.inr ⟨_, .fs, rfl, by simp, h⟩)
  | popFs32 p => exact .inr (.inr ⟨_, .fs, rfl, by simp, h⟩)
  | popFs64 p => exact .inr (.inr ⟨_, .fs, rfl, by simp, h⟩)
  | popGs16 p => exact .inr (.inr ⟨_, .gs, rfl, by simp, h⟩)
  | popGs32 p => exact .inr (.inr ⟨_, .gs, rfl, by simp, h⟩)
  | popGs64 p => exact .inr (.inr ⟨_, .gs, rfl, by simp, h⟩)

end Sys2Proof.Machine
end

