-- ==== Sys2Proof/Laws/Faults.lean ====
section
/-! SUPPORT. Which faults an instruction's body can stop with: those of an access, those of a segment load, and #UD. -/

namespace Sys2Proof.Machine

/-- The faults of a checked access: SegFault, and outside Real mode #AC and #PF (R242 to R248). -/
def AccessFault (s : State) (f : Fault) : Prop :=
  (∃ sg, f = .raised (s.segFault sg) (s.segFault sg).vector s.pc) ∨
    (s.mode ≠ .real ∧ f = .raised .ac 17 s.pc) ∨
    (s.mode ≠ .real ∧ ∃ code a, f = .raised (.pf code a) 14 s.pc)

/-- The faults of a segment load, in none of Real and V8086 mode (R218, R219). -/
def LoadFault (s : State) (f : Fault) : Prop :=
  s.mode ≠ .real ∧ s.mode ≠ .v8086 ∧
    ((s.protectedLike = true ∧ (f = .raised (.gp (some 0)) 13 s.pc ∨ ∃ c, f = .raised (.ss (some c)) 12 s.pc)) ∨
      (∃ c, f = .raised (.gp (some c)) 13 s.pc) ∨ (∃ c, f = .raised (.np c) 11 s.pc) ∨
      ∃ code a, f = .raised (.pf code a) 14 s.pc)

theorem accessAddrs_fault {s : State} {acc : Access} {sg : SegName} {off : Word} {n c : Nat} {f : Fault}
    (h : s.accessAddrs acc sg off n c = .error (.fault f)) : AccessFault s f := by
  rcases State.accessAddrs_error h with ⟨-, h⟩ | ⟨ha, h⟩ | h
  · cases h; exact .inl ⟨_, rfl⟩
  · cases h
    refine .inr (.inl ⟨?_, rfl⟩)
    intro hm; simp [State.alignFault, hm] at ha
  · obtain ⟨l, -, c, -, hr, he⟩ := State.translateAll_error h
    cases he; exact .inr (.inr ⟨hr, _, _, rfl⟩)

theorem stackRead_fault {s : State} {n : Nat} {f : Fault} (h : s.stackRead n = .error (.fault f)) :
    AccessFault s f := by
  rcases State.segRead_error h with h | ⟨a, h⟩
  · exact accessAddrs_fault h
  · cases h

theorem destAddrs_fault {s : State} {p : Prefixes} {n : Size} {m : MemOperand} {len : Nat} {f : Fault}
    (h : s.destAddrs p n m len = .error (.fault f)) : AccessFault s f := by
  obtain h | ⟨off, -, h⟩ := bind_error.1 h
  · unfold State.destOffset at h
    dsimp only at h
    split at h
    · obtain h | ⟨x, -, h⟩ := bind_error.1 h
      · unfold State.spBase at h
        split at h
        · split at h <;> cases h
        · cases h
      · cases h
    · cases h
  · exact accessAddrs_fault h

theorem popToReg_fault {s : State} {i : Instr} {n : Size} {d : GprNum} {f : Fault}
    (h : popToReg i n d s = .error (.fault f)) : AccessFault s f := by
  obtain h | ⟨v, -, h⟩ := bind_error.1 h
  · exact stackRead_fault h
  · obtain ⟨-, h⟩ := State.complete_error.1 h; cases h

theorem popToMem_fault {s : State} {i : Instr} {n : Size} {m : MemOperand} {f : Fault}
    (h : popToMem i n m s = .error (.fault f)) : AccessFault s f := by
  obtain h | ⟨v, -, h⟩ := bind_error.1 h
  · rcases State.reportedRead_error h with h | h
    · exact stackRead_fault h
    · exact destAddrs_fault h
  · obtain h | ⟨as, -, h⟩ := bind_error.1 h
    · exact destAddrs_fault h
    · obtain h | ⟨t, -, h⟩ := bind_error.1 h
      · obtain ⟨a, -, -, h⟩ := State.storeBytes_error h; cases h
      · obtain ⟨-, h⟩ := State.complete_error.1 h; cases h

theorem popRm_fault {s : State} {i : Instr} {n : Size} {o : RmOperand} {f : Fault}
    (h : popRm i n o s = .error (.fault f)) : AccessFault s f := by
  cases o with
  | reg d => exact popToReg_fault h
  | mem m => exact popToMem_fault h

theorem popToSeg_fault {s : State} {i : Instr} {n : Size} {sg : SegName} {f : Fault}
    (h : popToSeg i n sg s = .error (.fault f)) : AccessFault s f ∨ LoadFault s f := by
  obtain h | ⟨v, -, h⟩ := bind_error.1 h
  · exact .inl (stackRead_fault h)
  · obtain h | ⟨t, -, h⟩ := bind_error.1 h
    · obtain ⟨h1, h2, h⟩ := State.loadSeg_fault h
      refine .inr ⟨h1, h2, ?_⟩
      rcases h with ⟨a, -, h | h⟩ | h | h | h
      · exact .inl ⟨a, .inl h⟩
      · exact .inl ⟨a, .inr ⟨_, h⟩⟩
      · exact .inr (.inl ⟨_, h⟩)
      · exact .inr (.inr (.inl ⟨_, h⟩))
      · exact .inr (.inr (.inr h))
    · obtain ⟨-, h⟩ := State.complete_error.1 h; cases h

theorem popLegacySeg_fault {s : State} {i : Instr} {sg : SegName} {f : Fault}
    (h : popLegacySeg i sg s = .error (.fault f)) :
    f = .raised .ud 6 s.pc ∨ AccessFault s f ∨ LoadFault s f := by
  unfold popLegacySeg at h
  split at h
  · cases h; exact .inl rfl
  · exact .inr (popToSeg_fault h)

/-- Every fault of a body is #UD, that of an access or that of a segment load. -/
theorem body_fault {s : State} {i : Instr} {f : Fault} (h : body i s = .error (.fault f)) :
    f = .raised .ud 6 s.pc ∨ AccessFault s f ∨ LoadFault s f := by
  cases i with
  | popRm16 p o => exact .inr (.inl (popRm_fault h))
  | popRm32 p o => exact .inr (.inl (popRm_fault h))
  | popRm64 p o => exact .inr (.inl (popRm_fault h))
  | popR16 p d => exact .inr (.inl (popToReg_fault h))
  | popR32 p d => exact .inr (.inl (popToReg_fault h))
  | popR64 p d => exact .inr (.inl (popToReg_fault h))
  | popDs p => exact popLegacySeg_fault h
  | popEs p => exact popLegacySeg_fault h
  | popSs p => exact popLegacySeg_fault h
  | popFs16 p => exact .inr (popToSeg_fault h)
  | popFs32 p => exact .inr (popToSeg_fault h)
  | popFs64 p => exact .inr (popToSeg_fault h)
  | popGs16 p => exact .inr (popToSeg_fault h)
  | popGs32 p => exact .inr (popToSeg_fault h)
  | popGs64 p => exact .inr (popToSeg_fault h)

/-- What writes no executed byte goes on as it is. -/
theorem sparingCode_next {o : Host.Outcome State Fault Refusal} {t : State} :
    sparingCode o = .next t ↔ o = .next t ∧ t.codeIntact = true := by
  cases o with
  | next u => cases h : u.codeIntact <;> simp only [sparingCode, h] <;> constructor <;> rintro ⟨⟩ <;> simp_all
  | fault f => simp [sparingCode]
  | refused r => simp [sparingCode]

/-- The record of written bytes says whether an executed one is among them. -/
theorem State.codeIntact_iff {s : State} : s.codeIntact = true ↔ ∀ a ∈ s.written, a ∉ s.fetched := by
  simp [State.codeIntact]

/-- A step that goes on fetched an instruction and ran it, and no executed byte is written. -/
theorem step_next {s t : State} (h : step s = .next t) :
    ∃ i, s.fetchInstr = .ok i ∧ exec i (s.enter i.length) = .next t ∧ t.codeIntact = true := by
  unfold step at h
  split at h
  · cases h
  · split at h
    · cases h
    · next i hi => exact ⟨i, hi, sparingCode_next.1 h⟩

end Sys2Proof.Machine
end

