-- ==== Sys2Proof/Laws/Boundary.lean ====
section
/-! SUPPORT. Which refusals a meaning can end in: four of its own and an ill-formed term. What the boundary and the fetch refuse
(a delivered interrupt, bytes that are no POP, bytes the run wrote, a write to executed bytes) no meaning does. -/

namespace Sys2Proof.Machine

/-- The refusals an instruction's body can end in. -/
def OwnRefusal : Refusal → Prop
  | .outsidePhysMem _ | .pcOverrun | .wrapEA16 | .dataSegPriv => True
  | _ => False

/-- The operation refuses nothing but for one of those reasons. -/
def RefusesOwn {α : Type} (x : Exec α) : Prop := ∀ r, x = .error (.refused r) → OwnRefusal r

namespace RefusesOwn

theorem ok {α : Type} (a : α) : RefusesOwn (.ok a : Exec α) := fun _ h => by cases h

theorem raise {α : Type} (s : State) (e : Exception) : RefusesOwn (raise s e : Exec α) := fun _ h => by cases h

theorem refuse {α : Type} {r : Refusal} (h : OwnRefusal r) : RefusesOwn (refuse r : Exec α) := fun _ e => by
  cases e; exact h

theorem bind {α β : Type} {x : Exec α} {f : α → Exec β} (hx : RefusesOwn x) (hf : ∀ a, RefusesOwn (f a)) :
    RefusesOwn (x >>= f) := by
  intro r h
  obtain h | ⟨a, -, h⟩ := bind_error.1 h
  · exact hx r h
  · exact hf a r h

theorem translateAll (s : State) (acc : Access) (cpl : BitVec 2) : ∀ ls, RefusesOwn (s.translateAll acc cpl ls)
  | [] => ok _
  | l :: ls => by
    unfold State.translateAll
    split
    · exact raise _ _
    · exact bind (translateAll s acc cpl ls) fun _ => ok _

theorem loadBytes (s : State) : ∀ as, RefusesOwn (s.loadBytes as)
  | [] => ok _
  | a :: as => by
    unfold State.loadBytes
    split
    · exact bind (loadBytes s as) fun _ => ok _
    · exact refuse trivial

theorem storeBytes : ∀ (as : List Nat) (s : State) (v : Word), RefusesOwn (s.storeBytes as v)
  | [], _, _ => ok _
  | a :: as, s, v => by
    unfold State.storeBytes
    split
    · exact storeBytes as _ _
    · exact refuse trivial

theorem accessAddrs (s : State) (acc : Access) (sg : SegName) (off : Word) (n c : Nat) :
    RefusesOwn (s.accessAddrs acc sg off n c) := by
  unfold State.accessAddrs
  dsimp only
  have ht := translateAll s acc s.cpl (s.linears sg off n)
  split
  · split
    · split
      · next h => split
                  · rw [h] at ht; intro r e; cases e; exact ht _ rfl
                  · exact raise _ _
      · exact raise _ _
    · exact ht
  · exact raise _ _

theorem stackRead (s : State) (n : Nat) : RefusesOwn (s.stackRead n) :=
  bind ((accessAddrs _ _ _ _ _ _)) fun _ => bind ((loadBytes _ _)) fun _ => ok _

theorem complete (s : State) (len : Nat) (a b : Bool) : RefusesOwn (s.complete len a b) := by
  unfold State.complete
  split
  · exact ok _
  · exact refuse trivial

theorem popToReg (i : Instr) (n : Size) (d : GprNum) (s : State) : RefusesOwn (popToReg i n d s) :=
  bind ((stackRead _ _)) fun _ => (complete _ _ _ _)

theorem destAddrs (s : State) (p : Prefixes) (n : Size) (m : MemOperand) (len : Nat) :
    RefusesOwn (s.destAddrs p n m len) := by
  refine bind ?_ fun _ => (accessAddrs _ _ _ _ _ _)
  unfold State.destOffset
  dsimp only
  split
  · refine bind ?_ fun _ => ok _
    unfold State.spBase
    split
    · split <;> first | exact ok _ | exact refuse trivial
    · exact ok _
  · exact ok _

theorem popToMem (i : Instr) (n : Size) (m : MemOperand) (s : State) : RefusesOwn (popToMem i n m s) := by
  refine bind ?_ fun _ => bind ((destAddrs _ _ _ _ _)) fun _ => bind ((storeBytes _ _ _)) fun _ => (complete _ _ _ _)
  unfold State.reportedRead
  split
  · exact fun _ h => by cases h
  · exact (stackRead _ _)

theorem markAccessed (s : State) (sel : BitVec 16) (d : Descriptor) : RefusesOwn (s.markAccessed sel d) := by
  unfold State.markAccessed
  split
  · exact ok _
  · exact bind ((translateAll _ _ _ _)) fun _ => (storeBytes _ _ _)

theorem loadFrom (s : State) (sg : SegName) (sel : BitVec 16) (d : Descriptor) : RefusesOwn (s.loadFrom sg sel d) :=
  bind ((markAccessed _ _ _)) fun _ => ok _

theorem readDescriptor (s : State) (sel : BitVec 16) : RefusesOwn (s.readDescriptor sel) :=
  bind ((translateAll _ _ _ _)) fun _ => bind ((loadBytes _ _)) fun _ => ok _

theorem privDenied (s : State) (sel : BitVec 16) (d : Descriptor) : RefusesOwn (s.privDenied sel d) := by
  unfold State.privDenied State.privViolation
  dsimp only
  repeat' split
  all_goals first | exact ok _ | exact refuse trivial

theorem loadStackSegment (s : State) (sel : BitVec 16) : RefusesOwn (s.loadStackSegment sel) := by
  unfold State.loadStackSegment
  split
  · exact raise _ _
  · split
    · exact raise _ _
    · refine bind ((readDescriptor _ _)) fun d => ?_
      repeat' split
      all_goals first | exact raise _ _ | exact (loadFrom _ _ _ _)

theorem loadDataSegment (s : State) (sg : SegName) (sel : BitVec 16) : RefusesOwn (s.loadDataSegment sg sel) := by
  unfold State.loadDataSegment
  split
  · exact raise _ _
  · refine bind ((readDescriptor _ _)) fun d => ?_
    split
    · exact raise _ _
    · refine bind ((privDenied _ _ _)) fun b => ?_
      repeat' split
      all_goals first | exact raise _ _ | exact (loadFrom _ _ _ _)

theorem loadSeg (s : State) (sg : SegName) (sel : BitVec 16) : RefusesOwn (s.loadSeg sg sel) := by
  unfold State.loadSeg
  repeat' split
  all_goals first | exact ok _ | exact (loadStackSegment _ _) | exact (loadDataSegment _ _ _)

theorem popToSeg (i : Instr) (n : Size) (sg : SegName) (s : State) : RefusesOwn (popToSeg i n sg s) :=
  bind ((stackRead _ _)) fun _ => bind ((loadSeg _ _ _)) fun _ => (complete _ _ _ _)

theorem popLegacySeg (i : Instr) (sg : SegName) (s : State) : RefusesOwn (popLegacySeg i sg s) := by
  unfold Sys2Proof.Machine.popLegacySeg
  split
  · exact raise _ _
  · exact (popToSeg _ _ _ _)

theorem popRm (i : Instr) (n : Size) (o : RmOperand) (s : State) : RefusesOwn (popRm i n o s) := by
  cases o with
  | reg d => exact popToReg _ _ _ _
  | mem m => exact popToMem _ _ _ _

theorem body (i : Instr) (s : State) : RefusesOwn (body i s) := by
  cases i with
  | popRm16 p o => exact popRm _ _ _ _
  | popRm32 p o => exact popRm _ _ _ _
  | popRm64 p o => exact popRm _ _ _ _
  | popR16 p d => exact popToReg _ _ _ _
  | popR32 p d => exact popToReg _ _ _ _
  | popR64 p d => exact popToReg _ _ _ _
  | popDs p => exact popLegacySeg _ _ _
  | popEs p => exact popLegacySeg _ _ _
  | popSs p => exact popLegacySeg _ _ _
  | popFs16 p => exact popToSeg _ _ _ _
  | popFs32 p => exact popToSeg _ _ _ _
  | popFs64 p => exact popToSeg _ _ _ _
  | popGs16 p => exact popToSeg _ _ _ _
  | popGs32 p => exact popToSeg _ _ _ _
  | popGs64 p => exact popToSeg _ _ _ _

end RefusesOwn

/-- What an instruction can be refused for. -/
theorem exec_refused {i : Instr} {s : State} {r : Refusal} (h : exec i s = .refused r) : r = .illFormed ∨ OwnRefusal r := by
  rw [exec_eq_perform, perform] at h
  split at h
  · split at h
    · cases h
    · exact .inr (RefusesOwn.body i s r (toOutcome_refused.1 h))
  · cases h; exact .inl rfl

/-- Fetching bytes stops for a reason of its own. -/
theorem State.fetchFrom_refusal (s : State) {r : Refusal} (h : r = .interruptDelivered ∨ r = .fetchModified ∨ r = .codeWritten) :
    ∀ (count k : Nat), (s.fetchFrom count k).2 ≠ some r
  | 0, _ => by simp [fetchFrom]
  | count + 1, k => by
    unfold fetchFrom
    split
    · next q hq =>
      simp only [fetchByte] at hq
      rintro e
      cases e
      split at hq
      · next r' h' =>
        cases hq
        simp only [fetchRefusal?] at h'
        split at h' <;> split at h' <;> cases h' <;> simp at h
      · split at hq
        · cases hq; simp at h
        · split at hq <;> cases hq; simp at h
    · exact fetchFrom_refusal s h count (k + 1)

/-- Of the refusals at a boundary the fetch gives one only, and that exactly where the run wrote a byte of the instruction found
at pc. -/
theorem State.fetchInstr_refusal {s : State} {r : Refusal} (h : s.fetchInstr = .error r)
    (hr : r = .interruptDelivered ∨ r = .fetchModified ∨ r = .codeWritten) :
    r = .fetchModified ∧ ∃ a ∈ s.codeAddrs, a ∈ s.written := by
  unfold fetchInstr at h
  unfold codeAddrs
  split at h
  · next i rest hd =>
    rw [hd]
    split at h
    · next hm =>
      cases h
      simp only [fetchedModified, List.any_eq_true, List.contains_iff_mem] at hm
      exact ⟨rfl, hm⟩
    · cases h
  · have := fetchFrom_refusal s hr maxInstrLength 0
    cases hf : (s.fetchFrom maxInstrLength 0).2 with
    | none => rw [hf] at h; cases h; simp at hr
    | some q => rw [hf] at h this; cases h; exact absurd rfl this
  · cases h; simp at hr

/-- The bytes recorded on entering the instruction at pc are its own. -/
theorem State.codeAddrs_of_fetchInstr {s : State} {i : Instr} (h : s.fetchInstr = .ok i) :
    s.codeAddrs = s.fetchAddrs i.length := by
  unfold fetchInstr at h
  unfold codeAddrs
  split at h
  · next hd => rw [hd]; split at h <;> cases h; rfl
  · cases h
  · cases h

/-- Where a step at which no interrupt is due is refused, the fetch is, or the instruction is, or it wrote an executed byte. -/
theorem step_refused {s : State} {r : Refusal} (hi : s.interruptDue = false) (h : step s = .refused r) :
    s.fetchInstr = .error r ∨
      ∃ i, s.fetchInstr = .ok i ∧
        (exec i (s.enter i.length) = .refused r ∨
          r = .codeWritten ∧ ∃ t, exec i (s.enter i.length) = .next t ∧ t.codeIntact = false) := by
  unfold step at h
  rw [hi] at h
  simp only [Bool.false_eq_true, if_false] at h
  split at h
  · next hf => cases h; exact .inl hf
  · next i hf =>
    refine .inr ⟨i, hf, ?_⟩
    unfold sparingCode at h
    split at h
    · next t ht =>
      split at h
      · cases h
      · next hc => cases h; exact .inr ⟨rfl, t, ht, by simpa using hc⟩
    · cases h
    · next q hq => cases h; exact .inl hq

/-- A step is refused for a delivered interrupt exactly when one is due. -/
theorem step_interruptDelivered (s : State) : step s = .refused .interruptDelivered ↔ s.interruptDue = true := by
  constructor
  · intro h
    cases hi : s.interruptDue
    · obtain h | ⟨i, -, h | ⟨h, -⟩⟩ := step_refused hi h
      · cases (State.fetchInstr_refusal h (.inl rfl)).1
      · obtain e | e := exec_refused h
        · cases e
        · exact e.elim
      · cases h
    · rfl
  · intro h
    unfold step
    rw [if_pos h]

/-- A step refused for modified bytes fetched one of the bytes the run wrote. -/
theorem step_fetchModified {s : State} (h : step s = .refused .fetchModified) : ∃ a ∈ s.codeAddrs, a ∈ s.written := by
  cases hi : s.interruptDue
  · obtain h | ⟨i, -, h | ⟨h, -⟩⟩ := step_refused hi h
    · exact (State.fetchInstr_refusal h (.inr (.inl rfl))).2
    · obtain e | e := exec_refused h
      · cases e
      · exact e.elim
    · cases h
  · rw [(step_interruptDelivered s).2 hi] at h; cases h

/-- A step refused for a write to executed bytes ran an instruction after which one is written. -/
theorem step_codeWritten {s : State} (h : step s = .refused .codeWritten) :
    ∃ i t, s.fetchInstr = .ok i ∧ exec i (s.enter i.length) = .next t ∧ ∃ a ∈ t.written, a ∈ t.fetched := by
  cases hi : s.interruptDue
  · obtain h | ⟨i, hf, h | ⟨-, t, ht, hc⟩⟩ := step_refused hi h
    · cases (State.fetchInstr_refusal h (.inr (.inr rfl))).1
    · obtain e | e := exec_refused h
      · cases e
      · exact e.elim
    · refine ⟨i, t, hf, ht, ?_⟩
      by_contra hn
      rw [State.codeIntact_iff.2 fun a ha hf => hn ⟨a, ha, hf⟩] at hc; cases hc
  · rw [(step_interruptDelivered s).2 hi] at h; cases h

end Sys2Proof.Machine
end

