-- ==== Sys2Proof/Laws/Decode.lean ====
section
/-! SUPPORT. Small lemmas of the decoder and the encoder: each table read in both directions, and what each stage of the
decoder answers on the bytes the encoder writes. -/

namespace Sys2Proof

/-! ### Prefix bytes -/

@[simp] theorem legacyPrefixOf_encode (q : LegacyPrefix) : legacyPrefixOf q.encode = some q := by
  cases q with
  | seg s => cases s <;> rfl
  | _ => rfl

theorem legacyPrefixOf_some {b : Byte} {q : LegacyPrefix} (h : legacyPrefixOf b = some q) : b = q.encode := by
  unfold legacyPrefixOf at h
  repeat' split at h
  all_goals first | (cases h; assumption) | cases h

/-- A REX byte is read back field by field. -/
theorem rexOf_encode (r : Rex) : rexOf r.encode = r ∧ isRex r.encode = true ∧ legacyPrefixOf r.encode = none ∧
    isRep r.encode = false := by
  obtain ⟨w, r, x, b⟩ := r
  revert w r x b; decide

theorem encode_rexOf : ∀ b : Byte, isRex b = true → (rexOf b).encode = b := by decide +kernel

/-- The byte is no prefix, and none that is refused: what may follow the prefixes. -/
def endsPrefixes (b : Byte) : Prop := legacyPrefixOf b = none ∧ isRep b = false ∧ isRex b = false

/-- The legacy prefixes of an instruction are all read, and the byte after them ends the reading. -/
theorem takeLegacy_encode {b : Byte} {bs : List Byte} (hb : legacyPrefixOf b = none) (hr : isRep b = false) :
    ∀ (ps seen : List LegacyPrefix), noRepeatedKind ps = true → (∀ r ∈ seen, ∀ q ∈ ps, r.kind ≠ q.kind) →
      takeLegacy seen (ps.map LegacyPrefix.encode ++ b :: bs) = .ok (seen ++ ps, b :: bs)
  | [], seen, _, _ => by simp [takeLegacy, hb, hr]
  | p :: ps, seen, hn, hs => by
    simp only [noRepeatedKind, Bool.and_eq_true, Bool.not_eq_true', List.any_eq_false, beq_iff_eq] at hn
    have hseen : seen.any (fun r => r.kind == p.kind) = false := by
      simp only [List.any_eq_false, beq_iff_eq]
      exact fun r hr => hs r hr p (by simp)
    simp only [List.map_cons, List.cons_append, takeLegacy, legacyPrefixOf_encode, hseen]
    rw [takeLegacy_encode hb hr ps (seen ++ [p]) hn.2]
    · simp
    · intro r hr q hq
      rcases List.mem_append.1 hr with h | h
      · exact hs r h q (by simp [hq])
      · simp only [List.mem_singleton] at h; subst h
        exact fun e => hn.1 q hq e.symm

/-- What the reading of legacy prefixes answers: prefixes of different kinds, written out, and then a byte that is none. -/
theorem takeLegacy_ok : ∀ (bs : List Byte) {seen ps : List LegacyPrefix} {rest : List Byte},
    takeLegacy seen bs = .ok (ps, rest) →
      ∃ new b bs', ps = seen ++ new ∧ bs = new.map LegacyPrefix.encode ++ rest ∧ rest = b :: bs' ∧
        legacyPrefixOf b = none ∧ isRep b = false ∧ noRepeatedKind new = true ∧
        ∀ r ∈ seen, ∀ q ∈ new, r.kind ≠ q.kind
  | [], _, _, _, h => by simp [takeLegacy] at h
  | b :: bs, seen, ps, rest, h => by
    unfold takeLegacy at h
    split at h
    · next q hq =>
      split at h
      · cases h
      · next hs =>
        obtain ⟨new, b', bs', rfl, hbs, hrest, h1, h2, h3, h4⟩ := takeLegacy_ok bs h
        simp only [List.any_eq_true, beq_iff_eq, not_exists, not_and] at hs
        refine ⟨q :: new, b', bs', by simp, by simp [legacyPrefixOf_some hq, hbs], hrest, h1, h2, ?_, ?_⟩
        · simp only [noRepeatedKind, h3, Bool.and_true, Bool.not_eq_true', List.any_eq_false, beq_iff_eq]
          exact fun r hr e => h4 q (by simp) r hr e.symm
        · intro r hr q' hq'
          rcases List.mem_cons.1 hq' with rfl | hq'
          · exact hs r hr
          · exact h4 r (by simp [hr]) q' hq'
    · next hq =>
      split at h
      · cases h
      · next hr => cases h; exact ⟨[], b, bs, by simp, by simp, rfl, hq, by simpa using hr, rfl, by simp⟩

/-- REX, where there is one, is read, and the byte after it ends the prefixes. -/
theorem takeRex_encode {c : CodeContext} {rex : Option Rex} {b : Byte} {bs : List Byte}
    (hc : rex.isNone = true ∨ c.mode = .long64) (hb : endsPrefixes b) :
    takeRex c (rex.toList.map Rex.encode ++ b :: bs) = .ok (rex, b :: bs) := by
  obtain ⟨h1, h2, h3⟩ := hb
  cases rex with
  | none => simp [takeRex, h3]
  | some r =>
    obtain ⟨e1, e2, -, -⟩ := rexOf_encode r
    have hm : c.mode = .long64 := by simpa using hc
    simp [takeRex, hm, e1, e2, h1, h2, h3]

theorem takeRex_ok {c : CodeContext} {bs : List Byte} {rex : Option Rex} {rest : List Byte}
    (h : takeRex c bs = .ok (rex, rest)) :
    bs = rex.toList.map Rex.encode ++ rest ∧ (rex.isNone = true ∨ c.mode = .long64) := by
  unfold takeRex at h
  split at h
  · cases h
  · split at h
    · next hc =>
      split at h
      · cases h
      · split at h
        · cases h
        · cases h; exact ⟨by simp [encode_rexOf _ hc.2], .inr hc.1⟩
    · cases h; exact ⟨by simp, .inl rfl⟩

/-! ### Register numbers, ModRM and SIB -/

theorem gprOf_low : ∀ (d : GprNum) (ext : Bool), GprNum.extendedBy d ext = true → gprOf d.low ext = d := by decide

theorem low_gprOf : ∀ (low : BitVec 3) (ext : Bool),
    GprNum.low (gprOf low ext) = low ∧ GprNum.extendedBy (gprOf low ext) ext = true := by decide

theorem lowIs_gprOf : ∀ (low : BitVec 3) (ext : Bool) (k : Fin 8),
    GprNum.lowIs (gprOf low ext) k.val = decide (low = BitVec.ofNat 3 k.val) := by decide

theorem low_eq_of_lowIs : ∀ (d : GprNum) (k : Fin 8), GprNum.low d = BitVec.ofNat 3 k.val ↔ GprNum.lowIs d k.val = true := by
  decide

@[simp] theorem modRm_mod : ∀ (md : BitVec 2) (rm : BitVec 3), (modRm md rm).extractLsb' 6 2 = md := by decide

@[simp] theorem modRm_reg : ∀ (md : BitVec 2) (rm : BitVec 3), (modRm md rm).extractLsb' 3 3 = 0#3 := by decide

@[simp] theorem modRm_rm : ∀ (md : BitVec 2) (rm : BitVec 3), (modRm md rm).extractLsb' 0 3 = rm := by decide

/-- A ModRM byte with reg 0 is its two fields put together. -/
theorem eq_modRm : ∀ b : Byte, b.extractLsb' 3 3 = 0#3 → b = modRm (b.extractLsb' 6 2) (b.extractLsb' 0 3) := by
  decide +kernel

theorem sib_fields : ∀ (ss : BitVec 2) (ix bs : BitVec 3),
    ((ss ++ ix ++ bs : Byte).extractLsb' 6 2 = ss ∧ (ss ++ ix ++ bs : Byte).extractLsb' 3 3 = ix) ∧
      (ss ++ ix ++ bs : Byte).extractLsb' 0 3 = bs := by decide

theorem eq_sib : ∀ b : Byte, (b.extractLsb' 6 2 ++ b.extractLsb' 3 3 ++ b.extractLsb' 0 3 : Byte) = b := by decide +kernel

@[simp] theorem scaleOf_field (s : Scale) : scaleOf s.field = s := by cases s <;> rfl

theorem field_scaleOf : ∀ ss : BitVec 2, (scaleOf ss).field = ss := by decide

theorem indexOf_field : ∀ (i : Option GprNum) (p : Prefixes), indexWf p i = true → indexOf (indexField i) p.rexX = i := by
  intro i p
  cases i with
  | none => intro h; simp only [indexWf, Bool.not_eq_true'] at h; rw [h]; rfl
  | some i =>
    simp only [indexWf]
    generalize p.rexX = x
    revert i x; decide

theorem indexWf_indexOf (p : Prefixes) (low : BitVec 3) :
    indexWf p (indexOf low p.rexX) = true ∧ indexField (indexOf low p.rexX) = low := by
  have key : ∀ (x : Bool) (low : BitVec 3),
      (match indexOf low x with
        | none => !x
        | some i => i.val != 4 && GprNum.extendedBy i x) = true ∧ indexField (indexOf low x) = low := by decide
  have := key p.rexX low
  refine ⟨?_, this.2⟩
  rw [← this.1]
  cases indexOf low p.rexX <;> rfl

theorem rm_addr16 : ∀ f : Addr16, f ≠ .abs → addr16Of f.rm = f := by intro f h; cases f <;> first | rfl | exact absurd rfl h

theorem addr16_rm : ∀ rm : BitVec 3, (addr16Of rm).rm = rm ∧ addr16Of rm ≠ .abs ∧ (addr16Of rm = .bp ↔ rm = 6#3) := by
  decide

/-! ### Displacements -/

theorem dword_bytes (d : BitVec 32) :
    d.extractLsb' 24 8 ++ d.extractLsb' 16 8 ++ d.extractLsb' 8 8 ++ d.extractLsb' 0 8 = d := by
  apply BitVec.eq_of_getElem_eq
  intro i hi
  simp only [BitVec.getElem_append, BitVec.getElem_extractLsb']
  split
  · simp [BitVec.getLsbD_eq_getElem hi]
  · split
    · rw [show 8 + (i - 8) = i by omega, BitVec.getLsbD_eq_getElem hi]
    · split
      · rw [show 16 + (i - 8 - 8) = i by omega, BitVec.getLsbD_eq_getElem hi]
      · rw [show 24 + (i - 8 - 8 - 8) = i by omega, BitVec.getLsbD_eq_getElem hi]

theorem word_bytes (d : BitVec 16) : d.extractLsb' 8 8 ++ d.extractLsb' 0 8 = d := by
  apply BitVec.eq_of_getElem_eq
  intro i hi
  simp only [BitVec.getElem_append, BitVec.getElem_extractLsb']
  split
  · simp [BitVec.getLsbD_eq_getElem hi]
  · rw [show 8 + (i - 8) = i by omega, BitVec.getLsbD_eq_getElem hi]

/-- The low part of two parts put together. -/
theorem extract_low {m n : Nat} (x : BitVec m) (y : BitVec n) : (x ++ y).extractLsb' 0 n = y := by
  apply BitVec.eq_of_getLsbD_eq
  intro i hi
  simp [BitVec.getLsbD_append, hi]

/-- A part above the low one. -/
theorem extract_high {m n : Nat} (x : BitVec m) (y : BitVec n) (k w : Nat) :
    (x ++ y).extractLsb' (n + k) w = x.extractLsb' k w := by
  apply BitVec.eq_of_getLsbD_eq
  intro i hi
  rw [BitVec.getLsbD_extractLsb', BitVec.getLsbD_extractLsb', BitVec.getLsbD_append, if_neg (by omega)]
  rw [show n + k + i - n = k + i by omega]

theorem bytes_word (b1 b0 : Byte) : (b1 ++ b0).extractLsb' 0 8 = b0 ∧ (b1 ++ b0).extractLsb' 8 8 = b1 :=
  ⟨extract_low b1 b0, (extract_high b1 b0 0 8).trans (by simp)⟩

theorem bytes_dword (b3 b2 b1 b0 : Byte) :
    (b3 ++ b2 ++ b1 ++ b0).extractLsb' 0 8 = b0 ∧ (b3 ++ b2 ++ b1 ++ b0).extractLsb' 8 8 = b1 ∧
      (b3 ++ b2 ++ b1 ++ b0).extractLsb' 16 8 = b2 ∧ (b3 ++ b2 ++ b1 ++ b0).extractLsb' 24 8 = b3 := by
  refine ⟨extract_low _ b0, ?_, ?_, ?_⟩
  · exact (extract_high (b3 ++ b2 ++ b1) b0 0 8).trans (extract_low _ b1)
  · exact (extract_high (b3 ++ b2 ++ b1) b0 8 8).trans ((extract_high (b3 ++ b2) b1 0 8).trans (extract_low _ b2))
  · exact (extract_high (b3 ++ b2 ++ b1) b0 16 8).trans
      ((extract_high (b3 ++ b2) b1 8 8).trans ((extract_high b3 b2 0 8).trans (by simp)))

/-! ### The stages on encoded bytes -/

theorem takeDword_encode (d : BitVec 32) (rest : List Byte) :
    takeDword ((Disp.d32 d).encode ++ rest) = .ok (d, rest) := by
  simp only [Disp.encode, List.cons_append, List.nil_append, takeDword, dword_bytes]

theorem takeDword_ok {bs : List Byte} {d : BitVec 32} {rest : List Byte} (h : takeDword bs = .ok (d, rest)) :
    bs = (Disp.d32 d).encode ++ rest := by
  unfold takeDword at h
  split at h
  · next b0 b1 b2 b3 bs' =>
    cases h
    obtain ⟨h0, h1, h2, h3⟩ := bytes_dword b3 b2 b1 b0
    simp only [Disp.encode, List.cons_append, List.nil_append]
    rw [h0, h1, h2, h3]
  · cases h

theorem mod_cases : ∀ md : BitVec 2, md ≠ 3#2 → md = 0#2 ∨ md = 1#2 ∨ md = 2#2 := by decide

/-- The displacement of 32- and 64-bit addressing is read back under its own mod field. -/
theorem takeModDisp_encode {d : Disp} (hd : d.wf32 = true) (rest : List Byte) :
    takeModDisp d.modField (d.encode ++ rest) = .ok (d, rest) := by
  cases d with
  | none => rfl
  | d8 d => rfl
  | d16 d => simp [Disp.wf32] at hd
  | d32 d => simp [takeModDisp, Disp.modField, takeDisp32, takeDword_encode, bind, Except.bind]

theorem takeModDisp_ok {md : BitVec 2} (hm : md ≠ 3#2) {bs : List Byte} {d : Disp} {rest : List Byte}
    (h : takeModDisp md bs = .ok (d, rest)) :
    bs = d.encode ++ rest ∧ d.wf32 = true ∧ d.modField = md ∧ (md ≠ 0#2 → d ≠ .none) := by
  have hmd := mod_cases md hm
  unfold takeModDisp at h
  rcases hmd with rfl | rfl | rfl
  · cases h; exact ⟨rfl, rfl, rfl, fun h => absurd rfl h⟩
  · simp only [takeDisp8] at h
    cases bs with
    | nil => cases h
    | cons b bs => cases h; exact ⟨rfl, rfl, rfl, fun _ => by simp⟩
  · simp only [takeDisp32] at h
    cases hd : takeDword bs with
    | error e => rw [hd] at h; cases h
    | ok x =>
      rw [hd] at h; cases h
      exact ⟨takeDword_ok hd, rfl, rfl, fun _ => by simp⟩

/-- The 16-bit table is read back. -/
theorem takeMem16_encode {f : Addr16} {d : Disp} (hd : d.wf16 f = true) (rest : List Byte) :
    takeMem16 (if f = .abs then 0#2 else d.modField) f.rm (d.encode ++ rest) = .ok (.addr16 f d, rest) ∧
      (if f = .abs then 0#2 else d.modField) ≠ 3#2 := by
  have hm : (if f = .abs then 0#2 else d.modField) ≠ 3#2 := by
    split
    · decide
    · cases d <;> simp [Disp.modField]
  refine ⟨?_, hm⟩
  cases d with
  | none => cases f <;> simp [Disp.wf16] at hd <;> rfl
  | d8 d => cases f <;> simp [Disp.wf16] at hd <;> rfl
  | d16 d =>
    have h : takeDisp16 ((Disp.d16 d).encode ++ rest) = .ok (.d16 d, rest) := by
      simp only [Disp.encode, List.cons_append, List.nil_append, takeDisp16, word_bytes]
    cases f <;> simp [takeMem16, Disp.modField, h, Addr16.rm, bind, Except.bind, addr16Of]
  | d32 d => simp [Disp.wf16] at hd

theorem takeMem16_ok {md : BitVec 2} {rm : BitVec 3} (hm : md ≠ 3#2) {bs : List Byte} {o : MemOperand} {rest : List Byte}
    (h : takeMem16 md rm bs = .ok (o, rest)) :
    ∃ f d, o = .addr16 f d ∧ d.wf16 f = true ∧ (if f = .abs then 0#2 else d.modField) = md ∧ f.rm = rm ∧
      bs = d.encode ++ rest := by
  have hmd := mod_cases md hm
  have h16 {d : Disp} (h : takeDisp16 bs = .ok (d, rest)) : ∃ x, d = .d16 x ∧ bs = (Disp.d16 x).encode ++ rest := by
    rcases bs with _ | ⟨b0, _ | ⟨b1, bs⟩⟩
    · cases h
    · cases h
    · cases h
      obtain ⟨h0, h1⟩ := bytes_word b1 b0
      refine ⟨_, rfl, ?_⟩
      simp only [Disp.encode, List.cons_append, List.nil_append]
      rw [h0, h1]
  obtain ⟨hr1, hr2, hr3⟩ := addr16_rm rm
  unfold takeMem16 at h
  rcases hmd with rfl | rfl | rfl
  · by_cases h6 : rm = 6#3
    · subst h6
      simp only [if_true, and_self] at h
      cases hd : takeDisp16 bs with
      | error e => rw [hd] at h; cases h
      | ok x =>
        obtain ⟨d, r⟩ := x
        rw [hd] at h; cases h
        obtain ⟨x, rfl, hb⟩ := h16 hd
        exact ⟨.abs, _, rfl, rfl, rfl, rfl, hb⟩
    · simp only [if_true, h6, if_false, and_false, takeNoDisp] at h
      cases h
      refine ⟨_, .none, rfl, ?_, ?_, hr1, rfl⟩
      · simp [Disp.wf16, hr2, hr3, h6]
      · simp [hr2, Disp.modField]
  · have e : ¬ (1#2 = 0#2) := by decide
    simp only [e, if_false, if_true, takeDisp8, false_and] at h
    cases bs with
    | nil => cases h
    | cons b bs => cases h; exact ⟨_, _, rfl, by simp [Disp.wf16, hr2], by simp [hr2, Disp.modField], hr1, rfl⟩
  · have e : ¬ (2#2 = 0#2) := by decide
    have e' : ¬ (2#2 = 1#2) := by decide
    simp only [e, e', if_false, false_and] at h
    cases hd : takeDisp16 bs with
    | error e => rw [hd] at h; cases h
    | ok x =>
      obtain ⟨d, r⟩ := x
      rw [hd] at h; cases h
      obtain ⟨x, rfl, hb⟩ := h16 hd
      exact ⟨_, _, rfl, rfl, by simp [hr2, Disp.modField], hr1, hb⟩

/-- The byte after the prefixes of an instruction is none of them. -/
theorem encodeBody_cons (i : Instr) : ∃ b bs, i.encodeBody = b :: bs ∧ endsPrefixes b := by
  have hO : ∀ d : GprNum, endsPrefixes (0b01011#5 ++ GprNum.low d) := by unfold endsPrefixes; decide
  cases i <;> refine ⟨_, _, rfl, ?_⟩ <;> first | exact hO _ | (unfold endsPrefixes; decide)

end Sys2Proof
end

