-- ==== Sys2Proof/Laws/PerInstr.lean ====
section
/-! SUPPORT. Statements made per instruction, one lemma per constructor of Instr. The family EncodedLength: the encoder writes as
many bytes as rule R126 counts. -/

namespace Sys2Proof.Laws

theorem length_prefixes (p : Prefixes) : p.encode.length = p.length := by
  cases h : p.rex <;> simp [Prefixes.encode, Prefixes.length, h]

theorem length_disp (d : Disp) : d.encode.length = d.length := by cases d <;> rfl

/-- ModRM is the one byte `RmOperand.length` does not count. -/
theorem length_rm (o : RmOperand) : o.encode.length = 1 + o.length := by
  cases o with
  | reg d => rfl
  | mem m =>
    cases m with
    | sib s i b d => cases b <;> simp [RmOperand.encode, RmOperand.length, length_disp] <;> omega
    | addr16 f d => simp [RmOperand.encode, RmOperand.length, length_disp]; omega
    | base b d => simp [RmOperand.encode, RmOperand.length, length_disp]; omega
    | abs32 d => rfl
    | ripRel d => rfl

namespace EncodedLength

/-- The encoded instruction is as long as rule R126 says. -/
def Statement (i : Instr) : Prop := (encode i).length = i.length

theorem length_of_body {i : Instr} (h : i.encodeBody.length = i.bodyLength) : Statement i := by
  simp only [Statement, encode, Instr.length, List.length_append, length_prefixes, h]

theorem length_of_rm {i : Instr} {o : RmOperand} (h : i.encodeBody = 0x8F#8 :: o.encode) (hb : i.bodyLength = 2 + o.length) :
    Statement i := length_of_body (by rw [h, hb, List.length_cons, length_rm]; omega)

theorem popRm16 (p : Prefixes) (o : RmOperand) : Statement (.popRm16 p o) := length_of_rm rfl rfl

theorem popRm32 (p : Prefixes) (o : RmOperand) : Statement (.popRm32 p o) := length_of_rm rfl rfl

theorem popRm64 (p : Prefixes) (o : RmOperand) : Statement (.popRm64 p o) := length_of_rm rfl rfl

theorem popR16 (p : Prefixes) (d : GprNum) : Statement (.popR16 p d) := length_of_body rfl

theorem popR32 (p : Prefixes) (d : GprNum) : Statement (.popR32 p d) := length_of_body rfl

theorem popR64 (p : Prefixes) (d : GprNum) : Statement (.popR64 p d) := length_of_body rfl

theorem popDs (p : Prefixes) : Statement (.popDs p) := length_of_body rfl

theorem popEs (p : Prefixes) : Statement (.popEs p) := length_of_body rfl

theorem popSs (p : Prefixes) : Statement (.popSs p) := length_of_body rfl

theorem popFs16 (p : Prefixes) : Statement (.popFs16 p) := length_of_body rfl

theorem popFs32 (p : Prefixes) : Statement (.popFs32 p) := length_of_body rfl

theorem popFs64 (p : Prefixes) : Statement (.popFs64 p) := length_of_body rfl

theorem popGs16 (p : Prefixes) : Statement (.popGs16 p) := length_of_body rfl

theorem popGs32 (p : Prefixes) : Statement (.popGs32 p) := length_of_body rfl

theorem popGs64 (p : Prefixes) : Statement (.popGs64 p) := length_of_body rfl

end EncodedLength

end Sys2Proof.Laws
end

