-- ==== Sys2Proof/Laws/Registers.lean ====
section
/-! SUPPORT. Values popped and registers written: bit-vector facts, the register a write leaves, the stack pointer after a POP,
and that no operation but a register's own reads the general registers. -/

namespace Sys2Proof.Machine

/-- Bytes stand for a value that fits in them. -/
theorem leValue_lt : ∀ (bs : List Byte), bs.length ≤ 8 → (leValue bs).toNat < 2 ^ (8 * bs.length)
  | [], _ => by simp [leValue]
  | b :: bs, h => by
    have ih := leValue_lt bs (by simp at h; omega)
    simp only [List.length_cons] at h ⊢
    have hb := b.isLt
    have hl : bs.length ≤ 7 := by omega
    simp only [leValue, BitVec.toNat_or, BitVec.toNat_setWidth, BitVec.toNat_shiftLeft]
    apply Nat.or_lt_two_pow
    · calc b.toNat % 2 ^ 64 ≤ b.toNat := Nat.mod_le _ _
        _ < 2 ^ 8 := hb
        _ ≤ 2 ^ (8 * (bs.length + 1)) := Nat.pow_le_pow_right (by decide) (by omega)
    · calc (leValue bs).toNat <<< 8 % 2 ^ 64 ≤ (leValue bs).toNat <<< 8 := Nat.mod_le _ _
        _ = (leValue bs).toNat * 2 ^ 8 := Nat.shiftLeft_eq _ _
        _ < 2 ^ (8 * bs.length) * 2 ^ 8 := Nat.mul_lt_mul_of_pos_right ih (by decide)
        _ = 2 ^ (8 * (bs.length + 1)) := by rw [← Nat.pow_add]; congr 1

/-- A value that fits in 16 bits survives truncation to them. -/
theorem setWidth16_64 {v : Word} (h : v.toNat < 2 ^ 16) : (v.setWidth 16).setWidth 64 = v := by
  apply BitVec.eq_of_toNat_eq; simp; omega

/-- A value that fits in 32 bits survives truncation to them. -/
theorem setWidth32_64 {v : Word} (h : v.toNat < 2 ^ 32) : (v.setWidth 32).setWidth 64 = v := by
  apply BitVec.eq_of_toNat_eq; simp; omega

/-- A bit vector is its upper part beside its lower part. -/
theorem split_append {m n : Nat} (v : BitVec (m + n)) : v.extractLsb' n m ++ v.setWidth n = v := by
  apply BitVec.eq_of_getLsbD_eq
  intro i hi
  rw [BitVec.getLsbD_append]
  split
  · next h => simp [h]
  · next h =>
    have : i - n < m := by omega
    simp [this]
    congr 1; omega

/-- The lower part of two bit vectors side by side. -/
theorem low_append {m n : Nat} (x : BitVec m) (y : BitVec n) : (x ++ y).setWidth n = y := by
  apply BitVec.eq_of_getLsbD_eq
  intro i hi
  rw [BitVec.getLsbD_setWidth, BitVec.getLsbD_append]
  simp [hi]

/-- A quadword is its two doublewords side by side. -/
theorem r64_split (v : BitVec 64) : v.extractLsb' 32 32 ++ v.setWidth 32 = v := split_append (m := 32) (n := 32) v

/-- A register an instruction of the mode names is one a program of the mode reaches (R24, R102). -/
theorem reachable_of_extendedBy {c : CodeContext} {p : Prefixes} {d : GprNum} (hp : p.wf c = true)
    (hd : GprNum.extendedBy d p.rexB = true) : c.mode = .long64 ∨ d.val < 8 := by
  cases hr : p.rex with
  | none => right; simpa [GprNum.extendedBy, Prefixes.rexB, hr] using hd
  | some r =>
    left
    simp only [Prefixes.wf, hr, Bool.and_eq_true] at hp
    simpa using hp.2

namespace State

/-- The register a write leaves, at each size (R23, R24). -/
theorem gpr_writeReg_self (s : State) (n : Size) (i : GprNum) (v : Word) :
    (s.writeReg n i v).gpr i = match n with
      | .s16 => ⟨(s.gpr i).hi, (s.gpr i).lo.extractLsb' 16 16 ++ v.setWidth 16⟩
      | .s32 => ⟨s.upperAfterWrite i, v.setWidth 32⟩
      | .s64 => ⟨v.extractLsb' 32 32, v.setWidth 32⟩ := by
  cases n <;> simp [writeReg, writeR16, writeR32, writeR64]

/-- Register 4 after the stack pointer was incremented (R150, R161). -/
theorem gpr_writeSp_self (s : State) (n : Size) :
    (s.writeSp s.stackAddrSize (s.spAfter n)).gpr 4 = match s.stackAddrSize with
      | .s16 => ⟨(s.gpr 4).hi, (s.gpr 4).lo.extractLsb' 16 16 ++ (s.r16 4 + BitVec.ofNat 16 n.bytes)⟩
      | .s32 => ⟨s.upperAfterWrite 4, s.r32 4 + BitVec.ofNat 32 n.bytes⟩
      | .s64 =>
        ⟨(s.r64 4 + BitVec.ofNat 64 n.bytes).extractLsb' 32 32, (s.r64 4 + BitVec.ofNat 64 n.bytes).setWidth 32⟩ := by
  unfold writeSp
  rw [gpr_writeReg_self,
    show s.spAfter n = zeroExtendFrom s.stackAddrSize (s.readReg s.stackAddrSize 4 + BitVec.ofNat 64 n.bytes) from rfl]
  cases h : s.stackAddrSize
  · simp only [readReg, zeroExtendFrom]
    congr 2
    apply BitVec.eq_of_toNat_eq
    have := (s.r16 4).isLt
    cases n <;> simp [Size.bytes]
  · simp only [readReg, zeroExtendFrom]
    congr 1
    apply BitVec.eq_of_toNat_eq
    have := (s.r32 4).isLt
    cases n <;> simp [Size.bytes]
  · simp only [readReg, zeroExtendFrom]

/-- The other registers after the stack pointer was incremented. -/
theorem gpr_writeSp_ne (s : State) (z : Size) (v : Word) {j : GprNum} (h : j ≠ 4) :
    (s.writeSp z v).gpr j = s.gpr j := gpr_writeReg_ne s z v (Ne.symm h)

/-- Two registers alike are alike in each view. -/
theorem r64_congr {s t : State} {j : GprNum} (h : t.gpr j = s.gpr j) : t.r64 j = s.r64 j := by simp [r64, h]

theorem r32_congr {s t : State} {j : GprNum} (h : t.gpr j = s.gpr j) : t.r32 j = s.r32 j := by simp [r32, h]

/-! ### What does not depend on the general registers -/

/-- The state with other general registers. -/
def withRegs (s : State) (r : Vector Gpr 16) : State := { s with regs := r }

variable (s : State) (r : Vector Gpr 16)

theorem fetchFrom_withRegs : ∀ count k, (s.withRegs r).fetchFrom count k = s.fetchFrom count k
  | 0, _ => rfl
  | count + 1, k => by
    unfold fetchFrom
    rw [show (s.withRegs r).fetchByte k = s.fetchByte k from rfl, fetchFrom_withRegs count (k + 1)]

/-- The fetch reads no general register. -/
theorem fetchInstr_withRegs : (s.withRegs r).fetchInstr = s.fetchInstr := by
  unfold fetchInstr fetchedModified fetchAddrs
  rw [fetchFrom_withRegs]; rfl

theorem fetchAddrs_withRegs (len : Nat) : (s.withRegs r).fetchAddrs len = s.fetchAddrs len := by
  unfold fetchAddrs
  rw [fetchFrom_withRegs]

/-- Nor does the entry into an instruction. -/
theorem enter_withRegs (len : Nat) : (s.withRegs r).enter len = (s.enter len).withRegs r := by
  unfold enter
  rw [fetchAddrs_withRegs]; rfl

theorem translateAll_withRegs (acc : Access) (cpl : BitVec 2) :
    ∀ ls, (s.withRegs r).translateAll acc cpl ls = s.translateAll acc cpl ls
  | [] => rfl
  | l :: ls => by
    unfold translateAll
    rw [translateAll_withRegs acc cpl ls]; rfl

theorem loadBytes_withRegs : ∀ as, (s.withRegs r).loadBytes as = s.loadBytes as
  | [] => rfl
  | a :: as => by
    unfold loadBytes
    rw [loadBytes_withRegs as]; rfl

theorem storeBytes_withRegs (r : Vector Gpr 16) :
    ∀ (as : List Nat) (s : State) (v : Word),
      (s.withRegs r).storeBytes as v = (s.storeBytes as v).map (·.withRegs r)
  | [], _, _ => rfl
  | a :: as, s, v => by
    unfold storeBytes
    rw [show (s.withRegs r).inPhysMem a = s.inPhysMem a from rfl]
    split
    · exact storeBytes_withRegs r as (s.storeByte a (v.setWidth 8)) (v >>> 8)
    · rfl

/-- An access at a given offset reads no general register. -/
theorem accessAddrs_withRegs (acc : Access) (sg : SegName) (off : Word) (n c : Nat) :
    (s.withRegs r).accessAddrs acc sg off n c = s.accessAddrs acc sg off n c := by
  unfold accessAddrs
  dsimp only
  rw [show (s.withRegs r).cpl = s.cpl from rfl, show (s.withRegs r).linears sg off n = s.linears sg off n from rfl,
    translateAll_withRegs]
  rfl

theorem segRead_withRegs (sg : SegName) (off : Word) (n c : Nat) :
    (s.withRegs r).segRead sg off n c = s.segRead sg off n c := by
  unfold segRead
  rw [accessAddrs_withRegs]
  congr 1; funext as
  rw [loadBytes_withRegs]

theorem readDescriptor_withRegs (sel : BitVec 16) : (s.withRegs r).readDescriptor sel = s.readDescriptor sel := by
  unfold readDescriptor
  rw [show (s.withRegs r).descriptorByte sel = s.descriptorByte sel from rfl, translateAll_withRegs]
  congr 1; funext as
  rw [loadBytes_withRegs]

theorem bind_map {α : Type} (x : Exec α) (f : α → Exec State) (g : State → State) :
    (x >>= f).map g = x >>= fun a => (f a).map g := by
  cases x <;> rfl

theorem ite_map {c : Prop} [Decidable c] (x y : Exec State) (g : State → State) :
    (if c then x else y).map g = if c then x.map g else y.map g := by
  split <;> rfl

theorem markAccessed_withRegs (sel : BitVec 16) (d : Descriptor) :
    (s.withRegs r).markAccessed sel d = (s.markAccessed sel d).map (·.withRegs r) := by
  unfold markAccessed
  split
  · rfl
  · rw [show (s.withRegs r).descriptorByte sel = s.descriptorByte sel from rfl, translateAll_withRegs, bind_map]
    congr 1; funext as
    rw [storeBytes_withRegs]

theorem loadFrom_withRegs (sg : SegName) (sel : BitVec 16) (d : Descriptor) :
    (s.withRegs r).loadFrom sg sel d = (s.loadFrom sg sel d).map (·.withRegs r) := by
  unfold loadFrom
  rw [markAccessed_withRegs]
  cases s.markAccessed sel d <;> rfl

theorem loadStackSegment_withRegs (sel : BitVec 16) :
    (s.withRegs r).loadStackSegment sel = (s.loadStackSegment sel).map (·.withRegs r) := by
  unfold loadStackSegment
  rw [readDescriptor_withRegs]
  simp only [ite_map, bind_map, loadFrom_withRegs]; rfl

theorem loadDataSegment_withRegs (sg : SegName) (sel : BitVec 16) :
    (s.withRegs r).loadDataSegment sg sel = (s.loadDataSegment sg sel).map (·.withRegs r) := by
  unfold loadDataSegment
  rw [readDescriptor_withRegs]
  simp only [ite_map, bind_map, loadFrom_withRegs]; rfl

/-- The load of a segment register neither reads nor writes a general register. -/
theorem loadSeg_withRegs (sg : SegName) (sel : BitVec 16) :
    (s.withRegs r).loadSeg sg sel = (s.loadSeg sg sel).map (·.withRegs r) := by
  unfold loadSeg
  rw [loadStackSegment_withRegs, loadDataSegment_withRegs, show (s.withRegs r).mode = s.mode from rfl]
  cases s.mode <;> simp only [ite_map] <;> rfl

end State

end Sys2Proof.Machine
end

