-- ==== Sys2Proof/Tests/Slice0.lean ====
section
/-! SUPPORT. The model's own tests: ill-formed terms that the check refuses, words written out from the encodings of
30_encoding.md, single steps from the vectors of 95_test_vectors.md (their ids stand in the names), and for each obligation with
hypotheses a concrete state that meets them. -/

namespace Sys2Proof.Tests

/- One theorem after the other: elaborated side by side, this many evaluations ask for more threads than the check allows. -/
set_option Elab.async false

open Sys2Proof.Machine

/-! ### Well-formedness: one ill-formed term for each check -/

/-- No prefix. -/
def plain : Prefixes := ⟨[], none⟩

/-- A REX prefix alone. -/
def rex (w r x b : Bool) : Prefixes := ⟨[], some ⟨w, r, x, b⟩⟩

def real16 : CodeContext := ⟨.real, false⟩
def prot32 : CodeContext := ⟨.protected_, true⟩
def long64 : CodeContext := ⟨.long64, false⟩

theorem test_wf_repeated_prefix : Instr.wf prot32 (.popDs ⟨[.opSize, .lock, .opSize], none⟩) = false := by decide
theorem test_wf_two_overrides : Instr.wf prot32 (.popDs ⟨[.seg .es, .seg .fs], none⟩) = false := by decide
theorem test_wf_rex_outside_long64 : Instr.wf prot32 (.popDs (rex false false false false)) = false := by decide
theorem test_wf_size_32_in_long64 : Instr.wf long64 (.popR32 plain 0) = false := by decide
theorem test_wf_size_64_in_protected : Instr.wf prot32 (.popFs64 plain) = false := by decide
theorem test_wf_size_16_without_prefix : Instr.wf prot32 (.popRm16 plain (.reg 0)) = false := by decide
theorem test_wf_register_needs_rexB : Instr.wf long64 (.popR64 plain 8) = false := by decide
theorem test_wf_rexB_names_upper_register : Instr.wf long64 (.popRm64 (rex false false false true) (.reg 3)) = false := by
  decide
theorem test_wf_addr16_in_32 : Instr.wf prot32 (.popRm32 plain (.mem (.addr16 .bx .none))) = false := by decide
theorem test_wf_bp_without_disp : Instr.wf real16 (.popRm16 plain (.mem (.addr16 .bp .none))) = false := by decide
theorem test_wf_abs_with_disp8 : Instr.wf real16 (.popRm16 plain (.mem (.addr16 .abs (.d8 0)))) = false := by decide
theorem test_wf_addr16_with_disp32 : Instr.wf real16 (.popRm16 plain (.mem (.addr16 .bx (.d32 0)))) = false := by decide
theorem test_wf_abs32_in_16 : Instr.wf real16 (.popRm16 plain (.mem (.abs32 0))) = false := by decide
theorem test_wf_abs32_in_long64 : Instr.wf long64 (.popRm64 plain (.mem (.abs32 0))) = false := by decide
theorem test_wf_ripRel_in_protected : Instr.wf prot32 (.popRm32 plain (.mem (.ripRel 0))) = false := by decide
theorem test_wf_base_four_needs_sib : Instr.wf prot32 (.popRm32 plain (.mem (.base 4 .none))) = false := by decide
theorem test_wf_base_five_needs_disp : Instr.wf prot32 (.popRm32 plain (.mem (.base 5 .none))) = false := by decide
theorem test_wf_base_with_disp16 : Instr.wf prot32 (.popRm32 plain (.mem (.base 0 (.d16 0)))) = false := by decide
theorem test_wf_base_needs_rexB : Instr.wf long64 (.popRm64 plain (.mem (.base 8 .none))) = false := by decide
theorem test_wf_index_four : Instr.wf prot32 (.popRm32 plain (.mem (.sib .x1 (some 4) (some 0) .none))) = false := by decide
theorem test_wf_index_needs_rexX : Instr.wf long64 (.popRm64 plain (.mem (.sib .x1 (some 9) (some 0) .none))) = false := by
  decide
theorem test_wf_no_index_with_rexX :
    Instr.wf long64 (.popRm64 (rex false false true false) (.mem (.sib .x1 none (some 0) .none))) = false := by decide
theorem test_wf_sib_base_five : Instr.wf prot32 (.popRm32 plain (.mem (.sib .x1 none (some 5) .none))) = false := by decide
theorem test_wf_sib_without_base_needs_disp32 :
    Instr.wf prot32 (.popRm32 plain (.mem (.sib .x1 none none (.d8 0)))) = false := by decide

/-! ### Decoding: words written out from R101 to R117 -/

/-- The bytes decode to the instruction, all of them used, and it encodes back to them. -/
def reads (c : CodeContext) (bs : List Byte) (i : Instr) : Prop := decode c bs = .ok (i, []) ∧ encode i = bs

theorem test_decode_popRm16 :
    reads real16 [0x8F#8, 0b01000110#8, 0x02#8] (.popRm16 plain (.mem (.addr16 .bp (.d8 2)))) := by
  unfold reads; decide
theorem test_decode_popRm16_abs :
    reads real16 [0x8F#8, 0b00000110#8, 0x34#8, 0x12#8] (.popRm16 plain (.mem (.addr16 .abs (.d16 0x1234)))) := by
  unfold reads; decide
theorem test_decode_popRm32 :
    reads prot32 [0x8F#8, 0b01000100#8, 0b10001101#8, 0xFC#8]
      (.popRm32 plain (.mem (.sib .x4 (some 1) (some 5) (.d8 0xFC)))) := by
  unfold reads; decide
theorem test_decode_popRm32_no_base :
    reads prot32 [0x8F#8, 0b00000100#8, 0b01001101#8, 0x00#8, 0x30#8, 0x00#8, 0x00#8]
      (.popRm32 plain (.mem (.sib .x2 (some 1) none (.d32 0x3000)))) := by
  unfold reads; decide
theorem test_decode_popRm32_register :
    reads prot32 [0x8F#8, 0b11000100#8] (.popRm32 plain (.reg 4)) := by unfold reads; decide
theorem test_decode_popRm64 :
    reads long64 [0b01000001#8, 0x8F#8, 0b00000100#8, 0b00100100#8]
      (.popRm64 (rex false false false true) (.mem (.sib .x1 none (some 12) .none))) := by
  unfold reads; decide
theorem test_decode_popR16 : reads prot32 [0x66#8, 0b01011000#8] (.popR16 ⟨[.opSize], none⟩ 0) := by unfold reads; decide
theorem test_decode_popR32 : reads prot32 [0b01011101#8] (.popR32 plain 5) := by unfold reads; decide
theorem test_decode_popR64 :
    reads long64 [0b01000001#8, 0b01011100#8] (.popR64 (rex false false false true) 12) := by unfold reads; decide
theorem test_decode_popDs : reads prot32 [0x1F#8] (.popDs plain) := by unfold reads; decide
theorem test_decode_popEs : reads real16 [0x07#8] (.popEs plain) := by unfold reads; decide
theorem test_decode_popSs : reads prot32 [0x66#8, 0x17#8] (.popSs ⟨[.opSize], none⟩) := by unfold reads; decide
theorem test_decode_popFs16 : reads real16 [0x0F#8, 0xA1#8] (.popFs16 plain) := by unfold reads; decide
theorem test_decode_popFs32 : reads prot32 [0x0F#8, 0xA1#8] (.popFs32 plain) := by unfold reads; decide
theorem test_decode_popFs64 :
    reads long64 [0b01001000#8, 0x0F#8, 0xA1#8] (.popFs64 (rex true false false false)) := by unfold reads; decide
theorem test_decode_popGs16 : reads long64 [0x66#8, 0x0F#8, 0xA9#8] (.popGs16 ⟨[.opSize], none⟩) := by
  unfold reads; decide
theorem test_decode_popGs32 : reads real16 [0x66#8, 0x0F#8, 0xA9#8] (.popGs32 ⟨[.opSize], none⟩) := by
  unfold reads; decide
theorem test_decode_popGs64 : reads long64 [0x0F#8, 0xA9#8] (.popGs64 plain) := by unfold reads; decide

theorem test_decode_rep : decode prot32 [0xF3#8, 0x58#8] = .error .repPrefix := by decide
theorem test_decode_repeated : decode prot32 [0x66#8, 0x66#8, 0x58#8] = .error .repeatedPrefix := by decide
theorem test_decode_misplaced_rex : decode long64 [0x41#8, 0x66#8, 0x58#8] = .error .misplacedRex := by decide
theorem test_decode_extension : decode prot32 [0x8F#8, 0b00001000#8] = .error .opcodeExtension := by decide
theorem test_decode_other : decode real16 [0x41#8, 0x58#8] = .error .notPop := by decide
theorem test_decode_truncated : decode prot32 [0x8F#8, 0x05#8, 0x00#8] = .error .truncated := by decide

/-! ### Setups of 95_test_vectors.md section 2 -/

/-- The `n` low bytes of a number, least significant first. -/
def le : Nat → Nat → List Nat
  | 0, _ => []
  | n + 1, v => v % 256 :: le n (v / 256)

/-- Bytes placed in memory. -/
def put : Memory → Nat → List Nat → Memory
  | m, _, [] => m
  | m, a, b :: bs => put (m.write a (BitVec.ofNat 8 b)) (a + 1) bs

/-- A state with a value of `n` bytes in memory. -/
def at' (s : State) (a n v : Nat) : State := { s with mem := put s.mem a (le n v) }

/-- A state with instruction bytes at pc. -/
def code (s : State) (bs : List Nat) : State := { s with mem := put s.mem s.pc.toNat bs }

/-- A state with a general register at a value. -/
def reg (s : State) (i : GprNum) (v : Nat) : State := s.writeR64 i (BitVec.ofNat 64 v)

/-- A state with given parameters. -/
def par (s : State) (p : Params) : State := { s with params := p }

/-- A flat data segment. -/
def flat : SegHidden := ⟨0, 0xFFFFFFFF, .data true false, 0, true, true, false, true⟩

/-- A flat code segment. -/
def flatCode : SegHidden := { flat with kind := .code true false }

/-- The table of setup P32. -/
def table : Memory :=
  put [] 0x1008
    ([0x00CF9B000000FFFF, 0x00CF93000000FFFF, 0x00CF13000000FFFF, 0x00CFF3000000FFFF, 0x00CF99000000FFFF,
      0x00CF91000000FFFF, 0x00CF9F000000FFFF].flatMap (le 8))

/-- Setup P32: flat 32-bit protected mode. -/
def p32 : State :=
  { State.reset with
    pc := 0x8000
    mode := .protected_
    gdtr := ⟨0x1000, 0x3F⟩
    ldtr := ⟨0, 0, 0, false⟩
    regs := State.reset.regs.set 4 ⟨0, 0x2000⟩
    sregs := ⟨⟨0, flat⟩, ⟨8, flatCode⟩, ⟨0x10, flat⟩, ⟨0, flat⟩, ⟨0, flat⟩, ⟨0, flat⟩⟩
    mem := table }

/-- P32 at CPL 3, with alignment checking as given. -/
def p32user (ac : Bool) : State :=
  { p32 with
    cpl := 3
    acEnable := ac
    sregs := { p32.sregs with
      ss := ⟨0x13, { flat with dpl := 3 }⟩
      ds := ⟨0, { flat with dpl := 3 }⟩
      es := ⟨0, { flat with dpl := 3 }⟩ } }

/-- Setup S16: 32-bit code, 16-bit stack. -/
def s16 : State := p32.setSreg .ss ⟨0x10, { flat with base := 0x10000, limit := 0xFFFF, db := false }⟩

/-- A data segment of Real mode. -/
def realSeg (base : Nat) : SegHidden :=
  { flat with base := BitVec.ofNat 64 base, limit := 0xFFFF, db := false }

/-- Setup R16: Real mode. -/
def r16 : State :=
  { State.reset with
    pc := 0x100
    regs := State.reset.regs.set 4 ⟨0, 0x100⟩
    sregs :=
      ⟨⟨0, realSeg 0⟩, ⟨0, { realSeg 0 with kind := .code true false }⟩, ⟨0x2000, realSeg 0x20000⟩,
        ⟨0x1000, realSeg 0x10000⟩, ⟨0, realSeg 0⟩, ⟨0, realSeg 0⟩⟩ }

/-- Setup R16 with CS based at 30000 and a limit. -/
def highCode (limit : Nat) : State :=
  r16.setSreg .cs ⟨0x3000, { realSeg 0x30000 with kind := .code true false, limit := BitVec.ofNat 32 limit }⟩

/-- Setup R16 in V8086 mode. -/
def v86 : State := { r16 with mode := .v8086, cpl := 3 }

/-- Setup L64: 64-bit mode. -/
def l64 : State :=
  { p32 with
    mode := .long64
    pc := 0x401000
    sregs := { p32.sregs with cs := ⟨8, { flatCode with l := true, db := false }⟩ }
    regs := State.reset.regs.set 4 ⟨0x7FFF, 0xFFFFE000⟩ }

/-- The stack pointer of L64. -/
def sp64 : Nat := 0x7FFFFFFFE000

/-- P32 with a doubleword on the stack. -/
def top (v : Nat) : State := at' p32 0x2000 4 v

/-- P32 where one page faults for one kind of access. -/
def unpaged (s : State) (acc : Access) (page : Nat) : State :=
  { s with paging := [⟨page, page + 0xFFF, some acc, none, .pageFault 3⟩] }

/-! ### Single steps -/

/-- What a test sees of a step. -/
inductive Seen where
  | values (vs : List Nat)
  | fault (vector : Nat) (code : Option Nat) (addr : Option Nat)
  | refused (r : Refusal)
  deriving DecidableEq, Repr

/-- The linear address a page fault records. -/
def pfAddr : Exception → Option Nat
  | .pf _ a => some a.toNat
  | _ => none

/-- The step over the given instruction bytes, seen through some values of the next state. -/
def seen (s : State) (bs : List Nat) (f : State → List Nat) : Seen :=
  match step (code s bs) with
  | .next t => .values (f t)
  | .fault (.raised e vector _) => .fault vector (e.errorCode.map BitVec.toNat) (pfAddr e)
  | .refused r => .refused r

/-- A doubleword register. -/
def e (t : State) (i : GprNum) : Nat := (t.r32 i).toNat

/-- A quadword register. -/
def q (t : State) (i : GprNum) : Nat := (t.r64 i).toNat

/-- A value of `n` bytes in memory. -/
def m (t : State) (a : Nat) : Nat → Nat
  | 0 => 0
  | n + 1 => (t.mem.read a).toNat + 256 * m t (a + 1) n

theorem test_A23_bp_form_uses_ss :
    seen (at' (reg r16 5 0x10) 0x20100 2 2) [0x8F, 0x46, 2] (fun t => [m t 0x20012 2, e t 4, t.pc.toNat]) =
      .values [2, 0x102, 0x103] := by decide +kernel
theorem test_A26_write_beyond_limit : seen (reg r16 3 0xFFFF) [0x8F, 7] (fun _ => []) = .fault 13 none none := by
  decide +kernel
theorem test_A8_overlapping_write :
    seen (at' p32 0x2000 4 0x11223344) [0x8F, 0x44, 0x24, 0xFE] (fun t => [m t 0x2000 6, e t 4]) =
      .values [0x112233443344, 0x2004] := by decide +kernel
theorem test_A12_no_base :
    seen (at' (reg p32 1 0x10) 0x2000 4 8) [0x8F, 0x04, 0x8D, 0, 0x30, 0, 0] (fun t => [m t 0x3040 4, t.pc.toNat]) =
      .values [8, 0x8007] := by decide +kernel
theorem test_A40_rip_relative :
    seen (at' l64 sp64 8 7) [0x8F, 5, 0x12, 0, 0, 0] (fun t => [m t 0x401018 8, t.pc.toNat]) =
      .values [7, 0x401006] := by decide +kernel
theorem test_A47_non_canonical_through_rbp :
    seen (at' (reg l64 5 0x800000000000) sp64 8 7) [0x8F, 0x45, 0] (fun _ => []) = .fault 12 (some 0) none := by
  decide +kernel
theorem test_A31_upper_bits_kept :
    seen (at' (reg l64 0 0xAAAAAAAAAAAAAAAA) sp64 2 0x2222) [0x66, 0x58] (fun t => [q t 0, q t 4]) =
      .values [0xAAAAAAAAAAAA2222, sp64 + 2] := by decide +kernel
theorem test_A4_pop_sp :
    seen (at' (reg p32 4 0x1FFFE) 0x1FFFE 2 0x1234) [0x66, 0x5C] (fun t => [e t 4]) = .values [0x21234] := by
  decide +kernel
theorem test_A15_sp_wraps :
    seen (at' (reg s16 4 0xABCDFFFC) 0x1FFFC 4 0x01020304) [0x58] (fun t => [e t 0, e t 4]) =
      .values [0x01020304, 0xABCD0000] := by decide +kernel
theorem test_A16_read_beyond_limit : seen (reg s16 4 0xFFFE) [0x58] (fun _ => []) = .fault 12 (some 0) none := by
  decide +kernel
theorem test_A32_rexB :
    seen (at' l64 sp64 8 8) [0x41, 0x58] (fun t => [q t 8, q t 0, t.pc.toNat]) = .values [8, 0, 0x401002] := by
  decide +kernel
theorem test_A45_non_canonical_byte :
    seen (reg l64 4 0x7FFFFFFFFFFC) [0x58] (fun _ => []) = .fault 12 (some 0) none := by decide +kernel
theorem test_B10_privilege : seen (at' (p32user false) 0x2000 4 0x13) [0x1F] (fun _ => []) = .fault 13 (some 0x10) none := by
  decide +kernel
theorem test_B25_accessed_bit :
    seen (at' (at' p32 0x1010 8 0x00CF92000000FFFF) 0x2000 4 0x10) [0x1F] (fun t => [m t 0x1015 1, t.sregs.ds.sel.toNat]) =
      .values [0x93, 0x10] := by decide +kernel
theorem test_B3_null :
    seen (at' p32 0x2000 4 3) [0x07] (fun t => [t.sregs.es.sel.toNat, t.sregs.es.hid.usable.toNat, e t 4]) =
      .values [3, 0, 0x2004] := by decide +kernel
theorem test_B31_v8086 :
    seen (at' v86 0x20100 2 0xB800) [0x07] (fun t => [t.sregs.es.sel.toNat, t.sregs.es.hid.base.toNat, e t 4]) =
      .values [0xB800, 0xB8000, 0x102] := by decide +kernel
theorem test_B14_pop_ss :
    seen (at' p32 0x2000 4 0x10) [0x17] (fun t => [t.sregs.ss.sel.toNat, t.inhibit.toNat, e t 4]) =
      .values [0x10, 1, 0x2004] := by decide +kernel
theorem test_B21_rpl_before_present : seen (at' p32 0x2000 4 0x19) [0x17] (fun _ => []) = .fault 13 (some 0x18) none := by
  decide +kernel
theorem test_B35_fs_16 :
    seen (at' l64 sp64 2 0x10) [0x66, 0x0F, 0xA1] (fun t => [t.sregs.fs.sel.toNat, q t 4]) = .values [0x10, sp64 + 2] := by
  decide +kernel
theorem test_fs_32_not_present : seen (at' p32 0x2000 4 0x18) [0x0F, 0xA1] (fun _ => []) = .fault 11 (some 0x18) none := by
  decide +kernel
theorem test_B36_fs_64 :
    seen (at' l64 sp64 8 0x10) [0x48, 0x0F, 0xA1] (fun t => [t.sregs.fs.sel.toNat, q t 4, t.pc.toNat]) =
      .values [0x10, sp64 + 8, 0x401003] := by decide +kernel
theorem test_gs_16_real :
    seen (at' r16 0x20100 2 0x1234) [0x0F, 0xA9] (fun t => [t.sregs.gs.hid.base.toNat, e t 4]) =
      .values [0x12340, 0x102] := by decide +kernel
theorem test_gs_32_execute_only : seen (at' p32 0x2000 4 0x28) [0x0F, 0xA9] (fun _ => []) = .fault 13 (some 0x28) none := by
  decide +kernel
theorem test_B33_gs_64_base :
    seen (at' (at' l64 0x1010 8 0x12CF93345678FFFF) sp64 8 0x10) [0x0F, 0xA9]
      (fun t => [t.sregs.gs.sel.toNat, t.sregs.gs.hid.base.toNat, q t 4]) = .values [0x10, 0x12345678, sp64 + 8] := by
  decide +kernel
theorem test_B34_gs_64_null :
    seen (at' l64 sp64 8 0) [0x0F, 0xA9] (fun t => [t.sregs.gs.sel.toNat, t.sregs.gs.hid.usable.toNat, q t 4]) =
      .values [0, 0, sp64 + 8] := by decide +kernel
theorem test_reset_runs_a_placed_word :
    (match step (State.reset.withFetchWord 8 0x58) with
      | .next t => [e t 4, t.pc.toNat]
      | _ => []) = [2, 0xFFF1] := by decide +kernel
theorem test_R88_writes_itself :
    seen (reg (top 5) 0 0x7FFD) [0x8F, 0] (fun _ => []) = .refused .codeWritten := by decide +kernel
theorem test_R88_writes_beside_itself :
    seen (reg (top 5) 0 0x7FFC) [0x8F, 0] (fun t => [m t 0x7FFC 4, t.pc.toNat]) = .values [5, 0x8002] := by decide +kernel
theorem test_R88_writes_an_executed_byte :
    seen { reg (top 5) 0 0x3000 with fetched := [0x3003] } [0x8F, 0] (fun _ => []) = .refused .codeWritten := by
  decide +kernel
theorem test_R88_executes_a_written_byte :
    seen { top 5 with written := [0x8001] } [0x66, 0x58] (fun _ => []) = .refused .fetchModified := by decide +kernel
theorem test_R64_fetch_adds_the_code_base :
    (match step { highCode 0xFFFF with mem := put [] 0x30100 [0x5B] } with
      | .next t => [t.pc.toNat, e t 4]
      | _ => []) = [0x101, 0x102] := by decide +kernel
theorem test_table_word : decodeTableWord 16 0x008F = some (.popRm16 plain (.mem (.addr16 .bxSi .none))) := by decide

/-! ### Witnesses: states that meet the hypotheses of the obligations -/

/-- The outcome is a next state. -/
def goesOn : Host.Outcome State Fault Refusal → Bool
  | .next _ => true
  | _ => false

/-- The outcome is a fault. -/
def faults : Host.Outcome State Fault Refusal → Bool
  | .fault _ => true
  | _ => false

/-- The outcome is a next state with a property. -/
def goesOnWith (p : State → Bool) : Host.Outcome State Fault Refusal → Bool
  | .next t => p t
  | _ => false

theorem nextWith_of {o : Host.Outcome State Fault Refusal} {p : State → Bool} (h : goesOnWith p o = true) :
    ∃ t, o = .next t ∧ p t = true := by
  cases o with
  | next t => exact ⟨t, rfl, h⟩
  | fault f => cases h
  | refused r => cases h

/-- The outcome is a refusal. -/
def refuses : Host.Outcome State Fault Refusal → Bool
  | .refused _ => true
  | _ => false

theorem refused_of {o : Host.Outcome State Fault Refusal} (h : refuses o = true) : ∃ r, o = .refused r := by
  cases o with
  | next t => cases h
  | fault f => cases h
  | refused r => exact ⟨r, rfl⟩

theorem next_of {o : Host.Outcome State Fault Refusal} (h : goesOn o = true) : ∃ t, o = .next t := by
  cases o with
  | next t => exact ⟨t, rfl⟩
  | fault f => cases h
  | refused r => cases h

theorem fault_of {o : Host.Outcome State Fault Refusal} (h : faults o = true) :
    ∃ e vector pc, o = .fault (.raised e vector pc) := by
  cases o with
  | next t => cases h
  | fault f => cases f with
    | raised e v pc => exact ⟨e, v, pc, rfl⟩
  | refused r => cases h

theorem popped_of {s : State} {n : Nat} {v : Word} (h : s.stackRead n = .ok v) : s.Popped n v := by
  obtain ⟨as, ha, hp, hv⟩ := State.segRead_ok.1 h
  obtain ⟨h1, h2, h3⟩ := State.accessAddrs_ok.1 ha
  exact ⟨as, ⟨h1, h2, State.translateAll_ok.1 h3, hp⟩, hv⟩

theorem selector_of {s : State} {i : Instr} {v : Word} (h : s.stackRead (s.stackBytes i) = .ok v) :
    s.PopsSelector i (v.setWidth 16) := ⟨v, popped_of h, rfl⟩

theorem reaches_of {s : State} {acc : Access} {sg : SegName} {off : Word} {n : Nat} {as : List Nat}
    (h : s.accessAddrs acc sg off n 0 = .ok as) (hp : ∀ a ∈ as, s.inPhysMem a = true) : s.Reaches acc sg off n as := by
  obtain ⟨h1, h2, h3⟩ := State.accessAddrs_ok.1 h
  exact ⟨h1, h2, State.translateAll_ok.1 h3, hp⟩

theorem descriptor_of {s : State} {sel : BitVec 16} {d : Descriptor} (ho : s.outsideTable sel = false)
    (h : s.readDescriptor sel = .ok d) : s.DescriptorAt sel d := by
  obtain ⟨as, h1, h2, h3⟩ := State.readDescriptor_ok.1 h
  exact ⟨ho, as, State.translateAll_ok.1 h1, h2, congrArg Descriptor.raw h3⟩

theorem starts_of {s : State} {i : Instr} (hw : i.wf s.ctx = true) (hl : i.prefixes.locked = false)
    (hm : s.mode ≠ .long64) : s.Starts i := ⟨hw, hl, fun h => absurd h hm⟩

theorem firstFault_of {s : State} {acc : Access} {l : Word} {ls : List Word} {code : BitVec 32}
    (h : s.translate acc s.cpl l = .error code) : s.FirstFault acc (l :: ls) l code := ⟨[], ls, rfl, h, by simp⟩

/-- `8F 00`, POP dword [EAX], at 8000. -/
def storing (address : Nat) : State := code (reg (top 5) 0 address) [0x8F, 0]

/-- The operand `[EAX]`. -/
def atEax : MemOperand := .base 0 .none

/-- What decoding finds at pc. -/
def found (s : State) : Except DecodeError Instr :=
  (decode s.ctx ((s.fetchFrom maxInstrLength 0).1.map Prod.snd)).map Prod.fst

theorem found_iff {s : State} {i : Instr} (h : found s = .ok i) :
    ∃ rest, decode s.ctx ((s.fetchFrom maxInstrLength 0).1.map Prod.snd) = .ok (i, rest) := by
  unfold found at h
  cases hd : decode s.ctx ((s.fetchFrom maxInstrLength 0).1.map Prod.snd) with
  | error e => rw [hd] at h; cases h
  | ok x => rw [hd] at h; cases h; exact ⟨x.2, rfl⟩

theorem test_stepStops_witness :
    ((code { p32 with written := [0x8000] } [0x58]).interruptDue = false ∧
      found (code { p32 with written := [0x8000] } [0x58]) = .ok (.popR32 plain 0) ∧
      ∃ c ∈ ((code { p32 with written := [0x8000] } [0x58]).fetchFrom maxInstrLength 0).1.take 1,
        c.1 ∈ (code { p32 with written := [0x8000] } [0x58]).written) ∧
    (∀ a, (storing a).interruptDue = false) ∧ found (storing 0x7FFD) = .ok (.popRm32 plain (.mem atEax)) ∧
    (storing 0x7FFD).written = [] ∧
    (∃ t, exec (.popRm32 plain (.mem atEax)) ((storing 0x7FFD).enter 2) = .next t ∧
      ∃ a ∈ t.written, a ∈ ((storing 0x7FFD).enter 2).fetched) ∧
    (∃ t, exec (.popRm32 plain (.mem atEax)) ((storing 0x7FFC).enter 2) = .next t ∧
      ∀ a ∈ t.written, a ∉ ((storing 0x7FFC).enter 2).fetched) ∧
    (∃ x v pc, exec (.popRm32 plain (.mem atEax)) ((storing 0xFFFFFFFE).enter 2) = .fault (.raised x v pc)) ∧
    ∃ r, exec (.popRm32 plain (.mem atEax)) ({ storing 0x3000 with physMem := [⟨0, 0x2FFF⟩] }.enter 2) =
      .refused r := by
  refine ⟨⟨by decide +kernel, by decide +kernel, (0x8000, 0x58#8), by decide +kernel, by decide +kernel⟩, fun _ => rfl,
    by decide +kernel, by decide +kernel, ?_, ?_, fault_of (by decide +kernel), refused_of (by decide +kernel)⟩
  · obtain ⟨t, h, p⟩ := nextWith_of (p := fun t => t.written.any fun a => ((storing 0x7FFD).enter 2).fetched.contains a)
      (o := exec (.popRm32 plain (.mem atEax)) ((storing 0x7FFD).enter 2)) (by decide +kernel)
    exact ⟨t, h, by simpa using p⟩
  · obtain ⟨t, h, p⟩ := nextWith_of (p := fun t => t.written.all fun a => !((storing 0x7FFC).enter 2).fetched.contains a)
      (o := exec (.popRm32 plain (.mem atEax)) ((storing 0x7FFC).enter 2)) (by decide +kernel)
    exact ⟨t, h, by simpa using p⟩

theorem test_fetchByte_witness :
    (highCode 0x100).fetchByte 0 = .ok (0x30100, 0) ∧ (highCode 0x100).fetchByte 1 = .error .fetchBeyondLimit ∧
      { highCode 0xFFFF with pc := 0x100000100 }.fetchByte 0 = .ok (0x30100, 0) ∧
      { l64 with pc := 0x7FFFFFFFFFFF }.fetchByte 0 = .ok (0x7FFFFFFFFFFF, 0) ∧
      { l64 with pc := 0x7FFFFFFFFFFF }.fetchByte 1 = .error .fetchNonCanonical ∧
      (unpaged l64 .read 0x401000).fetchByte 0 = .error .fetchPageFault ∧
      { l64 with physMem := [⟨0, 0xFFFF⟩] }.fetchByte 0 = .error (.outsidePhysMem 0x401000) := by decide +kernel

theorem test_step_witness :
    (code p32 [0x58]).interruptDue = false ∧
      decode (code p32 [0x58]).ctx (((code p32 [0x58]).fetchFrom maxInstrLength 0).1.map Prod.snd) =
        .ok (.popR32 plain 0, List.replicate 11 0#8) ∧
      (∀ c ∈ ((code p32 [0x58]).fetchFrom maxInstrLength 0).1.take (Instr.popR32 plain 0).length,
        c.1 ∉ (code p32 [0x58]).written) := by
  refine ⟨by decide +kernel, by decide +kernel, ?_⟩
  intro c _ h; cases h

theorem test_stepEncoded_witness :
    (code p32 [0x58]).interruptDue = false ∧ (Instr.popR32 plain 0).wf (code p32 [0x58]).ctx = true ∧
      ∀ k b, (encode (.popR32 plain 0))[k]? = some b →
        ∃ a, (code p32 [0x58]).fetchByte k = .ok (a, b) ∧ a ∉ (code p32 [0x58]).written := by
  refine ⟨by decide +kernel, by decide +kernel, ?_⟩
  have h : encode (.popR32 plain 0) = [0x58#8] := by decide
  intro k b hk
  rw [h] at hk
  match k, hk with
  | 0, hk => exact ⟨0x8000, by cases hk; decide +kernel, by simp [code, p32, State.reset]⟩
  | k + 1, hk => simp at hk

theorem test_interrupts_witness :
    ({ p32 with offers := [.nonMaskable] } : State).inhibit = false ∧
      ({ p32 with offers := [.maskable], rflags := 0x202 } : State).rflags.getLsbD 9 = true ∧
      ({ p32 with offers := [.nonMaskable], inhibit := true } : State).inhibit = true ∧
      ({ p32 with offers := [.quiet] } : State).offers = [.quiet] ∧
      ({ p32 with offers := [.maskable] } : State).rflags.getLsbD 9 = false := by decide +kernel

/-- The longest instruction: four prefixes, REX, opcode, ModRM, SIB, disp32. -/
def longest : Instr :=
  .popRm64 ⟨[.opSize, .addrSize, .lock, .seg .fs], some ⟨true, true, true, true⟩⟩
    (.mem (.sib .x8 (some 12) (some 13) (.d32 0xFFFFFFFF)))

theorem test_encode_witness : longest.wf long64 = true ∧ longest.length = 12 ∧ (Instr.popEs plain).wf real16 = true ∧
    (Instr.popEs plain).length = 1 := by decide
theorem test_decode_witness : decode long64 (encode longest) = .ok (longest, []) := by decide +kernel

theorem test_sizePairs_witness :
    (Instr.popR32 plain 0).wf p32.ctx = true ∧ (Instr.popR16 ⟨[.opSize], none⟩ 0).wf p32.ctx = true ∧
      (Instr.popR64 plain 0).wf l64.ctx = true ∧ (Instr.popR16 ⟨[.opSize], none⟩ 0).wf l64.ctx = true ∧
      (Instr.popR16 plain 0).wf r16.ctx = true ∧ (Instr.popR32 ⟨[.opSize], none⟩ 0).wf r16.ctx = true := by
  decide +kernel

theorem test_memory_witness : Memory.wf [(5, 1#8), (7, 2#8)] = true ∧ Memory.wf table = true := by decide +kernel

theorem test_storeBytes_witness :
    p32.mem.wf = true ∧ [0x3000, 0x3002, 0x3001].Nodup ∧ ∃ t, p32.storeBytes [0x3000, 0x3002, 0x3001] 0x112233 = .ok t :=
  ⟨by decide +kernel, by decide, _, State.storeBytes_ok.2 ⟨by decide +kernel, rfl⟩⟩

theorem test_modes_witness :
    p32.mode ≠ .long64 ∧ l64.mode = .long64 ∧ r16.mode = .real ∧ bitIsSet 0x14 2 ∧ ¬ bitIsSet 0x10 2 ∧
      selLocal 0x14 = true ∧ selLocal 0x10 = false := by
  unfold bitIsSet; decide +kernel

/-- A state whose DS has the given hidden part. -/
def ds (h : SegHidden) : State := p32.setSreg .ds ⟨0, h⟩

theorem test_segTest_witness :
    (ds { flat with limit := 0xFFF }).segTest .write .ds 0xFFC 4 = true ∧
      (ds { flat with limit := 0xFFF }).segTest .write .ds 0xFFD 4 = false ∧
      (ds { flat with limit := 0xFFF, kind := .data true true }).segTest .write .ds 0x1000 4 = true ∧
      (ds { flat with limit := 0xFFF, kind := .data true true }).segTest .write .ds 0xFFF 4 = false ∧
      (ds { flat with limit := 0xFFF, kind := .data true true }).segTest .write .ds 0xFFFFFFFC 4 = true ∧
      (ds { flat with limit := 0xFFF, kind := .data true true, db := false }).segTest .write .ds 0xFFFD 4 = false ∧
      (ds { flat with kind := .code true false }).segTest .read .ds 0 4 = true ∧
      (ds { flat with kind := .code false false }).segTest .read .ds 0 4 = false ∧
      (ds { flat with kind := .code true false }).segTest .write .ds 0 4 = false ∧
      (ds { flat with usable := false }).segTest .read .ds 0 4 = false := by decide +kernel

theorem test_canonical_witness :
    l64.segTest .read .ss 0x7FFFFFFFFFF8 8 = true ∧ l64.segTest .read .ss 0x7FFFFFFFFFF9 8 = false ∧
      l64.segTest .read .ss 0xFFFF800000000000 8 = true ∧ l64.segTest .read .ss 0xFFFF7FFFFFFFFFFF 1 = false ∧
      (par l64 { Params.initial with linAddrBits := .w57 }).segTest .read .ss 0x7FFFFFFFFFF9 8 = true := by
  decide +kernel

theorem test_stackFaults_witness :
    ((reg s16 4 0xFFFE).Starts (.popR32 plain 0) ∧
      (reg s16 4 0xFFFE).segTest .read .ss (reg s16 4 0xFFFE).sp 4 = false) ∧
    ((reg (p32user true) 4 0x2002).Starts (.popR32 plain 0) ∧
      (reg (p32user true) 4 0x2002).segTest .read .ss (reg (p32user true) 4 0x2002).sp 4 = true ∧
      (reg (p32user true) 4 0x2002).Unaligned ((reg (p32user true) 4 0x2002).linear .ss (reg (p32user true) 4 0x2002).sp 0) 4) ∧
    ((unpaged p32 .read 0x2000).Starts (.popR32 plain 0) ∧
      (unpaged p32 .read 0x2000).segTest .read .ss (unpaged p32 .read 0x2000).sp 4 = true ∧
      ¬ (unpaged p32 .read 0x2000).Unaligned ((unpaged p32 .read 0x2000).linear .ss (unpaged p32 .read 0x2000).sp 0) 4 ∧
      (unpaged p32 .read 0x2000).FirstFault .read
        ((unpaged p32 .read 0x2000).linears .ss (unpaged p32 .read 0x2000).sp 4) 0x2000 3) ∧
    p32.params.faultOrder = .fixed := by
  refine ⟨⟨starts_of (by decide +kernel) rfl (by decide +kernel), by decide +kernel⟩,
    ⟨starts_of (by decide +kernel) rfl (by decide +kernel), by decide +kernel, ?_⟩,
    ⟨starts_of (by decide +kernel) rfl (by decide +kernel), by decide +kernel, ?_, firstFault_of (by decide +kernel)⟩, rfl⟩ <;>
  unfold State.Unaligned <;> decide +kernel

/-- P32 with memory up to an address. -/
def upTo (s : State) (last : Nat) : State := { s with physMem := [⟨0, last⟩] }

theorem test_stackOutside_witness :
    (upTo p32 0x2001).Starts (.popR32 plain 0) ∧ (upTo p32 0x2001).segTest .read .ss (upTo p32 0x2001).sp 4 = true ∧
      ¬ (upTo p32 0x2001).Unaligned ((upTo p32 0x2001).linear .ss (upTo p32 0x2001).sp 0) 4 ∧
      ((upTo p32 0x2001).linears .ss (upTo p32 0x2001).sp 4).map ((upTo p32 0x2001).translate .read (upTo p32 0x2001).cpl) =
        [0x2000, 0x2001, 0x2002, 0x2003].map Except.ok ∧
      (upTo p32 0x2001).FirstOutside [0x2000, 0x2001, 0x2002, 0x2003] 0x2002 := by
  refine ⟨starts_of (by decide +kernel) rfl (by decide +kernel), by decide +kernel, ?_, by decide +kernel,
    [0x2000, 0x2001], [0x2003], rfl, by decide +kernel, by decide +kernel⟩
  unfold State.Unaligned; decide +kernel

/-- The premises the clauses about a destination share, for `POP dword [EAX]` and the value 5. -/
def MemStarts (s : State) (off : Word) : Prop :=
  PopsMemory (.popRm32 plain (.mem atEax)) .s32 atEax ∧ s.Starts (.popRm32 plain (.mem atEax)) ∧
    s.params.faultOrder = .fixed ∧ s.Popped 4 5 ∧ s.destOffset plain .s32 atEax 2 = .ok off ∧
    segmentOf s.mode plain atEax = .ds

/-- P32 at CPL 3 with EAX at an odd address and a doubleword on the stack. -/
def oddEax : State := at' (reg (p32user true) 0 0x3001) 0x2000 4 5

/-- P32 where the page EAX is in cannot be written. -/
def noWrite : State := unpaged (reg (top 5) 0 0x3000) .write 0x3000

theorem test_destFaults_witness :
    (MemStarts (reg (top 5) 0 0xFFFFFFFE) 0xFFFFFFFE ∧ (reg (top 5) 0 0xFFFFFFFE).segTest .write .ds 0xFFFFFFFE 4 = false) ∧
    (MemStarts oddEax 0x3001 ∧ oddEax.segTest .write .ds 0x3001 4 = true ∧
      oddEax.Unaligned (oddEax.linear .ds 0x3001 0) 4) ∧
    (MemStarts noWrite 0x3000 ∧ noWrite.segTest .write .ds 0x3000 4 = true ∧
      ¬ noWrite.Unaligned (noWrite.linear .ds 0x3000 0) 4 ∧
      noWrite.FirstFault .write (noWrite.linears .ds 0x3000 4) 0x3000 3) := by
  refine ⟨⟨⟨.rm32 _ _, starts_of (by decide +kernel) rfl (by decide +kernel), rfl, popped_of (by decide +kernel),
      by decide +kernel, rfl⟩, by decide +kernel⟩,
    ⟨⟨.rm32 _ _, starts_of (by decide +kernel) rfl (by decide +kernel), rfl, popped_of (by decide +kernel),
      by decide +kernel, rfl⟩, by decide +kernel, ?_⟩,
    ⟨⟨.rm32 _ _, starts_of (by decide +kernel) rfl (by decide +kernel), rfl, popped_of (by decide +kernel),
      by decide +kernel, rfl⟩, by decide +kernel, ?_, firstFault_of (by decide +kernel)⟩⟩ <;>
  unfold State.Unaligned <;> decide +kernel

/-- A destination whose last byte does not exist. -/
def halfOutside : State := upTo (reg (top 5) 0 0x3000) 0x3002

theorem test_destOutside_witness :
    MemStarts halfOutside 0x3000 ∧ halfOutside.segTest .write .ds 0x3000 4 = true ∧
      ¬ halfOutside.Unaligned (halfOutside.linear .ds 0x3000 0) 4 ∧
      (halfOutside.linears .ds 0x3000 4).map (halfOutside.translate .write halfOutside.cpl) =
        [0x3000, 0x3001, 0x3002, 0x3003].map Except.ok ∧
      halfOutside.FirstOutside [0x3000, 0x3001, 0x3002, 0x3003] 0x3003 := by
  refine ⟨⟨.rm32 _ _, starts_of (by decide +kernel) rfl (by decide +kernel), rfl, popped_of (by decide +kernel),
      by decide +kernel, rfl⟩, by decide +kernel, ?_, by decide +kernel,
    [0x3000, 0x3001, 0x3002], [], rfl, by decide +kernel, by decide +kernel⟩
  unfold State.Unaligned; decide +kernel

/-- An unaligned stack on a page that faults, at CPL 3, either fault reported. -/
def twoFaults : State :=
  par (unpaged (reg (p32user true) 4 0x2002) .read 0x2000) { Params.initial with faultOrder := .either }

theorem test_either_witness :
    twoFaults.Starts (.popR32 plain 0) ∧ (∀ n o, ¬ PopsMemory (.popR32 plain 0) n o) ∧
      twoFaults.params.faultOrder = .either ∧ twoFaults.segTest .read .ss twoFaults.sp 4 = true ∧
      twoFaults.Unaligned (twoFaults.linear .ss twoFaults.sp 0) 4 ∧
      twoFaults.FirstFault .read (twoFaults.linears .ss twoFaults.sp 4) 0x2002 3 := by
  refine ⟨starts_of (by decide +kernel) rfl (by decide +kernel), ?_, rfl, by decide +kernel, ?_,
    firstFault_of (by decide +kernel)⟩
  · intro n o h; cases h
  · unfold State.Unaligned; decide +kernel

/-- An odd stack pointer and an odd EAX at CPL 3, the page of EAX not writable, either fault reported. -/
def manyFaults : State :=
  par (unpaged (reg (reg (p32user true) 4 0x2002) 0 0x3001) .write 0x3000) { Params.initial with faultOrder := .either }

/-- The same with an aligned stack pointer and a doubleword on the stack. -/
def destinationFaults : State := reg (at' manyFaults 0x2000 4 5) 4 0x2000

/-- The odd stack pointer with a destination in order. -/
def stackFaults : State := reg manyFaults 0 0x4000

/-- A destination the write reaches gives no cause for a fault. -/
theorem not_raises_of_reaches {s : State} {i : Instr} {n : Size} {m : MemOperand} {off : Word} {as : List Nat}
    (ho : s.destOffset i.prefixes n m i.length = .ok off)
    (hr : s.Reaches .write (segmentOf s.mode i.prefixes m) off n.bytes as) (e : Exception) :
    ¬ s.DestinationRaises i n m e := by
  rintro ⟨off', ho', h⟩
  rw [ho] at ho'; cases ho'
  obtain ⟨h1, h2, h3, -⟩ := hr
  rcases h with ⟨h, -⟩ | ⟨-, ⟨⟨ha, hc, hm, hx⟩, -⟩ | ⟨l, c, ⟨before, after, hl, hf, -⟩, -⟩⟩
  · rw [h1] at h; cases h
  · simp [State.alignFault, ha, hc, hm, hx] at h2
  · have : s.translate .write s.cpl l ∈ as.map Except.ok := by rw [← h3, hl]; simp
    obtain ⟨a, -, e⟩ := List.mem_map.1 this
    rw [hf] at e; cases e

theorem test_eitherMemory_witness :
    (PopsMemory (.popRm32 plain (.mem atEax)) .s32 atEax ∧ manyFaults.Starts (.popRm32 plain (.mem atEax)) ∧
      manyFaults.params.faultOrder = .either ∧ manyFaults.AccessRaises .read .ss manyFaults.sp 4 .ac ∧
      manyFaults.DestinationRaises (.popRm32 plain (.mem atEax)) .s32 atEax .ac ∧
      manyFaults.DestinationRaises (.popRm32 plain (.mem atEax)) .s32 atEax (.pf 3 0x3001)) ∧
    (destinationFaults.Starts (.popRm32 plain (.mem atEax)) ∧ destinationFaults.Popped 4 5 ∧
      destinationFaults.DestinationRaises (.popRm32 plain (.mem atEax)) .s32 atEax .ac) ∧
    (stackFaults.Starts (.popRm32 plain (.mem atEax)) ∧ stackFaults.AccessRaises .read .ss stackFaults.sp 4 .ac ∧
      ∀ e, ¬ stackFaults.DestinationRaises (.popRm32 plain (.mem atEax)) .s32 atEax e) := by
  refine ⟨⟨.rm32 _ _, starts_of (by decide +kernel) rfl (by decide +kernel), rfl,
      .inr ⟨by decide +kernel, .inl ⟨?_, rfl⟩⟩, ⟨0x3001, by decide +kernel, .inr ⟨by decide +kernel, .inl ⟨?_, rfl⟩⟩⟩,
      ⟨0x3001, by decide +kernel,
        .inr ⟨by decide +kernel, .inr ⟨0x3001, 3, firstFault_of (by decide +kernel), rfl⟩⟩⟩⟩,
    ⟨starts_of (by decide +kernel) rfl (by decide +kernel), popped_of (by decide +kernel),
      ⟨0x3001, by decide +kernel, .inr ⟨by decide +kernel, .inl ⟨?_, rfl⟩⟩⟩⟩,
    ⟨starts_of (by decide +kernel) rfl (by decide +kernel), .inr ⟨by decide +kernel, .inl ⟨?_, rfl⟩⟩, ?_⟩⟩
  iterate 4 unfold State.Unaligned; decide +kernel
  exact not_raises_of_reaches (off := 0x4000) (as := [0x4000, 0x4001, 0x4002, 0x4003]) (by decide +kernel)
    (reaches_of (by decide +kernel) (by decide +kernel))

/-- P32 with a NULL DS. -/
def nullDs : State := reg (at' (ds { flat with usable := false }) 0x2000 4 5) 0 0x3000

theorem test_nullDestination_witness :
    PopsMemory (.popRm32 plain (.mem atEax)) .s32 atEax ∧ nullDs.Starts (.popRm32 plain (.mem atEax)) ∧
      nullDs.ProtectedOrCompat ∧ nullDs.Popped 4 5 ∧ nullDs.destOffset plain .s32 atEax 2 = .ok 0x3000 ∧
      segmentOf nullDs.mode plain atEax = .ds ∧ isNull (nullDs.sreg .ds).sel = true ∧
      (nullDs.sreg .ds).hid.usable = false :=
  ⟨.rm32 _ _, starts_of (by decide +kernel) rfl (by decide +kernel), .inl rfl, popped_of (by decide +kernel),
    by decide +kernel, rfl, rfl, rfl⟩

theorem test_addressSizes_witness :
    r16.ctx.addressSize plain = .s16 ∧ p32.ctx.addressSize plain = .s32 ∧ p32.spWraps .s32 = false ∧
      l64.ctx.addressSize plain = .s64 ∧ l64.ctx.addressSize ⟨[.addrSize], none⟩ = .s32 ∧
      (some 12 : Option GprNum) ≠ some 4 := by decide +kernel

theorem test_shows_witness :
    p32.Shows 5 ∧ p32.ShowsIndex (some 7) ∧ p32.ShowsIndex none ∧ l64.Shows 13 ∧ l64.ShowsIndex (some 12) :=
  ⟨.inr (by decide), fun _ h => (by cases h; exact .inr (by decide)), fun _ h => (by cases h), .inl rfl, fun _ _ => .inl rfl⟩

/-- A 16-bit stack pointer that wraps, `WrapEA16` as given. -/
def wrapping (w : WrapEA16) : State := par (reg s16 4 0xFFFC) { Params.initial with wrapEA16 := w }

theorem test_wrap_witness : ∀ w ∈ [WrapEA16.refuse, .carry, .wrap, .anyBase],
    (wrapping w).ctx.addressSize plain = .s32 ∧ (wrapping w).spWraps .s32 = true ∧ (wrapping w).params.wrapEA16 = w := by
  decide +kernel

theorem test_no_wrap_witness : (reg s16 4 0xFFFB).spWraps .s32 = false := by decide +kernel

theorem test_override_witness :
    plain.segOverride = none ∧ (⟨[.lock, .seg .fs], none⟩ : Prefixes).segOverride = some .fs ∧
      (⟨[.seg .es], none⟩ : Prefixes).segOverride = some .es := by decide

theorem ready_of {s : State} {i : Instr} (h : s.Starts i) (hf : s.nextPcFits i.length = true) : s.Ready i := ⟨h, hf⟩

theorem starts_reg64 {s : State} {p : Prefixes} {d : GprNum} (hw : (Instr.popR64 p d).wf s.ctx = true)
    (hl : p.locked = false) : s.Starts (.popR64 p d) := ⟨hw, hl, fun _ _ h => nomatch h⟩

theorem test_popR16_witness :
    PopsRegister (.popR16 ⟨[.opSize], none⟩ 4) .s16 4 ∧ (top 0x1234).Ready (.popR16 ⟨[.opSize], none⟩ 4) ∧
      (top 0x1234).Ready (.popRm16 ⟨[.opSize], none⟩ (.reg 0)) ∧ (top 0x1234).Popped 2 0x1234 :=
  ⟨.r16 _ _, ready_of (starts_of (by decide +kernel) rfl (by decide +kernel)) (by decide +kernel),
    ready_of (starts_of (by decide +kernel) rfl (by decide +kernel)) (by decide +kernel), popped_of (by decide +kernel)⟩

theorem test_popR32_witness :
    PopsRegister (.popRm32 plain (.reg 7)) .s32 7 ∧ (top 5).Ready (.popRm32 plain (.reg 7)) ∧
      (top 5).Ready (.popR32 plain 4) ∧ (top 5).Popped 4 5 :=
  ⟨.rm32 _ _, ready_of (starts_of (by decide +kernel) rfl (by decide +kernel)) (by decide +kernel),
    ready_of (starts_of (by decide +kernel) rfl (by decide +kernel)) (by decide +kernel), popped_of (by decide +kernel)⟩

theorem test_popR64_witness :
    PopsRegister (.popR64 (rex false false false true) 15) .s64 15 ∧
      (at' l64 sp64 8 9).Ready (.popR64 (rex false false false true) 15) ∧ (at' l64 sp64 8 9).Popped 8 9 :=
  ⟨.r64 _ _, ready_of (starts_reg64 (by decide +kernel) rfl) (by decide +kernel), popped_of (by decide +kernel)⟩

theorem test_popSp_witness :
    (top 5).Ready (.popR32 plain 4) ∧ (top 5).stackAddrSize = .s32 ∧
      (at' s16 0x12000 4 5).Ready (.popR32 plain 4) ∧ (at' s16 0x12000 4 5).stackAddrSize = .s16 ∧
      (at' s16 0x12000 4 5).Popped 4 5 ∧ (at' l64 sp64 8 9).Ready (.popR64 plain 4) ∧
      (at' l64 sp64 8 9).stackAddrSize = .s64 :=
  ⟨ready_of (starts_of (by decide +kernel) rfl (by decide +kernel)) (by decide +kernel), by decide +kernel,
    ready_of (starts_of (by decide +kernel) rfl (by decide +kernel)) (by decide +kernel), by decide +kernel,
    popped_of (by decide +kernel), ready_of (starts_reg64 (by decide +kernel) rfl) (by decide +kernel), by decide +kernel⟩

theorem test_twoEncodings_witness :
    (SecondEncoding (.popRm16 ⟨[.opSize], none⟩ (.reg 0)) (.popR16 ⟨[.opSize], none⟩ 0) ∧
      ∃ t, exec (.popRm16 ⟨[.opSize], none⟩ (.reg 0)) p32 = .next t) ∧
    (SecondEncoding (.popRm32 plain (.reg 4)) (.popR32 plain 4) ∧ (∃ t, exec (.popRm32 plain (.reg 4)) p32 = .next t) ∧
      (∃ u, exec (.popR32 plain 4) p32 = .next u) ∧ p32.nextPcFits (Instr.popRm32 plain (.reg 4)).length = true ∧
      p32.params.faultOrder = .fixed ∧ ∃ x v pc, exec (.popRm32 plain (.reg 4)) (reg s16 4 0xFFFE) = .fault (.raised x v pc)) ∧
    (SecondEncoding (.popRm64 plain (.reg 0)) (.popR64 plain 0) ∧ ∃ t, exec (.popRm64 plain (.reg 0)) l64 = .next t) :=
  ⟨⟨.pop16 _ _, next_of (by decide +kernel)⟩,
    ⟨.pop32 _ _, next_of (by decide +kernel), next_of (by decide +kernel), by decide +kernel, rfl,
      fault_of (by decide +kernel)⟩,
    ⟨.pop64 _ _, next_of (by decide +kernel)⟩⟩

theorem test_popMemory_witness :
    PopsMemory (.popRm32 plain (.mem atEax)) .s32 atEax ∧ (reg (top 5) 0 0x3000).Ready (.popRm32 plain (.mem atEax)) ∧
      (reg (top 5) 0 0x3000).Popped 4 5 ∧ (reg (top 5) 0 0x3000).destOffset plain .s32 atEax 2 = .ok 0x3000 ∧
      (reg (top 5) 0 0x3000).Reaches .write .ds 0x3000 4 [0x3000, 0x3001, 0x3002, 0x3003] ∧
      (reg (top 5) 0 0x3000).mem.wf = true :=
  ⟨.rm32 _ _, ready_of (starts_of (by decide +kernel) rfl (by decide +kernel)) (by decide +kernel),
    popped_of (by decide +kernel), by decide +kernel, reaches_of (by decide +kernel) (by decide +kernel), by decide +kernel⟩

theorem test_frames_witness :
    (∃ t, exec (.popR32 plain 3) (top 5) = .next t) ∧
      (∃ t, exec (.popRm32 plain (.mem atEax)) (reg (top 5) 0 0x3000) = .next t) ∧
      (∃ t, exec (.popDs plain) (top 0x10) = .next t) ∧ (∃ t, exec (.popFs64 plain) (at' l64 sp64 8 0) = .next t) ∧
      ∃ t, exec (.popSs plain) (at' r16 0x20100 2 7) = .next t :=
  ⟨next_of (by decide +kernel), next_of (by decide +kernel), next_of (by decide +kernel), next_of (by decide +kernel),
    next_of (by decide +kernel)⟩

theorem test_realSegment_witness :
    PopsSegment (.popSs plain) .ss ∧ (at' r16 0x20100 2 0xB800).Ready (.popSs plain) ∧
      (at' r16 0x20100 2 0xB800).mode = .real ∧ (at' r16 0x20100 2 0xB800).PopsSelector (.popSs plain) 0xB800 ∧
      (at' v86 0x20100 2 0xB800).Ready (.popGs16 plain) ∧ (at' v86 0x20100 2 0xB800).mode = .v8086 :=
  ⟨.ss _, ready_of (starts_of (by decide +kernel) rfl (by decide +kernel)) (by decide +kernel), rfl,
    selector_of (v := 0xB800) (by decide +kernel),
    ready_of (starts_of (by decide +kernel) rfl (by decide +kernel)) (by decide +kernel), rfl⟩

theorem test_nullSelector_witness :
    PopsSegment (.popDs plain) .ds ∧ (top 3).Ready (.popDs plain) ∧ (top 3).LoadsData .ds ∧
      (top 3).PopsSelector (.popDs plain) 3 ∧ (3 : BitVec 16).toNat ≤ 3 :=
  ⟨.ds _, ready_of (starts_of (by decide +kernel) rfl (by decide +kernel)) (by decide +kernel),
    ⟨by decide, by decide, by decide +kernel, by decide +kernel⟩, selector_of (v := 3) (by decide +kernel), by decide⟩

theorem test_loadData64_witness : (at' l64 sp64 8 0x10).LoadsData .gs :=
  ⟨by decide, by decide, by decide +kernel, by decide +kernel⟩

/-- The descriptors of the table, by their quadwords. -/
def flatData : Descriptor := ⟨0x00CF93000000FFFF⟩
def unmarked : Descriptor := ⟨0x00CF92000000FFFF⟩
def absent : Descriptor := ⟨0x00CF13000000FFFF⟩
def executeOnly : Descriptor := ⟨0x00CF99000000FFFF⟩
def readOnly : Descriptor := ⟨0x00CF91000000FFFF⟩
def conforming : Descriptor := ⟨0x00CF9F000000FFFF⟩
def userData : Descriptor := ⟨0x00CFF3000000FFFF⟩

/-- The premises the clauses about a load of DS share. -/
def LoadStarts (s : State) (sel : BitVec 16) : Prop :=
  PopsSegment (.popDs plain) .ds ∧ s.Starts (.popDs plain) ∧ s.LoadsData .ds ∧ s.PopsSelector (.popDs plain) sel ∧
    3 < sel.toNat

theorem loadStarts_of {s : State} {v : Word} {sel : BitVec 16} (hw : (Instr.popDs plain).wf s.ctx = true)
    (hm : s.mode = .protected_) (h : s.stackRead (s.stackBytes (.popDs plain)) = .ok v) (hv : v.setWidth 16 = sel)
    (h3 : 3 < sel.toNat) : LoadStarts s sel := by
  refine ⟨.ds _, starts_of hw rfl (by rw [hm]; decide), ⟨by decide, by decide, by rw [hm]; decide, by rw [hm]; decide⟩, ?_, h3⟩
  rw [← hv]; exact selector_of h

/-- P32 whose descriptor 0010 has its accessed bit clear. -/
def topUnmarked : State := at' (top 0x10) 0x1010 8 0x00CF92000000FFFF

theorem test_dataSegment_witness :
    (LoadStarts (top 0x10) 0x10 ∧ (top 0x10).Ready (.popDs plain) ∧ (top 0x10).DescriptorAt 0x10 flatData ∧
      SegKind.dataOrReadable flatData.kind = true ∧ (top 0x10).NoneAbove 0x10 flatData ∧ flatData.present = true ∧
      (top 0x10).CanMark 0x10 flatData) ∧
    (LoadStarts topUnmarked 0x10 ∧ topUnmarked.Ready (.popDs plain) ∧ topUnmarked.DescriptorAt 0x10 unmarked ∧
      SegKind.dataOrReadable unmarked.kind = true ∧ topUnmarked.NoneAbove 0x10 unmarked ∧ unmarked.present = true ∧
      topUnmarked.CanMark 0x10 unmarked) ∧
    (conforming.kind = .code true true ∧ (top 0x13).OneAbove 0x13 flatData) := by
  refine ⟨⟨loadStarts_of (v := 0x10) (by decide +kernel) rfl (by decide +kernel) rfl (by decide),
      ready_of (starts_of (by decide +kernel) rfl (by decide +kernel)) (by decide +kernel),
      descriptor_of (by decide +kernel) (by decide +kernel), by decide, ?_, by decide, .inl (by decide)⟩,
    ⟨loadStarts_of (v := 0x10) (by decide +kernel) rfl (by decide +kernel) rfl (by decide),
      ready_of (starts_of (by decide +kernel) rfl (by decide +kernel)) (by decide +kernel),
      descriptor_of (by decide +kernel) (by decide +kernel), by decide, ?_, by decide,
      .inr ⟨0x1015, by decide +kernel, by decide +kernel⟩⟩, by decide, ?_⟩ <;>
  simp only [State.OneAbove, State.BothAbove, State.NoneAbove] <;> decide +kernel

theorem test_dataChecks_witness :
    (LoadStarts (top 0x40) 0x40 ∧ (top 0x40).outsideTable 0x40 = true ∧ (top 0x3B).outsideTable 0x3B = false) ∧
    (LoadStarts (top 0x28) 0x28 ∧ (top 0x28).DescriptorAt 0x28 executeOnly ∧
      SegKind.dataOrReadable executeOnly.kind = false) ∧
    (LoadStarts (at' (p32user false) 0x2000 4 0x13) 0x13 ∧ (at' (p32user false) 0x2000 4 0x13).DescriptorAt 0x13 flatData ∧
      SegKind.dataOrReadable flatData.kind = true ∧ flatData.kind ≠ .code true true ∧
      (at' (p32user false) 0x2000 4 0x13).BothAbove 0x13 flatData) ∧
    (∀ r ∈ [DataSegPriv.either, .refuse], (par (top 0x13) { Params.initial with dataSegPriv := r }).params.dataSegPriv = r) ∧
    (LoadStarts (par (top 0x13) { Params.initial with dataSegPriv := .refuse }) 0x13 ∧
      (par (top 0x13) { Params.initial with dataSegPriv := .refuse }).DescriptorAt 0x13 flatData ∧
      (par (top 0x13) { Params.initial with dataSegPriv := .refuse }).OneAbove 0x13 flatData) ∧
    (LoadStarts (top 0x18) 0x18 ∧ (top 0x18).DescriptorAt 0x18 absent ∧ SegKind.dataOrReadable absent.kind = true ∧
      absent.present = false ∧ (top 0x18).NoneAbove 0x18 absent) := by
  refine ⟨⟨loadStarts_of (v := 0x40) (by decide +kernel) rfl (by decide +kernel) rfl (by decide), by decide +kernel,
      by decide +kernel⟩,
    ⟨loadStarts_of (v := 0x28) (by decide +kernel) rfl (by decide +kernel) rfl (by decide),
      descriptor_of (by decide +kernel) (by decide +kernel), by decide⟩,
    ⟨loadStarts_of (v := 0x13) (by decide +kernel) rfl (by decide +kernel) rfl (by decide),
      descriptor_of (by decide +kernel) (by decide +kernel), by decide, by decide, ?_⟩, fun _ _ => rfl,
    ⟨loadStarts_of (v := 0x13) (by decide +kernel) rfl (by decide +kernel) rfl (by decide),
      descriptor_of (by decide +kernel) (by decide +kernel), ?_⟩,
    ⟨loadStarts_of (v := 0x18) (by decide +kernel) rfl (by decide +kernel) rfl (by decide),
      descriptor_of (by decide +kernel) (by decide +kernel), by decide, by decide, ?_⟩⟩ <;>
  simp only [State.OneAbove, State.BothAbove, State.NoneAbove] <;> decide +kernel

/-- Under the model's fourth value of DataSegPriv: the band, with a segment that is present and with one that is not. -/
def band (v : Nat) : State := par (top v) { Params.initial with dataSegPriv := .anyReading }

theorem test_freeReading_witness :
    (LoadStarts (band 0x13) 0x13 ∧ (band 0x13).DescriptorAt 0x13 flatData ∧
      SegKind.dataOrReadable flatData.kind = true ∧ flatData.kind ≠ .code true true ∧ (band 0x13).OneAbove 0x13 flatData ∧
      (band 0x13).params.dataSegPriv = .anyReading ∧ flatData.present = true ∧ (band 0x13).CanMark 0x13 flatData ∧
      (band 0x13).nextPcFits (Instr.popDs plain).length = true) ∧
    (LoadStarts (band 0x1B) 0x1B ∧ (band 0x1B).DescriptorAt 0x1B absent ∧ (band 0x1B).OneAbove 0x1B absent ∧
      absent.present = false) := by
  refine ⟨⟨loadStarts_of (v := 0x13) (by decide +kernel) rfl (by decide +kernel) rfl (by decide),
      descriptor_of (by decide +kernel) (by decide +kernel), by decide, by decide, ?_, rfl, by decide, .inl (by decide),
      by decide +kernel⟩,
    ⟨loadStarts_of (v := 0x1B) (by decide +kernel) rfl (by decide +kernel) rfl (by decide),
      descriptor_of (by decide +kernel) (by decide +kernel), ?_, by decide⟩⟩ <;>
  simp only [State.OneAbove, State.BothAbove, State.NoneAbove] <;> decide +kernel

/-- P32 where the page of the table faults for one kind of access. -/
def tablePage (s : State) (acc : Access) : State := unpaged s acc 0x1000

theorem test_descriptorFaults_witness :
    (LoadStarts (tablePage (top 0x10) .read) 0x10 ∧ (tablePage (top 0x10) .read).outsideTable 0x10 = false ∧
      (tablePage (top 0x10) .read).FirstFaultAt .read supervisor
        ((List.range 8).map ((tablePage (top 0x10) .read).descriptorByte 0x10)) 0x1010 3) ∧
    (LoadStarts (tablePage topUnmarked .write) 0x10 ∧ (tablePage topUnmarked .write).outsideTable 0x10 = false ∧
      (tablePage topUnmarked .write).DescriptorAt 0x10 unmarked ∧
      (tablePage topUnmarked .write).Loadable .ds 0x10 unmarked ∧ (tablePage topUnmarked .write).Loadable .ss 0x10 unmarked ∧
      unmarked.raw.getLsbD 40 = false ∧
      (tablePage topUnmarked .write).translate .write supervisor
        ((tablePage topUnmarked .write).descriptorByte 0x10 5) = .error 3) ∧
    (top 0x10).LoadsDescriptor .ds ∧ (top 0x10).LoadsDescriptor .ss := by
  refine ⟨⟨loadStarts_of (v := 0x10) (by decide +kernel) rfl (by decide +kernel) rfl (by decide), by decide +kernel,
      [], (List.range' 1 7).map ((tablePage (top 0x10) .read).descriptorByte 0x10), by decide +kernel, by decide +kernel,
      by simp⟩,
    ⟨loadStarts_of (v := 0x10) (by decide +kernel) rfl (by decide +kernel) rfl (by decide), by decide +kernel,
      descriptor_of (by decide +kernel) (by decide +kernel), ⟨by decide, ?_⟩,
      ⟨by decide, by decide +kernel, by decide +kernel, false, by decide⟩, by decide, by decide +kernel⟩,
    .inl ⟨by decide, by decide, by decide +kernel, by decide +kernel⟩, .inr ⟨rfl, .inl rfl⟩⟩
  refine ⟨by decide, .inr (.inl ?_)⟩
  simp only [State.NoneAbove]; decide +kernel

/-- P32 whose memory ends within the descriptor 0010, and P32 where byte 5 of it is written elsewhere, where nothing is. -/
def shortTable : State := { top 0x10 with physMem := [⟨0, 0x1012⟩, ⟨0x2000, 0x2FFF⟩] }
def strayTable : State :=
  { topUnmarked with physMem := [⟨0, 0xFFFF⟩], paging := [⟨0x1000, 0x1FFF, some .write, none, .frame 0x10000⟩] }

theorem test_descriptorOutside_witness :
    (LoadStarts shortTable 0x10 ∧ shortTable.LoadsDescriptor .ds ∧ shortTable.outsideTable 0x10 = false ∧
      ((List.range 8).map (shortTable.descriptorByte 0x10)).map (shortTable.translate .read supervisor) =
        ((List.range 8).map (0x1010 + ·)).map Except.ok ∧
      shortTable.FirstOutside ((List.range 8).map (0x1010 + ·)) 0x1013) ∧
    (LoadStarts strayTable 0x10 ∧ strayTable.outsideTable 0x10 = false ∧ strayTable.DescriptorAt 0x10 unmarked ∧
      strayTable.Loadable .ds 0x10 unmarked ∧
      strayTable.translate .write supervisor (strayTable.descriptorByte 0x10 5) = .ok 0x10015 ∧
      strayTable.inPhysMem 0x10015 = false) := by
  refine ⟨⟨loadStarts_of (v := 0x10) (by decide +kernel) rfl (by decide +kernel) rfl (by decide),
      .inl ⟨by decide, by decide, by decide +kernel, by decide +kernel⟩, by decide +kernel, by decide +kernel,
      [0x1010, 0x1011, 0x1012], [0x1014, 0x1015, 0x1016, 0x1017], by decide +kernel, by decide +kernel,
      by decide +kernel⟩,
    ⟨loadStarts_of (v := 0x10) (by decide +kernel) rfl (by decide +kernel) rfl (by decide), by decide +kernel,
      descriptor_of (by decide +kernel) (by decide +kernel), ⟨by decide, by decide, .inr (.inl ?_)⟩, by decide +kernel,
      by decide +kernel⟩⟩
  simp only [State.NoneAbove]; decide +kernel

/-- Premise P6 for an instruction that loads from the table of P32 (95_test_vectors.md section 2). -/
theorem test_accessed_witness : (top 0x10).loadsAccessed (.popDs plain) ∧ ∃ t, exec (.popDs plain) (top 0x10) = .next t := by
  refine ⟨?_, next_of (by decide +kernel)⟩
  rintro sel d t ⟨-, -, raw, hr, rfl⟩ - - hd -
  have hv : (top 0x10).stackRead 4 = .ok 0x10 := by decide +kernel
  have hf : (top 0x10).readDescriptor 0x10 = .ok flatData := by decide +kernel
  cases hr.symm.trans hv
  cases hd.symm.trans hf
  decide

/-- The premises the clauses about POP SS share. -/
def StackStarts (s : State) (sel : BitVec 16) : Prop :=
  s.Starts (.popSs plain) ∧ s.ProtectedOrCompat ∧ s.PopsSelector (.popSs plain) sel

theorem stackStarts_of {s : State} {v : Word} {sel : BitVec 16} (hw : (Instr.popSs plain).wf s.ctx = true)
    (hm : s.mode = .protected_) (h : s.stackRead (s.stackBytes (.popSs plain)) = .ok v) (hv : v.setWidth 16 = sel) :
    StackStarts s sel := by
  refine ⟨starts_of hw rfl (by rw [hm]; decide), .inl hm, ?_⟩
  rw [← hv]; exact selector_of h

theorem test_stackSegment_witness :
    StackStarts (top 3) 3 ∧ (StackStarts (top 4) 4 ∧ (top 4).outsideTable 4 = true) ∧
    (StackStarts (top 0x11) 0x11 ∧ (top 0x11).DescriptorAt 0x11 flatData ∧ selRpl 0x11 ≠ (top 0x11).cpl) ∧
    (StackStarts (top 0x20) 0x20 ∧ (top 0x20).DescriptorAt 0x20 userData ∧ userData.dpl ≠ (top 0x20).cpl) ∧
    (StackStarts (top 0x30) 0x30 ∧ (top 0x30).DescriptorAt 0x30 readOnly ∧ ∀ x, readOnly.kind ≠ .data true x) ∧
    (StackStarts (top 0x18) 0x18 ∧ (top 0x18).DescriptorAt 0x18 absent ∧ selRpl 0x18 = (top 0x18).cpl ∧
      absent.dpl = (top 0x18).cpl ∧ absent.kind = .data true false ∧ absent.present = false) ∧
    (StackStarts (top 0x10) 0x10 ∧ (top 0x10).DescriptorAt 0x10 flatData ∧ selRpl 0x10 = (top 0x10).cpl ∧
      flatData.dpl = (top 0x10).cpl ∧ flatData.kind = .data true false ∧ flatData.present = true ∧
      (top 0x10).CanMark 0x10 flatData ∧ (top 0x10).nextPcFits (Instr.popSs plain).length = true) := by
  have hk : readOnly.kind = .data false false := by decide
  exact ⟨stackStarts_of (v := 3) (by decide +kernel) rfl (by decide +kernel) rfl,
    ⟨stackStarts_of (v := 4) (by decide +kernel) rfl (by decide +kernel) rfl, by decide +kernel⟩,
    ⟨stackStarts_of (v := 0x11) (by decide +kernel) rfl (by decide +kernel) rfl,
      descriptor_of (by decide +kernel) (by decide +kernel), by decide +kernel⟩,
    ⟨stackStarts_of (v := 0x20) (by decide +kernel) rfl (by decide +kernel) rfl,
      descriptor_of (by decide +kernel) (by decide +kernel), by decide +kernel⟩,
    ⟨stackStarts_of (v := 0x30) (by decide +kernel) rfl (by decide +kernel) rfl,
      descriptor_of (by decide +kernel) (by decide +kernel), fun x => by rw [hk]; simp⟩,
    ⟨stackStarts_of (v := 0x18) (by decide +kernel) rfl (by decide +kernel) rfl,
      descriptor_of (by decide +kernel) (by decide +kernel), by decide +kernel, by decide +kernel, by decide, by decide⟩,
    ⟨stackStarts_of (v := 0x10) (by decide +kernel) rfl (by decide +kernel) rfl,
      descriptor_of (by decide +kernel) (by decide +kernel), by decide +kernel, by decide +kernel, by decide, by decide,
      .inl (by decide), by decide +kernel⟩⟩

theorem test_legacy64_witness : l64.mode = .long64 ∧ plain.wf l64.ctx = true := ⟨rfl, by decide +kernel⟩

theorem test_lock_witness :
    (Instr.popRm32 ⟨[.lock], none⟩ (.mem atEax)).wf p32.ctx = true ∧
      LegacyPrefix.lock ∈ (Instr.popRm32 ⟨[.lock], none⟩ (.mem atEax)).prefixes.legacy := by decide +kernel

theorem test_exceptions_witness :
    (∃ x v pc, exec (.popR16 plain 0) (reg r16 4 0xFFFF) = .fault (.raised x v pc)) ∧
      (∃ x v pc, exec (.popR16 plain 0) (reg v86 4 0xFFFF) = .fault (.raised x v pc)) ∧
      (∃ x v pc, exec (.popSs plain) (top 0x18) = .fault (.raised x v pc)) ∧
      ∃ x v pc, exec (.popDs plain) l64 = .fault (.raised x v pc) :=
  ⟨fault_of (by decide +kernel), fault_of (by decide +kernel), fault_of (by decide +kernel), fault_of (by decide +kernel)⟩

theorem test_step_goes_on_witness :
    (∃ t, step (code (top 5) [0x58]) = .next t) ∧ ∃ t, step (code l64 [0x58]) = .next t :=
  ⟨next_of (by decide +kernel), next_of (by decide +kernel)⟩

/-- P32 with the CS limit at pc itself: the instruction can be fetched, the next one cannot. -/
def lastByte : State :=
  at' (p32.setSreg .cs ⟨8, { flatCode with limit := 0x8000 }⟩) 0x2000 4 5

theorem test_overrun_witness :
    (lastByte.Starts (.popR32 plain 0) ∧ lastByte.Popped 4 5 ∧ lastByte.nextPcFits (Instr.popR32 plain 0).length = false ∧
      (p32.setSreg .cs ⟨8, { flatCode with limit := 0x8001 }⟩).nextPcFits 1 = true) ∧
    (lastByte.Starts (.popRm32 plain (.mem atEax)) ∧ lastByte.nextPcFits (Instr.popRm32 plain (.mem atEax)).length = false ∧
      lastByte.destOffset plain .s32 atEax 2 = .ok 0 ∧ lastByte.Reaches .write .ds 0 4 [0, 1, 2, 3]) ∧
    (lastByte.Starts (.popDs plain) ∧ lastByte.nextPcFits (Instr.popDs plain).length = false ∧
      (at' lastByte 0x2000 4 3).PopsSelector (.popDs plain) 3 ∧ (at' lastByte 0x2000 4 3).LoadSucceeds .ds 3 ∧
      (at' lastByte 0x2000 4 0x10).PopsSelector (.popSs plain) 0x10 ∧ (at' lastByte 0x2000 4 0x10).LoadSucceeds .ss 0x10) ∧
    r16.LoadSucceeds .es 7 :=
  ⟨⟨starts_of (by decide +kernel) rfl (by decide +kernel), popped_of (by decide +kernel), by decide +kernel,
      by decide +kernel⟩,
    ⟨starts_of (by decide +kernel) rfl (by decide +kernel), by decide +kernel, by decide +kernel,
      reaches_of (by decide +kernel) (by decide +kernel)⟩,
    ⟨starts_of (by decide +kernel) rfl (by decide +kernel), by decide +kernel, selector_of (v := 3) (by decide +kernel),
      .inr (.inl ⟨⟨by decide, by decide, by decide +kernel, by decide +kernel⟩, by decide⟩),
      selector_of (v := 0x10) (by decide +kernel),
      .inr (.inr ⟨.inr ⟨rfl, .inl rfl⟩, by decide, flatData, descriptor_of (by decide +kernel) (by decide +kernel),
        ⟨by decide, by decide +kernel, by decide +kernel, false, by decide⟩, .inl (by decide)⟩)⟩,
    .inl (.inl rfl)⟩

/-- A run of one step that ends at `endPc` comes to its first and its last state only. -/
theorem reached_of_one_step {s t : State} {endPc : Word} (h : step s = .next t) (hs : s.pc ≠ endPc) (ht : t.pc = endPc) :
    ∀ (k : Nat) (u : State), reached endPc k s = some u → u = s ∨ u = t
  | 0, u, hu => by cases hu; exact .inl rfl
  | 1, u, hu => by rw [reached, if_neg hs, h] at hu; cases hu; exact .inr rfl
  | k + 2, u, hu => by
    rw [reached, if_neg hs, h] at hu
    simp only [reached, if_pos ht] at hu; cases hu

/-- Where translation is the identity and all memory exists, so does each byte an access translates to. -/
theorem exists_of_flat {s : State} (hp : s.paging = []) (hm : s.physMem = State.reset.physMem) (acc : Access) (c : BitVec 2)
    (l : Word) : s.translate acc c l = .ok l.toNat ∧ s.inPhysMem l.toNat = true := by
  have := l.isLt
  refine ⟨by simp [State.translate, hp], ?_⟩
  simp only [State.inPhysMem, hm, State.reset, List.any_cons, List.any_nil, Bool.or_false, Bool.and_eq_true, decide_eq_true_eq]
  omega

/-- `1F` at 8000, a run of which loads DS from an accessed descriptor and ends at 8001. -/
def loadStep : State := code (top 0x10) [0x1F]

theorem test_accessedRun_witness : loadStep.descriptorsAccessed 0x8001 ∧ reached 0x8001 0 loadStep = some loadStep ∧
    loadStep.pc ≠ 0x8001 ∧ loadStep.fetchInstr = .ok (.popDs plain) ∧ PopsSegment (.popDs plain) .ds ∧
    ∃ t, step loadStep = .next t := by
  have ends : goesOnWith (fun t => t.pc == 0x8001) (step loadStep) = true := by decide +kernel
  obtain ⟨t, ht, hp⟩ := nextWith_of ends
  have hpc : loadStep.pc ≠ 0x8001 := by decide +kernel
  have found : loadStep.fetchInstr = .ok (.popDs plain) := by decide +kernel
  refine ⟨?_, rfl, hpc, found, .ds _, t, ht⟩
  intro k u i hu h hi
  obtain rfl := (reached_of_one_step ht hpc (by simpa using hp) k u hu).resolve_right
    fun e => h (by rw [e]; simpa using hp)
  rw [found] at hi; cases hi
  rintro sel d v ⟨-, -, raw, hr, rfl⟩ - - hd -
  have hv : (loadStep.enter 1).stackRead 4 = .ok 0x10 := by decide +kernel
  have hf : (loadStep.enter 1).readDescriptor 0x10 = .ok flatData := by decide +kernel
  cases hr.symm.trans hv
  cases hd.symm.trans hf
  decide

/-- P32 whose LDTR describes its table too, with a selector of the local table on the stack. -/
def localLoad : State := { top 0x14 with ldtr := ⟨0, 0x1000, 0x3F, true⟩ }

theorem test_localTable_witness :
    localLoad.localTableExists (.popDs plain) ∧ localLoad.popsSelector (.popDs plain) 0x14 ∧ localLoad.usesTables ∧
      selLocal 0x14 = true ∧ localLoad.ldtr.usable = true ∧ ∃ t, exec (.popDs plain) localLoad = .next t := by
  refine ⟨?_, ⟨rfl, ⟨.ds, rfl, by decide +kernel⟩, 0x14, by decide +kernel, rfl⟩, by decide +kernel, by decide, rfl,
    next_of (by decide +kernel)⟩
  intro _ _ _ _ _ _ _ acc a h
  have flat := exists_of_flat (s := localLoad) rfl rfl acc supervisor
  rw [(flat _).1] at h; cases h; exact (flat _).2

/-- `58` at 8000, a run of which ends at 8001. -/
def oneStep : State := code (top 5) [0x58]

theorem test_premises_witness : oneStep.RunPremises 0x8001 ∧ reached 0x8001 0 oneStep = some oneStep ∧
    oneStep.pc ≠ 0x8001 ∧ oneStep.fetchInstr = .ok (.popR32 plain 0) := by
  have flat := exists_of_flat (s := oneStep) rfl rfl
  have exists_ : ∀ acc c l a, oneStep.translate acc c l = .ok a → oneStep.inPhysMem a = true := by
    intro acc c l a h
    rw [(flat acc c l).1] at h; cases h; exact (flat acc c l).2
  have ends : (match step oneStep with
      | .next t => t.pc == 0x8001 && t.written == []
      | _ => false) = true := by decide +kernel
  obtain ⟨t, ht⟩ : ∃ t, step oneStep = .next t := next_of (by decide +kernel)
  rw [ht] at ends
  simp only [Bool.and_eq_true, beq_iff_eq] at ends
  have hpc : oneStep.pc ≠ 0x8001 := by decide +kernel
  have only := reached_of_one_step ht hpc ends.1
  have first : ∀ k u, reached 0x8001 k oneStep = some u → u.pc ≠ 0x8001 → u = oneStep := fun k u hu h =>
    (only k u hu).resolve_right fun e => h (e ▸ ends.1)
  refine ⟨⟨⟨by decide +kernel, by decide +kernel, ⟨rfl, rfl⟩, by decide +kernel, ?_, rfl, rfl⟩, ?_, ?_, ?_, ?_⟩, rfl, hpc,
    by decide +kernel⟩
  · exact fun _ _ acc a => exists_ acc supervisor _ a
  · intro j k u w i v _ _ hw h hi hv a _ ha
    obtain rfl := first k w hw h
    obtain ⟨i', hi', hv', -⟩ := step_next ht
    rw [hi] at hi'; cases hi'
    rw [hv] at hv'; cases hv'
    rw [ends.2] at ha; cases ha
  · intro k u i hu h _
    obtain rfl := first k u hu h
    exact fun _ a _ => exists_ _ _ _ a
  · intro k u i hu h _
    obtain rfl := first k u hu h
    exact fun _ _ _ a _ _ _ => exists_ _ _ _ a
  · intro k u i hu h _
    obtain rfl := first k u hu h
    exact fun _ _ _ _ hl => nomatch hl

theorem test_inhibit_witness :
    (∃ t, exec (.popSs plain) (top 0x10) = .next t) ∧ (top 0x10).inhibit = false ∧ (top 0x10).afterPopSs = false ∧
      (∃ t, exec (.popDs plain) (top 0x10) = .next t) ∧ ¬ PopsSegment (.popDs plain) .ss :=
  ⟨next_of (by decide +kernel), rfl, rfl, next_of (by decide +kernel), fun h => nomatch h⟩

theorem test_invariant_witness : (code (top 0x10) [0x17]).Inv ∧ ∃ t, step (code (top 0x10) [0x17]) = .next t :=
  ⟨by decide +kernel, next_of (by decide +kernel)⟩

theorem test_narrowView_witness :
    (code p32 [0x58]).mode ≠ .long64 ∧
      (code p32 [0x58]).SameNarrowView { code p32 [0x58] with regs := ((code p32 [0x58]).regs.set 9 ⟨5, 6⟩).set 0 ⟨7, 0⟩ } :=
  ⟨by decide +kernel, rfl, by decide +kernel⟩

end Sys2Proof.Tests
end

section
/-! PROOFS of the family 30_encoding.md: the sizes case by case, the row an operand size selects, and what LOCK
does. -/

namespace Sys2Proof

/-! ### The operand size and the rows (R120, R125) -/

namespace CodeContext

theorem operandSize_of_long64 {c : CodeContext} (p : Prefixes) (hm : c.mode = .long64) :
    c.operandSize p = .s64 ∨ c.operandSize p = .s16 := by
  simp only [operandSize, hm, if_true]
  cases p.rexW
  · cases p.hasOpSize
    · exact .inl rfl
    · exact .inr rfl
  · exact .inl rfl

theorem operandSize_of_ne_long64 {c : CodeContext} (p : Prefixes) (hm : c.mode ≠ .long64) :
    c.operandSize p = .s32 ∨ c.operandSize p = .s16 := by
  simp only [operandSize, hm, if_false, defaultSize]
  cases c.csD <;> cases p.hasOpSize <;> simp [Size.flip]

end CodeContext

namespace Instr

theorem rowSize_eq_operandSize {c : CodeContext} {i : Instr} {n : Size} (hw : i.wf c = true) (hn : i.rowSize = some n) :
    c.operandSize i.prefixes = n := by
  simp only [wf, sizeWf, hn, Option.all_some, Bool.and_eq_true, beq_iff_eq] at hw
  obtain ⟨⟨-, hsize⟩, -⟩ := hw
  exact hsize.symm

theorem rowSize_ne_s32_of_long64 {c : CodeContext} {i : Instr} (hw : i.wf c = true) (hm : c.mode = .long64) :
    i.rowSize ≠ some .s32 := by
  intro hn
  have h := CodeContext.operandSize_of_long64 i.prefixes hm
  simp [rowSize_eq_operandSize hw hn] at h

theorem rowSize_ne_s64_of_ne_long64 {c : CodeContext} {i : Instr} (hw : i.wf c = true) (hm : c.mode ≠ .long64) :
    i.rowSize ≠ some .s64 := by
  intro hn
  have h := CodeContext.operandSize_of_ne_long64 i.prefixes hm
  simp [rowSize_eq_operandSize hw hn] at h

end Instr

@[simp] theorem prefixes_regRow (p : Prefixes) (d : GprNum) (n : Size) : (regRow p d n).prefixes = p := by
  cases n <;> rfl

@[simp] theorem rowSize_regRow (p : Prefixes) (d : GprNum) (n : Size) : (regRow p d n).rowSize = some n := by
  cases n <;> rfl

@[simp] theorem operandWf_regRow (c : CodeContext) (p : Prefixes) (d : GprNum) (n : Size) :
    (regRow p d n).operandWf c = GprNum.extendedBy d p.rexB := by
  cases n <;> rfl

/-- The row of format O that the operand size selects is an instruction. -/
theorem wf_regRow {c : CodeContext} {p : Prefixes} {d : GprNum} (hp : p.wf c = true)
    (hd : GprNum.extendedBy d p.rexB = true) : (regRow p d (c.operandSize p)).wf c = true := by
  simp [Instr.wf, Instr.sizeWf, hp, hd]

theorem Prefixes.locked_iff_mem (p : Prefixes) : p.locked = true ↔ LegacyPrefix.lock ∈ p.legacy := by
  simp [Prefixes.locked]

namespace Machine

/-! ### The stack-address size (R122) -/

theorem State.stackAddrSize_of_long64 {s : State} (hm : s.mode = .long64) : s.stackAddrSize = .s64 := by
  simp [stackAddrSize, hm]

theorem State.stackAddrSize_of_ne_long64 {s : State} (hm : s.mode ≠ .long64) :
    s.stackAddrSize = .s32 ∨ s.stackAddrSize = .s16 := by
  cases hb : s.sregs.ss.hid.db <;> simp [stackAddrSize, hm, hb]

/-! ### The six pairs (R123) -/

/-- The machine after reset, put into the given mode with the given D flag of CS and B flag of SS. -/
def State.withSizeFlags (mode : Mode) (csD ssB : Bool) : State :=
  { State.reset with
    mode
    sregs := { resetSegments with
      cs := ⟨0xF000, { resetCodeHidden with db := csD }⟩
      ss := ⟨0, { resetDataHidden with db := ssB }⟩ } }

/-- Under prefixes that rule R103 admits and that have no REX.B, POP into register 0 is an instruction, with the sizes the state
and those prefixes give. -/
theorem sizePair_occurs (s : State) {p : Prefixes} {q : Size × Size} (hp : p.wf s.ctx = true) (hb : p.rexB = false)
    (hq : (s.stackAddrSize, s.ctx.operandSize p) = q) :
    ∃ (s : State) (i : Instr), i.wf s.ctx = true ∧ (s.stackAddrSize, s.ctx.operandSize i.prefixes) = q :=
  ⟨s, regRow p 0 (s.ctx.operandSize p), wf_regRow hp (by rw [hb]; rfl), by rw [prefixes_regRow, hq]⟩

theorem sizePair_mem (s : State) (p : Prefixes) :
    (s.stackAddrSize, s.ctx.operandSize p) ∈
      [(Size.s32, Size.s32), (.s32, .s16), (.s64, .s64), (.s64, .s16), (.s16, .s16), (.s16, .s32)] := by
  by_cases hm : s.mode = .long64
  · rw [State.stackAddrSize_of_long64 hm]
    rcases CodeContext.operandSize_of_long64 (c := s.ctx) p hm with h | h <;> simp [h]
  · rcases State.stackAddrSize_of_ne_long64 hm with hs | hs <;>
      rcases CodeContext.operandSize_of_ne_long64 (c := s.ctx) p hm with h | h <;> simp [hs, h]

/-- Settles O11: the sizes by mode, the row by its operand size, and for each pair POP into register 0 with and
without 66. -/
theorem sixSizePairs : Obligations.SixSizePairs := by
  refine ⟨fun s i hw => ⟨sizePair_mem s i.prefixes, Instr.rowSize_ne_s32_of_long64 hw,
    Instr.rowSize_ne_s64_of_ne_long64 hw⟩, fun p hp => ?_⟩
  simp only [List.mem_cons, List.not_mem_nil, or_false] at hp
  rcases hp with rfl | rfl | rfl | rfl | rfl | rfl
  · exact sizePair_occurs (.withSizeFlags .protected_ true true) (p := ⟨[], none⟩) rfl rfl rfl
  · exact sizePair_occurs (.withSizeFlags .protected_ true true) (p := ⟨[.opSize], none⟩) rfl rfl rfl
  · exact sizePair_occurs (.withSizeFlags .long64 false false) (p := ⟨[], none⟩) rfl rfl rfl
  · exact sizePair_occurs (.withSizeFlags .long64 false false) (p := ⟨[.opSize], none⟩) rfl rfl rfl
  · exact sizePair_occurs (.withSizeFlags .real false false) (p := ⟨[], none⟩) rfl rfl rfl
  · exact sizePair_occurs (.withSizeFlags .real false false) (p := ⟨[.opSize], none⟩) rfl rfl rfl

/-! ### LOCK (R134) -/

/-- Settles O50: `perform` raises #UD for LOCK before the body of any form runs. -/
theorem lockRaisesUd : Obligations.LockRaisesUd := fun s i hw hl =>
  ⟨6, s.pc, exec_fault.2 ⟨hw, .inl ⟨i.prefixes.locked_iff_mem.2 hl, rfl⟩⟩⟩

end Machine

end Sys2Proof
end


section
/-! PROOFS of the family 40_pop_gpr_mem.md: what an instruction of any form keeps when it completes, shape by shape. -/

namespace Sys2Proof.Machine

/-! ### What each shape of body keeps (R32, R163) -/

theorem popToReg_sameControl {i : Instr} {n : Size} {d : GprNum} {s t : State} (h : popToReg i n d s = .ok t) :
    SameControl s t := by
  obtain ⟨v, -, -, rfl⟩ := popToReg_ok.1 h
  have hsp : SameControl s (s.writeSp s.stackAddrSize (s.spAfter n)) := .writeReg _ _ _ _
  exact (hsp.trans' (.writeReg _ n d v)).trans' (.completed _ _ _ _)

theorem popToMem_sameControl {i : Instr} {n : Size} {m : MemOperand} {s t : State} (h : popToMem i n m s = .ok t) :
    SameControl s t := by
  obtain ⟨v, as, -, -, -, -, rfl⟩ := popToMem_ok.1 h
  have hsp : SameControl s (s.writeSp s.stackAddrSize (s.spAfter n)) := .writeReg _ _ _ _
  exact (hsp.trans' (.storeAll _ as v)).trans' (.completed _ _ _ _)

/-- A segment load writes the segment register and at most the accessed bit of its descriptor (R219 to R224). -/
theorem loadSeg_sameControl {s u : State} {sg : SegName} {sel : BitVec 16} (hc : sg ≠ .cs)
    (h : s.loadSeg sg sel = .ok u) : SameControl s u := by
  obtain ⟨w, hid, hw, rfl, -⟩ := State.loadSeg_ok h
  exact (State.tableWrite_sameControl hw).trans' (.setSreg w ⟨sel, hid⟩ hc)

theorem popToSeg_sameControl {i : Instr} {n : Size} {sg : SegName} {s t : State} (hc : sg ≠ .cs)
    (h : popToSeg i n sg s = .ok t) : SameControl s t := by
  obtain ⟨raw, u, -, hu, -, rfl⟩ := (popToSeg_ok hc).1 h
  have hsp : SameControl u (u.writeSp s.stackAddrSize (s.spAfter n)) := .writeReg _ _ _ _
  exact ((loadSeg_sameControl hc hu).trans' hsp).trans' (.completed _ _ _ _)

/-- An instruction that completes keeps the flags, CS and the rest of the control state, whatever its form. -/
theorem exec_next_sameControl {i : Instr} {s t : State} (h : exec i s = .next t) : SameControl s t := by
  obtain ⟨-, -, hbody⟩ := exec_next.1 h
  rcases body_cases hbody with ⟨n, d, hreg⟩ | ⟨n, m, hmem⟩ | ⟨n, sg, -, hc, hseg⟩
  · exact popToReg_sameControl hreg
  · exact popToMem_sameControl hmem
  · exact popToSeg_sameControl hc hseg

/-- Settles O49: the flags register is part of what every completed instruction keeps. -/
theorem flagsAreNeverWritten : Obligations.FlagsAreNeverWritten :=
  fun _ _ _ h => (exec_next_sameControl h).rflags

end Sys2Proof.Machine
end

section
/-! PROOFS of the family 41_pop_segreg.md: CS is kept, and a POP to memory through an unusable segment register
raises #GP(0). -/

namespace Sys2Proof.Machine

/-! ### CS (R211) -/

/-- Settles O48: CS is part of what every completed instruction keeps. -/
theorem csIsNeverLoaded : Obligations.CsIsNeverLoaded :=
  fun _ _ _ h => (exec_next_sameControl h).cs

/-! ### A memory destination that faults after a stack read in order (R256) -/

theorem SegName.nullable_of_ne {sg : SegName} (hss : sg ≠ .ss) (hcs : sg ≠ .cs) : SegName.nullable sg = true := by
  cases sg with
  | ds | es | fs | gs => rfl
  | cs => exact absurd rfl hcs
  | ss => exact absurd rfl hss

namespace State

theorem ProtectedOrCompat.ne_long64 {s : State} (h : s.ProtectedOrCompat) : s.mode ≠ .long64 := by
  rcases h with h | h <;> simp [h]

theorem ProtectedOrCompat.protectedLike {s : State} (h : s.ProtectedOrCompat) : s.protectedLike = true := by
  rcases h with h | h <;> simp [State.protectedLike, h]

theorem ProtectedOrCompat.zeroCode {s : State} (h : s.ProtectedOrCompat) : s.zeroCode = some 0 := by
  rcases h with h | h <;> simp [State.zeroCode, h]

/-- A NULL selector disables DS, ES, FS and GS for every access (R68, R225). -/
theorem segTest_of_not_usable {s : State} {acc : Access} {sg : SegName} {off : Word} {n : Nat} (hp : s.ProtectedOrCompat)
    (hn : SegName.nullable sg = true) (hu : (s.sreg sg).hid.usable = false) : s.segTest acc sg off n = false := by
  simp [segTest, hp.ne_long64, hp.protectedLike, hn, hu]

theorem accessAddrs_of_segTest_false {s : State} {acc : Access} {sg : SegName} {off : Word} {n c : Nat}
    (h : s.segTest acc sg off n = false) : s.accessAddrs acc sg off n c = raise s (s.segFault sg) := by
  simp [accessAddrs, h]

theorem stackRead_of_popped {s : State} {n : Nat} {v : Word} (h : s.Popped n v) : s.stackRead n = .ok v := by
  obtain ⟨as, ⟨hseg, halign, htr, hmem⟩, hv⟩ := h
  exact segRead_ok.2 ⟨as, accessAddrs_ok.2 ⟨hseg, halign, translateAll_ok.2 htr⟩, hmem, hv⟩

theorem destAddrs_of_destOffset {s : State} {p : Prefixes} {n : Size} {m : MemOperand} {len : Nat} {off : Word}
    (h : s.destOffset p n m len = .ok off) :
    s.destAddrs p n m len = s.accessAddrs .write (segmentOf s.mode p m) off n.bytes 1 := by
  simp [destAddrs, h]

end State

theorem body_of_popsMemory {i : Instr} {n : Size} {m : MemOperand} (h : PopsMemory i n m) (s : State) :
    body i s = popToMem i n m s := by
  cases h <;> rfl

/-- After a stack read in order, POP to memory stops as its destination does (R256). -/
theorem popToMem_of_destAddrs_error {s : State} {i : Instr} {n : Size} {m : MemOperand} {v : Word} {e : Stop}
    (hv : s.stackRead n.bytes = .ok v) (he : s.destAddrs i.prefixes n m i.length = .error e) :
    popToMem i n m s = .error e := by
  have hread : s.reportedRead (s.stackRead n.bytes) (s.destAddrs i.prefixes n m i.length) = .ok v :=
    State.reportedRead_ok.2 hv
  rw [popToMem, hread, he, ok_bind, error_bind]

/-- After a stack read in order, a POP to memory whose destination fails the segment test raises SegFault (R71, R73). -/
theorem raises_segFault_of_popsMemory {s : State} {i : Instr} {n : Size} {m : MemOperand} {v off : Word}
    (hi : PopsMemory i n m) (hs : s.Starts i) (hv : s.Popped n.bytes v)
    (ho : s.destOffset i.prefixes n m i.length = .ok off)
    (ht : s.segTest .write (segmentOf s.mode i.prefixes m) off n.bytes = false) :
    Raises (exec i s) (s.segFault (segmentOf s.mode i.prefixes m)) := by
  obtain ⟨hw, hl, -⟩ := hs
  have hd : s.destAddrs i.prefixes n m i.length = raise s (s.segFault (segmentOf s.mode i.prefixes m)) := by
    rw [State.destAddrs_of_destOffset ho, State.accessAddrs_of_segTest_false ht]
  have hbody : body i s = raise s (s.segFault (segmentOf s.mode i.prefixes m)) := by
    rw [body_of_popsMemory hi]
    exact popToMem_of_destAddrs_error (State.stackRead_of_popped hv) hd
  exact ⟨_, _, exec_fault.2 ⟨hw, .inr ⟨hl, hbody⟩⟩⟩

/-! ### A NULL segment register (R225) -/

/-- Settles O22: an unusable DS, ES, FS or GS fails the segment test of the write, whose SegFault is #GP(0) outside SS. -/
theorem nullSegmentDestinationRaisesGp : Obligations.NullSegmentDestinationRaisesGp := by
  intro s i n m v off hi hs hp hv ho hss hcs _ hu
  have ht : s.segTest .write (segmentOf s.mode i.prefixes m) off n.bytes = false :=
    State.segTest_of_not_usable hp (SegName.nullable_of_ne hss hcs) hu
  have hgp : s.segFault (segmentOf s.mode i.prefixes m) = .gp (some 0) := by
    rw [State.segFault, if_neg hss, hp.zeroCode]
  exact hgp ▸ raises_segFault_of_popsMemory hi hs hv ho ht

end Sys2Proof.Machine
end

section
/-! PROOFS about the encoding (30_encoding.md): what each stage of the decoder answers on encoded bytes and on any bytes it
accepts, the two round trips put together from the stages, and the length of an instruction. -/

namespace Sys2Proof

/-! ### The decoder on encoded bytes -/

theorem CodeContext.addressSize_ne_s16_of_long64 {c : CodeContext} (p : Prefixes) (hm : c.mode = .long64) :
    c.addressSize p ≠ .s16 := by
  simp only [addressSize, hm, if_true]
  split <;> decide

/-- A ModRM byte with reg 0 and a mod other than 3 introduces a memory operand. -/
theorem takeRm_modRm {c : CodeContext} {p : Prefixes} {md : BitVec 2} (rm : BitVec 3) (bs : List Byte) (hmd : md ≠ 3#2) :
    takeRm c p (modRm md rm :: bs) =
      (if c.addressSize p = .s16 then takeMem16 md rm bs else takeMem32 c p md rm bs) >>=
        fun x => .ok (.mem x.1, x.2) := by
  simp only [takeRm, modRm_mod, modRm_reg, modRm_rm, ne_eq, not_true, if_false, hmd]
  split <;> rfl

theorem modField_ne_three (d : Disp) : d.modField ≠ 3#2 := by
  cases d <;> simp [Disp.modField]

theorem modField_eq_zero {d : Disp} (h : d.modField = 0#2) : d = .none := by
  cases d <;> simp [Disp.modField] at h ⊢

theorem low_eq_four {b : GprNum} : GprNum.low b = 4#3 ↔ GprNum.lowIs b 4 = true := low_eq_of_lowIs b 4

theorem low_eq_five {b : GprNum} : GprNum.low b = 5#3 ↔ GprNum.lowIs b 5 = true := low_eq_of_lowIs b 5

/-- A base whose low bits are 5 stands with a displacement only: its bytes are not those of the form without a base. -/
theorem not_disp32_alone {b : GprNum} {d : Disp} (h : (!GprNum.lowIs b 5 || d != .none) = true) :
    ¬ (GprNum.low b = 5#3 ∧ d.modField = 0#2) := by
  rintro ⟨hb, hd⟩
  simp [low_eq_five.1 hb, modField_eq_zero hd] at h

theorem takeSib_encode_base {p : Prefixes} (s : Scale) {i : Option GprNum} {b : GprNum} {d : Disp} (rest : List Byte)
    (hi : indexWf p i = true) (hb : GprNum.extendedBy b p.rexB = true) (hd : d.wf32 = true)
    (h5 : (!GprNum.lowIs b 5 || d != .none) = true) :
    takeSib p d.modField ((s.field ++ indexField i ++ b.low : Byte) :: (d.encode ++ rest)) =
      .ok (.sib s i (some b) d, rest) := by
  obtain ⟨⟨hs, hx⟩, hl⟩ := sib_fields s.field (indexField i) b.low
  simp only [takeSib, hs, hx, hl, if_neg (not_disp32_alone h5), takeModDisp_encode hd, scaleOf_field, indexOf_field i p hi,
    gprOf_low b _ hb]
  rfl

theorem takeSib_encode_noBase {p : Prefixes} (s : Scale) {i : Option GprNum} (d : BitVec 32) (rest : List Byte)
    (hi : indexWf p i = true) :
    takeSib p 0#2 ((s.field ++ indexField i ++ 5#3 : Byte) :: ((Disp.d32 d).encode ++ rest)) =
      .ok (.sib s i none (.d32 d), rest) := by
  obtain ⟨⟨hs, hx⟩, hl⟩ := sib_fields s.field (indexField i) 5#3
  simp only [takeSib, hs, hx, hl, and_self, if_true, takeDisp32, takeDword_encode, scaleOf_field, indexOf_field i p hi]
  rfl

/-- A displacement of four bytes is one of 32 bits. -/
theorem eq_d32_of_length {d : Disp} (h : d.length = 4) : ∃ x, d = .d32 x := by
  cases d <;> simp [Disp.length] at h ⊢

/-- A memory operand is read back from its ModRM, SIB and displacement. -/
theorem takeRm_encode_mem {c : CodeContext} {p : Prefixes} {m : MemOperand} (rest : List Byte) (hw : m.wf c p = true) :
    takeRm c p ((RmOperand.mem m).encode ++ rest) = .ok (.mem m, rest) := by
  cases m with
  | addr16 f d =>
    simp only [MemOperand.wf, Bool.and_eq_true, beq_iff_eq] at hw
    obtain ⟨hread, hmd⟩ := takeMem16_encode hw.2 rest
    rw [RmOperand.encode, List.cons_append, takeRm_modRm _ _ hmd, if_pos hw.1, hread, Machine.ok_bind]
  | abs32 d =>
    simp only [MemOperand.wf, Bool.and_eq_true, bne_iff_ne] at hw
    rw [RmOperand.encode, List.cons_append, takeRm_modRm _ _ (by decide), if_neg hw.1]
    simp [takeMem32, takeDword_encode, hw.2]
  | ripRel d =>
    simp only [MemOperand.wf, beq_iff_eq] at hw
    rw [RmOperand.encode, List.cons_append, takeRm_modRm _ _ (by decide),
      if_neg (CodeContext.addressSize_ne_s16_of_long64 p hw)]
    simp [takeMem32, takeDword_encode, hw]
  | base b d =>
    simp only [MemOperand.wf, Bool.and_eq_true, bne_iff_ne, Bool.not_eq_true'] at hw
    obtain ⟨⟨⟨⟨hsize, hb⟩, h4⟩, hd⟩, h5⟩ := hw
    have hsib : GprNum.low b ≠ 4#3 := fun h => by simp [low_eq_four.1 h] at h4
    rw [RmOperand.encode, List.cons_append, takeRm_modRm _ _ (modField_ne_three d), if_neg hsize, takeMem32, if_neg hsib,
      if_neg (not_disp32_alone h5), takeModDisp_encode hd, gprOf_low b _ hb]
    rfl
  | sib s i b d =>
    cases b with
    | none =>
      simp only [MemOperand.wf, Bool.and_eq_true, bne_iff_ne, beq_iff_eq] at hw
      obtain ⟨⟨hsize, hi⟩, hd⟩ := hw
      obtain ⟨x, rfl⟩ := eq_d32_of_length hd
      simp only [RmOperand.encode, List.cons_append]
      rw [takeRm_modRm _ _ (by decide), if_neg hsize, takeMem32, if_pos rfl, takeSib_encode_noBase s x rest hi,
        Machine.ok_bind]
    | some b =>
      simp only [MemOperand.wf, Bool.and_eq_true, bne_iff_ne] at hw
      obtain ⟨⟨⟨⟨hsize, hi⟩, hb⟩, hd⟩, h5⟩ := hw
      simp only [RmOperand.encode, List.cons_append]
      rw [takeRm_modRm _ _ (modField_ne_three d), if_neg hsize, takeMem32, if_pos rfl, takeSib_encode_base s rest hi hb hd h5,
        Machine.ok_bind]

theorem takeRm_encode {c : CodeContext} {p : Prefixes} {o : RmOperand} (rest : List Byte) (hw : o.wf c p = true) :
    takeRm c p (o.encode ++ rest) = .ok (o, rest) := by
  cases o with
  | reg d =>
    simp [RmOperand.encode, takeRm, gprOf_low d _ hw]
  | mem m => exact takeRm_encode_mem rest hw

theorem takeOpcode_rm {c : CodeContext} {p : Prefixes} {o : RmOperand} (n : Size) (rest : List Byte) (hw : o.wf c p = true)
    (hn : c.operandSize p = n) : takeOpcode c p (0x8F#8 :: o.encode ++ rest) = .ok (rmRow p o n, rest) := by
  simp [takeOpcode, takeRm_encode rest hw, hn]

theorem opcodeByte_reg : ∀ d : GprNum, (0b01011#5 ++ GprNum.low d : Byte) ≠ 0x8F#8 ∧
    (0b01011#5 ++ GprNum.low d : Byte).extractLsb' 3 5 = 0b01011#5 ∧
    (0b01011#5 ++ GprNum.low d : Byte).extractLsb' 0 3 = GprNum.low d := by decide

theorem takeOpcode_reg {c : CodeContext} {p : Prefixes} {d : GprNum} (n : Size) (rest : List Byte)
    (hd : GprNum.extendedBy d p.rexB = true) (hn : c.operandSize p = n) :
    takeOpcode c p ((0b01011#5 ++ GprNum.low d : Byte) :: rest) = .ok (regRow p d n, rest) := by
  obtain ⟨h8F, hop, hlow⟩ := opcodeByte_reg d
  simp only [takeOpcode, h8F, hop, hlow, if_false, if_true, gprOf_low d _ hd, hn]

theorem takeOpcode_fs {c : CodeContext} {p : Prefixes} (n : Size) (rest : List Byte) (hn : c.operandSize p = n) :
    takeOpcode c p (0x0F#8 :: 0xA1#8 :: rest) = .ok (fsRow p n, rest) := by
  simp [takeOpcode, takeTwoByte, hn]

theorem takeOpcode_gs {c : CodeContext} {p : Prefixes} (n : Size) (rest : List Byte) (hn : c.operandSize p = n) :
    takeOpcode c p (0x0F#8 :: 0xA9#8 :: rest) = .ok (gsRow p n, rest) := by
  simp [takeOpcode, takeTwoByte, hn]

/-- Opcode and operand of an instruction are read back under its prefixes, the operand size selecting its row (R125). -/
theorem takeOpcode_encodeBody {c : CodeContext} {i : Instr} (rest : List Byte) (hw : i.wf c = true) :
    takeOpcode c i.prefixes (i.encodeBody ++ rest) = .ok (i, rest) := by
  have hsize : ∀ n, i.rowSize = some n → c.operandSize i.prefixes = n := fun n => Instr.rowSize_eq_operandSize hw
  simp only [Instr.wf, Bool.and_eq_true] at hw
  obtain ⟨-, hop⟩ := hw
  cases i with
  | popRm16 p o => exact takeOpcode_rm .s16 rest hop (hsize _ rfl)
  | popRm32 p o => exact takeOpcode_rm .s32 rest hop (hsize _ rfl)
  | popRm64 p o => exact takeOpcode_rm .s64 rest hop (hsize _ rfl)
  | popR16 p d => exact takeOpcode_reg .s16 rest hop (hsize _ rfl)
  | popR32 p d => exact takeOpcode_reg .s32 rest hop (hsize _ rfl)
  | popR64 p d => exact takeOpcode_reg .s64 rest hop (hsize _ rfl)
  | popDs p => rfl
  | popEs p => rfl
  | popSs p => rfl
  | popFs16 p => exact takeOpcode_fs .s16 rest (hsize _ rfl)
  | popFs32 p => exact takeOpcode_fs .s32 rest (hsize _ rfl)
  | popFs64 p => exact takeOpcode_fs .s64 rest (hsize _ rfl)
  | popGs16 p => exact takeOpcode_gs .s16 rest (hsize _ rfl)
  | popGs32 p => exact takeOpcode_gs .s32 rest (hsize _ rfl)
  | popGs64 p => exact takeOpcode_gs .s64 rest (hsize _ rfl)

/-- The legacy prefixes end at REX, where there is one, and at the opcode otherwise. -/
theorem takeLegacy_prefixes {p : Prefixes} {b : Byte} (bs : List Byte) (hn : noRepeatedKind p.legacy = true)
    (hb : endsPrefixes b) :
    takeLegacy [] (p.encode ++ b :: bs) = .ok (p.legacy, p.rex.toList.map Rex.encode ++ b :: bs) := by
  rw [Prefixes.encode, List.append_assoc]
  cases hr : p.rex with
  | none => exact takeLegacy_encode hb.1 hb.2.1 p.legacy [] hn (by simp)
  | some r =>
    obtain ⟨-, -, hlegacy, hrep⟩ := rexOf_encode r
    exact takeLegacy_encode hlegacy hrep p.legacy [] hn (by simp)

theorem decode_encode (c : CodeContext) {i : Instr} (rest : List Byte) (hw : i.wf c = true) :
    decode c (encode i ++ rest) = .ok (i, rest) := by
  have hop := takeOpcode_encodeBody rest hw
  simp only [Instr.wf, Prefixes.wf, Bool.and_eq_true, Bool.or_eq_true, beq_iff_eq] at hw
  obtain ⟨⟨⟨hn, hrex⟩, -⟩, -⟩ := hw
  obtain ⟨b, bs, hbody, hb⟩ := encodeBody_cons i
  rw [hbody] at hop
  rw [encode, List.append_assoc, hbody, List.cons_append, decode, takeLegacy_prefixes (bs ++ rest) hn hb, Machine.ok_bind]
  dsimp only
  rw [takeRex_encode hrex hb]
  exact hop

/-- Settles O8: the three stages read the prefixes, REX and the opcode back, each ending where the next begins. -/
theorem decodeInvertsEncode : Obligations.DecodeInvertsEncode := fun c _ rest hw => decode_encode c rest hw

/-! ### The encoder on decoded bytes -/

/-- The base field of a form with a base is none of those that stand for another form. -/
theorem disp_of_not_disp32_alone {low : BitVec 3} {ext : Bool} {d : Disp} (h : ¬ (low = 5#3 ∧ d.modField = 0#2)) :
    (!GprNum.lowIs (gprOf low ext) 5 || d != .none) = true := by
  have h5 : GprNum.lowIs (gprOf low ext) 5 = decide (low = 5#3) := lowIs_gprOf low ext 5
  by_cases hl : low = 5#3
  · have hd : d ≠ .none := fun e => h ⟨hl, by rw [e]; rfl⟩
    simp [hd]
  · simp [h5, hl]

theorem takeDisp32_ok {bs rest : List Byte} {d : Disp} (h : takeDisp32 bs = .ok (d, rest)) :
    ∃ x, d = .d32 x ∧ bs = (Disp.d32 x).encode ++ rest := by
  obtain ⟨⟨x, r⟩, hx, h⟩ := Machine.bind_ok.1 h
  cases h
  exact ⟨x, rfl, takeDword_ok hx⟩

theorem takeSib_ok {c : CodeContext} {p : Prefixes} {md : BitVec 2} {bs rest : List Byte} {m : MemOperand}
    (hs : c.addressSize p ≠ .s16) (hmd : md ≠ 3#2) (h : takeSib p md bs = .ok (m, rest)) :
    m.wf c p = true ∧ modRm md 4#3 :: bs = (RmOperand.mem m).encode ++ rest := by
  cases bs with
  | nil => cases h
  | cons sib bs =>
    obtain ⟨hi, hix⟩ := indexWf_indexOf p (sib.extractLsb' 3 3)
    simp only [takeSib] at h
    split at h
    · next h5 =>
      obtain ⟨⟨d, r⟩, hd, h⟩ := Machine.bind_ok.1 h
      cases h
      obtain ⟨x, rfl, rfl⟩ := takeDisp32_ok hd
      refine ⟨by simp [MemOperand.wf, hs, hi, Disp.length], ?_⟩
      simp only [RmOperand.encode, field_scaleOf, hix, List.cons_append, h5.2]
      rw [← h5.1, eq_sib]
    · next h5 =>
      obtain ⟨⟨d, r⟩, hd, h⟩ := Machine.bind_ok.1 h
      cases h
      obtain ⟨rfl, hwf, rfl, -⟩ := takeModDisp_ok hmd hd
      obtain ⟨hlow, hext⟩ := low_gprOf (sib.extractLsb' 0 3) p.rexB
      refine ⟨by simp [MemOperand.wf, hs, hi, hwf, hext, disp_of_not_disp32_alone h5], ?_⟩
      simp only [RmOperand.encode, field_scaleOf, hix, hlow, eq_sib, List.cons_append]

theorem takeMem32_ok {c : CodeContext} {p : Prefixes} {md : BitVec 2} {rm : BitVec 3} {bs rest : List Byte}
    {m : MemOperand} (hs : c.addressSize p ≠ .s16) (hmd : md ≠ 3#2) (h : takeMem32 c p md rm bs = .ok (m, rest)) :
    m.wf c p = true ∧ modRm md rm :: bs = (RmOperand.mem m).encode ++ rest := by
  unfold takeMem32 at h
  split at h
  · next h4 => subst h4; exact takeSib_ok hs hmd h
  · next h4 =>
    split at h
    · next h5 =>
      obtain ⟨rfl, rfl⟩ := h5
      obtain ⟨⟨d, r⟩, hd, h⟩ := Machine.bind_ok.1 h
      have hbytes := takeDword_ok hd
      by_cases hm : c.mode = .long64
      · simp only [hm, if_true] at h
        cases h
        exact ⟨by simp [MemOperand.wf, hm], by rw [hbytes]; rfl⟩
      · simp only [hm, if_false] at h
        cases h
        exact ⟨by simp [MemOperand.wf, hm, hs], by rw [hbytes]; rfl⟩
    · next h5 =>
      obtain ⟨⟨d, r⟩, hd, h⟩ := Machine.bind_ok.1 h
      cases h
      obtain ⟨rfl, hwf, rfl, -⟩ := takeModDisp_ok hmd hd
      obtain ⟨hlow, hext⟩ := low_gprOf rm p.rexB
      have hsib : GprNum.lowIs (gprOf rm p.rexB) 4 = false := (lowIs_gprOf rm p.rexB 4).trans (decide_eq_false h4)
      refine ⟨by simp [MemOperand.wf, hs, hwf, hext, hsib, disp_of_not_disp32_alone h5], ?_⟩
      simp only [RmOperand.encode, hlow, List.cons_append]

theorem takeRm_ok {c : CodeContext} {p : Prefixes} {bs rest : List Byte} {o : RmOperand}
    (h : takeRm c p bs = .ok (o, rest)) : o.wf c p = true ∧ bs = o.encode ++ rest := by
  cases bs with
  | nil => cases h
  | cons b bs =>
    by_cases hreg : b.extractLsb' 3 3 = 0#3
    · obtain ⟨md, rm, rfl⟩ : ∃ md rm, b = modRm md rm := ⟨_, _, eq_modRm b hreg⟩
      by_cases hmd : md = 3#2
      · subst hmd
        obtain ⟨hlow, hext⟩ := low_gprOf rm p.rexB
        simp only [takeRm, modRm_mod, modRm_reg, modRm_rm, ne_eq, not_true, if_false, if_true] at h
        cases h
        exact ⟨hext, by simp [RmOperand.encode, hlow]⟩
      · rw [takeRm_modRm rm bs hmd] at h
        obtain ⟨⟨m, r⟩, hm, h⟩ := Machine.bind_ok.1 h
        cases h
        split at hm
        · next hs =>
          obtain ⟨f, d, rfl, hd, rfl, rfl, rfl⟩ := takeMem16_ok hmd hm
          exact ⟨by simp [RmOperand.wf, MemOperand.wf, hs, hd], rfl⟩
        · next hs => exact takeMem32_ok hs hmd hm
    · simp [takeRm, hreg] at h

theorem wf_of_row {c : CodeContext} {i : Instr} (hp : i.prefixes.wf c = true)
    (hn : i.rowSize.all (· == c.operandSize i.prefixes) = true) (ho : i.operandWf c = true) : i.wf c = true := by
  simp [Instr.wf, Instr.sizeWf, hp, hn, ho]

theorem wf_rmRow {c : CodeContext} {p : Prefixes} {o : RmOperand} (hp : p.wf c = true) (ho : o.wf c p = true) :
    (rmRow p o (c.operandSize p)).wf c = true := by
  cases hn : c.operandSize p <;> exact wf_of_row hp (by simp [Instr.rowSize, rmRow, Instr.prefixes, hn]) ho

theorem wf_fsRow {c : CodeContext} {p : Prefixes} (hp : p.wf c = true) : (fsRow p (c.operandSize p)).wf c = true := by
  cases hn : c.operandSize p <;> exact wf_of_row hp (by simp [Instr.rowSize, fsRow, Instr.prefixes, hn]) rfl

theorem wf_gsRow {c : CodeContext} {p : Prefixes} (hp : p.wf c = true) : (gsRow p (c.operandSize p)).wf c = true := by
  cases hn : c.operandSize p <;> exact wf_of_row hp (by simp [Instr.rowSize, gsRow, Instr.prefixes, hn]) rfl

/-- An opcode byte of format O is its five fixed bits and the register field. -/
theorem eq_opcodeByte_reg : ∀ b : Byte, b.extractLsb' 3 5 = 0b01011#5 → b = 0b01011#5 ++ b.extractLsb' 0 3 := by
  decide +kernel

/-- What the second byte of a two-byte opcode accepts. -/
theorem takeTwoByte_ok {c : CodeContext} {p : Prefixes} {bs rest : List Byte} {i : Instr} (hp : p.wf c = true)
    (h : takeTwoByte c p bs = .ok (i, rest)) :
    i.wf c = true ∧ i.prefixes = p ∧ 0x0F#8 :: bs = i.encodeBody ++ rest := by
  cases bs with
  | nil => cases h
  | cons b bs =>
    simp only [takeTwoByte] at h
    split at h
    · next hb =>
      cases h
      refine ⟨wf_fsRow hp, ?_⟩
      cases c.operandSize p <;> exact ⟨rfl, by rw [hb]; rfl⟩
    · split at h
      · next hb =>
        cases h
        refine ⟨wf_gsRow hp, ?_⟩
        cases c.operandSize p <;> exact ⟨rfl, by rw [hb]; rfl⟩
      · cases h

/-- What the opcode stage accepts under well-formed prefixes: an instruction with those prefixes and its bytes. -/
theorem takeOpcode_ok {c : CodeContext} {p : Prefixes} {bs rest : List Byte} {i : Instr} (hp : p.wf c = true)
    (h : takeOpcode c p bs = .ok (i, rest)) :
    i.wf c = true ∧ i.prefixes = p ∧ bs = i.encodeBody ++ rest := by
  cases bs with
  | nil => cases h
  | cons b bs =>
    simp only [takeOpcode] at h
    split at h
    · next hb =>
      obtain ⟨⟨o, r⟩, ho, hi⟩ := Machine.bind_ok.1 h
      obtain ⟨hwf, hbytes⟩ := takeRm_ok ho
      cases hi
      refine ⟨wf_rmRow hp hwf, ?_⟩
      cases c.operandSize p <;> exact ⟨rfl, by rw [hb, hbytes]; rfl⟩
    · split at h
      · next hb =>
        cases h
        obtain ⟨hlow, hext⟩ := low_gprOf (b.extractLsb' 0 3) p.rexB
        refine ⟨wf_regRow hp hext, prefixes_regRow _ _ _, ?_⟩
        have henc : b = 0b01011#5 ++ GprNum.low (gprOf (b.extractLsb' 0 3) p.rexB) := by
          rw [hlow]; exact eq_opcodeByte_reg b hb
        cases c.operandSize p <;> exact congrArg (· :: rest) henc
      · split at h
        · next hb => cases h; exact ⟨wf_of_row hp rfl rfl, rfl, by rw [hb]; rfl⟩
        · split at h
          · next hb => cases h; exact ⟨wf_of_row hp rfl rfl, rfl, by rw [hb]; rfl⟩
          · split at h
            · next hb => cases h; exact ⟨wf_of_row hp rfl rfl, rfl, by rw [hb]; rfl⟩
            · split at h
              · next hb =>
                subst hb
                exact takeTwoByte_ok hp h
              · cases h

theorem encode_of_decode {c : CodeContext} {bs rest : List Byte} {i : Instr} (h : decode c bs = .ok (i, rest)) :
    i.wf c = true ∧ bs = encode i ++ rest := by
  obtain ⟨⟨legacy, bs1⟩, hlegacy, h⟩ := Machine.bind_ok.1 h
  obtain ⟨⟨rex, bs2⟩, hrex, hop⟩ := Machine.bind_ok.1 h
  obtain ⟨new, -, -, hnew, rfl, -, -, -, hn, -⟩ := takeLegacy_ok bs hlegacy
  rw [List.nil_append] at hnew; subst hnew
  obtain ⟨rfl, hmode⟩ := takeRex_ok hrex
  have hp : Prefixes.wf c ⟨legacy, rex⟩ = true := by simpa [Prefixes.wf, hn] using hmode
  obtain ⟨hw, hprefixes, rfl⟩ := takeOpcode_ok hp hop
  exact ⟨hw, by simp [encode, hprefixes, Prefixes.encode]⟩

/-- Settles O9: each stage accepts only what the encoder writes for what it answers. -/
theorem encodeInvertsDecode : Obligations.EncodeInvertsDecode := fun _ _ _ _ h => encode_of_decode h

/-! ### The length of an instruction (R103, R126) -/

theorem length_encode (i : Instr) : (encode i).length = i.length := by
  cases i with
  | popRm16 p o => exact Laws.EncodedLength.popRm16 p o
  | popRm32 p o => exact Laws.EncodedLength.popRm32 p o
  | popRm64 p o => exact Laws.EncodedLength.popRm64 p o
  | popR16 p d => exact Laws.EncodedLength.popR16 p d
  | popR32 p d => exact Laws.EncodedLength.popR32 p d
  | popR64 p d => exact Laws.EncodedLength.popR64 p d
  | popDs p => exact Laws.EncodedLength.popDs p
  | popEs p => exact Laws.EncodedLength.popEs p
  | popSs p => exact Laws.EncodedLength.popSs p
  | popFs16 p => exact Laws.EncodedLength.popFs16 p
  | popFs32 p => exact Laws.EncodedLength.popFs32 p
  | popFs64 p => exact Laws.EncodedLength.popFs64 p
  | popGs16 p => exact Laws.EncodedLength.popGs16 p
  | popGs32 p => exact Laws.EncodedLength.popGs32 p
  | popGs64 p => exact Laws.EncodedLength.popGs64 p

theorem kind_lt_four (q : LegacyPrefix) : q.kind < 4 := by
  cases q <;> simp [LegacyPrefix.kind]

theorem nodup_kinds : ∀ {ps : List LegacyPrefix}, noRepeatedKind ps = true → (ps.map LegacyPrefix.kind).Nodup
  | [], _ => List.nodup_nil
  | p :: ps, h => by
    simp only [noRepeatedKind, Bool.and_eq_true, Bool.not_eq_true', List.any_eq_false, beq_iff_eq] at h
    refine List.nodup_cons.2 ⟨?_, nodup_kinds h.2⟩
    simpa using h.1

/-- Prefixes of different kinds are at most four (R101, R103). -/
theorem length_legacy_le_four {ps : List LegacyPrefix} (h : noRepeatedKind ps = true) : ps.length ≤ 4 := by
  have hsub : ps.map LegacyPrefix.kind ⊆ List.range 4 := by
    intro k hk
    obtain ⟨q, -, rfl⟩ := List.mem_map.1 hk
    exact List.mem_range.2 (kind_lt_four q)
  simpa using ((nodup_kinds h).subperm hsub).length_le

theorem length_prefixes_le_five {c : CodeContext} {p : Prefixes} (h : p.wf c = true) : p.length ≤ 5 := by
  simp only [Prefixes.wf, Bool.and_eq_true] at h
  obtain ⟨hn, -⟩ := h
  have := length_legacy_le_four hn
  unfold Prefixes.length
  split <;> omega

theorem Disp.length_le_four (d : Disp) : d.length ≤ 4 := by
  cases d <;> simp [Disp.length]

theorem RmOperand.length_le_five (o : RmOperand) : o.length ≤ 5 := by
  cases o with
  | reg d => simp [RmOperand.length]
  | mem m =>
    cases m with
    | addr16 f d => exact (Disp.length_le_four d).trans (by omega)
    | abs32 d => simp [RmOperand.length]
    | ripRel d => simp [RmOperand.length]
    | base b d => exact (Disp.length_le_four d).trans (by omega)
    | sib s i b d => have := Disp.length_le_four d; simp only [RmOperand.length]; omega

theorem Instr.bodyLength_bounds (i : Instr) : 1 ≤ i.bodyLength ∧ i.bodyLength ≤ 7 := by
  cases i with
  | popRm16 p o | popRm32 p o | popRm64 p o =>
    have := o.length_le_five
    simp only [Instr.bodyLength]; omega
  | _ => simp [Instr.bodyLength]

/-- At most five prefix bytes and seven bytes of opcode, ModRM, SIB and displacement. -/
theorem Instr.length_bounds {c : CodeContext} {i : Instr} (hw : i.wf c = true) : 1 ≤ i.length ∧ i.length ≤ 12 := by
  simp only [Instr.wf, Bool.and_eq_true] at hw
  obtain ⟨⟨hp, -⟩, -⟩ := hw
  have hlen := length_prefixes_le_five hp
  have hb := i.bodyLength_bounds
  unfold Instr.length
  omega

/-- Settles O10: the length counted is the length encoded, part by part, and each part is bounded. -/
theorem lengthIsOneToTwelve : Obligations.LengthIsOneToTwelve :=
  fun _ i hw => ⟨length_encode i, Instr.length_bounds hw⟩

/-- Settles O4: the nine words, decoded. -/
theorem wordsDecodeToTheirInstructions : Obligations.WordsDecodeToTheirInstructions := by
  unfold Obligations.WordsDecodeToTheirInstructions
  decide

end Sys2Proof
end

section
/-! PROOFS about the three shapes of an instruction (a register, memory or a segment register popped into): which body it
runs, and that it runs it exactly when it starts. -/

namespace Sys2Proof.Machine

theorem Instr.pops (i : Instr) :
    (∃ n d, PopsRegister i n d) ∨ (∃ n m, PopsMemory i n m) ∨ ∃ sg, PopsSegment i sg := by
  cases i with
  | popRm16 p o => cases o with
    | reg d => exact .inl ⟨_, _, .rm16 p d⟩
    | mem m => exact .inr (.inl ⟨_, _, .rm16 p m⟩)
  | popRm32 p o => cases o with
    | reg d => exact .inl ⟨_, _, .rm32 p d⟩
    | mem m => exact .inr (.inl ⟨_, _, .rm32 p m⟩)
  | popRm64 p o => cases o with
    | reg d => exact .inl ⟨_, _, .rm64 p d⟩
    | mem m => exact .inr (.inl ⟨_, _, .rm64 p m⟩)
  | popR16 p d => exact .inl ⟨_, _, .r16 p d⟩
  | popR32 p d => exact .inl ⟨_, _, .r32 p d⟩
  | popR64 p d => exact .inl ⟨_, _, .r64 p d⟩
  | popDs p => exact .inr (.inr ⟨_, .ds p⟩)
  | popEs p => exact .inr (.inr ⟨_, .es p⟩)
  | popSs p => exact .inr (.inr ⟨_, .ss p⟩)
  | popFs16 p => exact .inr (.inr ⟨_, .fs16 p⟩)
  | popFs32 p => exact .inr (.inr ⟨_, .fs32 p⟩)
  | popFs64 p => exact .inr (.inr ⟨_, .fs64 p⟩)
  | popGs16 p => exact .inr (.inr ⟨_, .gs16 p⟩)
  | popGs32 p => exact .inr (.inr ⟨_, .gs32 p⟩)
  | popGs64 p => exact .inr (.inr ⟨_, .gs64 p⟩)

namespace PopsRegister

variable {i : Instr} {n : Size} {d : GprNum}

theorem body_eq (h : PopsRegister i n d) (s : State) : body i s = popToReg i n d s := by
  cases h <;> rfl

theorem rowSize (h : PopsRegister i n d) : i.rowSize = some n := by
  cases h <;> rfl

theorem stackBytes (h : PopsRegister i n d) (s : State) : s.stackBytes i = n.bytes := by
  cases h <;> rfl

theorem not_popsSegment (h : PopsRegister i n d) (sg : SegName) : ¬ PopsSegment i sg := by
  cases h <;> nofun

/-- The register is one a program of the mode reaches (R24). -/
theorem shows (h : PopsRegister i n d) {s : State} (hw : i.wf s.ctx = true) : s.Shows d := by
  simp only [Instr.wf, Bool.and_eq_true] at hw
  obtain ⟨⟨hp, -⟩, hop⟩ := hw
  have hd : GprNum.extendedBy d i.prefixes.rexB = true := by cases h <;> exact hop
  exact reachable_of_extendedBy hp hd

end PopsRegister

namespace PopsMemory

variable {i : Instr} {n : Size} {m : MemOperand}

theorem rowSize (h : PopsMemory i n m) : i.rowSize = some n := by
  cases h <;> rfl

theorem stackBytes (h : PopsMemory i n m) (s : State) : s.stackBytes i = n.bytes := by
  cases h <;> rfl

theorem destination (h : PopsMemory i n m) : Instr.destination? i = some m := by
  cases h <;> rfl

theorem not_popsSegment (h : PopsMemory i n m) (sg : SegName) : ¬ PopsSegment i sg := by
  cases h <;> nofun

end PopsMemory

namespace PopsSegment

variable {i : Instr} {sg : SegName}

theorem ne_cs (h : PopsSegment i sg) : sg ≠ .cs := by
  cases h <;> decide

theorem segment_eq (h : PopsSegment i sg) : Instr.segment? i = some sg := by
  cases h <;> rfl

theorem unique {q : SegName} (h : PopsSegment i sg) (k : PopsSegment i q) : q = sg := by
  cases h <;> cases k <;> rfl

theorem stackBytes (h : PopsSegment i sg) (s : State) :
    s.stackBytes i = s.sregReadBytes (s.ctx.operandSize i.prefixes) := by
  cases h <;> (simp only [State.stackBytes, State.sregReadBytes]; cases s.params.sregPopReadBytes <;> rfl)

/-- POP DS, ES and SS ask for the operand size; the other rows have it in their name. -/
theorem body_eq (h : PopsSegment i sg) {s : State} (hs : s.Starts i) :
    body i s = popToSeg i (s.ctx.operandSize i.prefixes) sg s := by
  obtain ⟨hw, -, hlong⟩ := hs
  have hmode {q : SegName} (hq : PopsSegment i q) (hf : q ≠ .fs) (hg : q ≠ .gs) : s.mode ≠ .long64 := fun hm =>
    (hlong hm q hq).elim hf hg
  have hsize : ∀ n, i.rowSize = some n → s.ctx.operandSize i.prefixes = n := fun n => Instr.rowSize_eq_operandSize hw
  cases h with
  | ds p => exact if_neg (hmode (.ds p) (by decide) (by decide))
  | es p => exact if_neg (hmode (.es p) (by decide) (by decide))
  | ss p => exact if_neg (hmode (.ss p) (by decide) (by decide))
  | fs16 p | fs32 p | fs64 p | gs16 p | gs32 p | gs64 p => rw [hsize _ rfl]; rfl

end PopsSegment

theorem exec_eq_body {i : Instr} {s : State} (hs : s.Starts i) : exec i s = toOutcome (body i s) := by
  rw [exec_eq_perform]
  exact perform_eq hs.1 hs.2.1

theorem exec_popsRegister {i : Instr} {n : Size} {d : GprNum} {s : State} (hi : PopsRegister i n d) (hs : s.Starts i) :
    exec i s = toOutcome (popToReg i n d s) := by
  rw [exec_eq_body hs, hi.body_eq]

theorem exec_popsMemory {i : Instr} {n : Size} {m : MemOperand} {s : State} (hi : PopsMemory i n m) (hs : s.Starts i) :
    exec i s = toOutcome (popToMem i n m s) := by
  rw [exec_eq_body hs, body_of_popsMemory hi]

theorem exec_popsSegment {i : Instr} {sg : SegName} {s : State} (hi : PopsSegment i sg) (hs : s.Starts i) :
    exec i s = toOutcome (popToSeg i (s.ctx.operandSize i.prefixes) sg s) := by
  rw [exec_eq_body hs, hi.body_eq hs]

/-- An instruction whose body does not raise #UD in Long64 starts. -/
theorem starts_of_body {i : Instr} {s : State} (hw : i.wf s.ctx = true) (hl : i.prefixes.locked = false)
    (hb : body i s ≠ raise s .ud) : s.Starts i := by
  refine ⟨hw, hl, fun hm sg hsg => ?_⟩
  cases hsg with
  | ds p | es p | ss p => exact absurd (if_pos hm) hb
  | fs16 p | fs32 p | fs64 p => exact .inl rfl
  | gs16 p | gs32 p | gs64 p => exact .inr rfl

theorem starts_of_exec_next {i : Instr} {s t : State} (h : exec i s = .next t) : s.Starts i := by
  obtain ⟨hw, hl, hb⟩ := exec_next.1 h
  exact starts_of_body hw hl (by rw [hb]; nofun)

/-- A completed instruction is one of the three shapes, started and completed. -/
theorem exec_next_cases {i : Instr} {s t : State} (h : exec i s = .next t) :
    (∃ n d, PopsRegister i n d ∧ popToReg i n d s = .ok t) ∨
      (∃ n m, PopsMemory i n m ∧ popToMem i n m s = .ok t) ∨
      ∃ sg, PopsSegment i sg ∧ popToSeg i (s.ctx.operandSize i.prefixes) sg s = .ok t := by
  have hs := starts_of_exec_next h
  obtain ⟨n, d, hi⟩ | ⟨n, m, hi⟩ | ⟨sg, hi⟩ := Instr.pops i
  · exact .inl ⟨n, d, hi, toOutcome_next.1 ((exec_popsRegister hi hs).symm.trans h)⟩
  · exact .inr (.inl ⟨n, m, hi, toOutcome_next.1 ((exec_popsMemory hi hs).symm.trans h)⟩)
  · exact .inr (.inr ⟨sg, hi, toOutcome_next.1 ((exec_popsSegment hi hs).symm.trans h)⟩)

end Sys2Proof.Machine
end

section
/-! PROOFS about every step: what an instruction does before it completes, from which the invariant, the record of written
bytes, the control state and pc follow; and the state after reset. -/

namespace Sys2Proof.Machine

/-! ### What an instruction does before it completes -/

/-- `u` comes from `s` by what an instruction does before it completes: pc and the memory that exists stay, memory and the
record of writes stay canonical, a loaded SS is replaced by a loaded one only, and a changed byte exists and is recorded (R83,
R88, R218). -/
structure Worked (s u : State) : Prop where
  pc : u.pc = s.pc
  physMem : u.physMem = s.physMem
  memory : s.mem.wf = true → u.mem.wf = true
  rising : rising s.written = true → rising u.written = true
  stackLoaded : s.stackLoaded → u.stackLoaded
  written : ∀ a ∈ s.written, a ∈ u.written
  recorded : ∀ a ∈ u.written, a ∈ s.written ∨ s.inPhysMem a = true
  unrecorded : ∀ a, a ∉ u.written → u.mem.read a = s.mem.read a

namespace Worked

theorem refl' (s : State) : Worked s s :=
  ⟨rfl, rfl, id, id, id, fun _ => id, fun _ => .inl, fun _ _ => rfl⟩

theorem trans' {s u v : State} (h : Worked s u) (k : Worked u v) : Worked s v where
  pc := k.pc.trans h.pc
  physMem := k.physMem.trans h.physMem
  memory := k.memory ∘ h.memory
  rising := k.rising ∘ h.rising
  stackLoaded := k.stackLoaded ∘ h.stackLoaded
  written a ha := k.written a (h.written a ha)
  recorded a ha := by
    rcases k.recorded a ha with hu | hp
    · exact h.recorded a hu
    · exact .inr (by simpa only [State.inPhysMem, h.physMem] using hp)
  unrecorded a ha := (k.unrecorded a ha).trans (h.unrecorded a fun hu => ha (k.written a hu))

theorem writeReg (s : State) (n : Size) (i : GprNum) (v : Word) : Worked s (s.writeReg n i v) where
  pc := by simp
  physMem := by simp
  memory := by simp
  rising := by simp
  stackLoaded h := by simpa [State.stackLoaded, State.protectedLike] using h
  written := by simp
  recorded := by simp +contextual
  unrecorded := by simp

theorem storeByte {s : State} {a : Nat} (v : Byte) (ha : s.inPhysMem a = true) : Worked s (s.storeByte a v) where
  pc := rfl
  physMem := rfl
  memory := State.storeByte_wf a v
  rising := rising_insertAddr a
  stackLoaded := id
  written b hb := (mem_insertAddr a b _).2 (.inr hb)
  recorded b hb := by
    obtain rfl | hs := (mem_insertAddr a b _).1 hb
    · exact .inr ha
    · exact .inl hs
  unrecorded b hb := Memory.read_write_ne v (fun e => hb ((mem_insertAddr a b _).2 (.inl e))) s.mem

theorem storeAll : ∀ (as : List Nat) {s : State} (v : Word), (∀ a ∈ as, s.inPhysMem a = true) → Worked s (s.storeAll as v)
  | [], s, _, _ => refl' s
  | a :: as, _, v, h =>
    (storeByte (v.setWidth 8) (h a (by simp))).trans' (storeAll as _ fun b hb => h b (by simp [hb]))

theorem tableWrite {s u : State} {sel : BitVec 16} (h : s.TableWrite sel u) : Worked s u := by
  obtain rfl | ⟨a, v, -, ha, rfl⟩ := h
  · exact refl' _
  · exact storeByte v ha

theorem setSreg {s : State} {sg : SegName} {r : SegReg}
    (h : sg = .ss → s.protectedLike = true →
      r.hid.usable = true ∧ r.hid.present = true ∧ SegKind.writableData r.hid.kind = true ∧ r.hid.dpl = s.cpl) :
    Worked s (s.setSreg sg r) where
  pc := rfl
  physMem := rfl
  memory := id
  rising := id
  stackLoaded hs hp := by
    by_cases hsg : sg = .ss
    · subst hsg; exact h rfl hp
    · rw [State.setSreg_ss s r hsg]; exact hs hp
  written _ := id
  recorded _ := .inl
  unrecorded _ _ := rfl

/-- The load of a segment register: at most one byte of the table, then the register. -/
theorem loadSeg {s u : State} {sg : SegName} {sel : BitVec 16} (h : s.loadSeg sg sel = .ok u) : Worked s u := by
  obtain ⟨w, hid, hw, rfl, hss⟩ := State.loadSeg_ok h
  have hc := State.tableWrite_sameControl hw
  refine (tableWrite hw).trans' (setSreg fun hsg hp => ?_)
  rw [hc.cpl]
  exact hss hsg (by simpa only [State.protectedLike, hc.mode] using hp)

end Worked

/-- An instruction that completes ends in the completion of a state it worked out, pc past it in bounds; only a POP SS leaves
an inhibition. -/
theorem exec_next_completed {i : Instr} {s t : State} (h : exec i s = .next t) :
    s.nextPcFits i.length = true ∧ ∃ u inhibit popSs, Worked s u ∧ t = u.completed i.length inhibit popSs ∧
      (popSs = true ↔ PopsSegment i .ss) ∧ inhibit = (popSs && s.inhibitAfterPopSs) := by
  obtain ⟨n, d, hi, h⟩ | ⟨n, m, hi, h⟩ | ⟨sg, hi, h⟩ := exec_next_cases h
  · obtain ⟨v, -, hpc, rfl⟩ := popToReg_ok.1 h
    exact ⟨hpc, _, false, false, (Worked.writeReg _ _ _ _).trans' (.writeReg _ _ _ _), rfl,
      by simpa using hi.not_popsSegment .ss, rfl⟩
  · obtain ⟨v, as, -, -, has, hpc, rfl⟩ := popToMem_ok.1 h
    have hstore : Worked _ ((s.writeSp s.stackAddrSize (s.spAfter n)).storeAll as v) :=
      .storeAll as v fun a ha => by rw [State.writeSp_inPhysMem]; exact has a ha
    exact ⟨hpc, _, false, false, (Worked.writeReg _ _ _ _).trans' hstore, rfl, by simpa using hi.not_popsSegment .ss, rfl⟩
  · obtain ⟨raw, u, -, hu, hpc, rfl⟩ := (popToSeg_ok hi.ne_cs).1 h
    refine ⟨hpc, _, _, _, (Worked.loadSeg hu).trans' (.writeReg _ _ _ _), rfl, ?_, rfl⟩
    rw [beq_iff_eq]
    exact ⟨fun e => e ▸ hi, fun hss => (hi.unique hss).symm⟩

/-! ### The invariant (R61, R88, R218, R226, R293) -/

theorem modeConsistent_of_sameControl {s t : State} (h : SameControl s t) (hs : s.modeConsistent) : t.modeConsistent := by
  simpa only [State.modeConsistent, h.mode, h.cpl, h.cs] using hs

/-- Settles O59: entering the instruction keeps the record of executed bytes rising, what the instruction works out keeps
memory, the record of writes and SS, and its completion leaves an inhibition after POP SS only. -/
theorem stepKeepsTheInvariant : Obligations.StepKeepsTheInvariant := by
  intro s t hs h
  obtain ⟨hmem, hwritten, hfetched, -, hmode, hstack, -⟩ := hs
  obtain ⟨i, -, hexec, hintact⟩ := step_next h
  have hc := exec_next_sameControl hexec
  obtain ⟨-, u, inhibit, popSs, hu, rfl, -, hinhibit⟩ := exec_next_completed hexec
  refine ⟨hu.memory hmem, hu.rising hwritten, ?_, hintact, modeConsistent_of_sameControl hc hmode, hu.stackLoaded hstack, ?_⟩
  · rw [hc.fetched]
    exact State.rising_enter_fetched i.length hfetched
  · intro hi
    simp only [State.completed, hinhibit, Bool.and_eq_true] at hi
    exact hi.1

/-! ### The state after reset -/

/-- Settles O58, by evaluating the invariant at the one state of reset. -/
theorem resetMeetsTheInvariant : Obligations.ResetMeetsTheInvariant := by
  unfold Obligations.ResetMeetsTheInvariant
  decide

end Sys2Proof.Machine
end

section
/-! PROOFS about two machines alike as far as a program outside Long64 sees (R24): each operation answers alike on them or
leaves them alike. -/

namespace Sys2Proof.Machine

/-- Two results that a program outside Long64 cannot tell apart. -/
inductive SameResult : Exec State → Exec State → Prop
  | ok {s t : State} (h : s.SameNarrowView t) : SameResult (.ok s) (.ok t)
  | error (e : Stop) : SameResult (.error e) (.error e)

/-- Two outcomes that a program outside Long64 cannot tell apart. -/
inductive SameOutcome : Host.Outcome State Fault Refusal → Host.Outcome State Fault Refusal → Prop
  | next {s t : State} (h : s.SameNarrowView t) : SameOutcome (.next s) (.next t)
  | fault (f : Fault) : SameOutcome (.fault f) (.fault f)
  | refused (r : Refusal) : SameOutcome (.refused r) (.refused r)

theorem SameResult.bind {α : Type} {x : Exec α} {f g : α → Exec State} (h : ∀ a, x = .ok a → SameResult (f a) (g a)) :
    SameResult (x >>= f) (x >>= g) := by
  cases x with
  | ok a => exact h a rfl
  | error e => exact .error e

theorem SameResult.bind_state {x y : Exec State} {f g : State → Exec State} (h : SameResult x y)
    (hf : ∀ s t : State, s.SameNarrowView t → SameResult (f s) (g t)) : SameResult (x >>= f) (y >>= g) := by
  cases h with
  | ok h => exact hf _ _ h
  | error e => exact .error e

theorem SameResult.toOutcome {x y : Exec State} (h : SameResult x y) :
    SameOutcome (Machine.toOutcome x) (Machine.toOutcome y) := by
  cases h with
  | ok h => exact .next h
  | error e =>
    cases e with
    | fault f => exact .fault f
    | refused r => exact .refused r

/-! ### Registers outside Long64 -/

theorem rex_of_wf {c : CodeContext} {p : Prefixes} (hp : p.wf c = true) (hm : c.mode ≠ .long64) : p.rex = none := by
  simp only [Prefixes.wf, Bool.and_eq_true] at hp
  simpa [hm] using hp.2

theorem addressSize_ne_s64 {c : CodeContext} (p : Prefixes) (hm : c.mode ≠ .long64) : c.addressSize p ≠ .s64 := by
  simp only [CodeContext.addressSize, hm, if_false, CodeContext.defaultSize]
  cases c.csD <;> cases p.hasAddrSize <;> decide

/-- The registers an addressing form names. -/
def MemOperand.names : MemOperand → List GprNum
  | .addr16 f _ => Addr16.registers f
  | .abs32 _ | .ripRel _ => []
  | .base b _ => [b]
  | .sib _ i b _ => i.toList ++ b.toList

theorem registers_lt_eight (f : Addr16) : ∀ j ∈ Addr16.registers f, j.val < 8 := by
  cases f <;> decide

/-- Outside Long64 an operand names no register above 7. -/
theorem names_lt_eight {c : CodeContext} {p : Prefixes} {m : MemOperand} (hp : p.wf c = true) (hm : c.mode ≠ .long64)
    (hw : m.wf c p = true) : ∀ j ∈ MemOperand.names m, j.val < 8 := by
  have hrex := rex_of_wf hp hm
  have hlt {j : GprNum} (h : GprNum.extendedBy j false = true) : j.val < 8 := by
    simpa [GprNum.extendedBy] using h
  have hindex {i : Option GprNum} (h : indexWf p i = true) : ∀ j ∈ i.toList, j.val < 8 := by
    cases i with
    | none => simp
    | some i =>
      simp only [indexWf, Prefixes.rexX, hrex, Option.elim_none, Bool.and_eq_true] at h
      simpa using hlt h.2
  cases m with
  | addr16 f d => exact registers_lt_eight f
  | abs32 d | ripRel d => simp [MemOperand.names]
  | base b d =>
    simp only [MemOperand.wf, Prefixes.rexB, hrex, Option.elim_none, Bool.and_eq_true] at hw
    obtain ⟨⟨⟨⟨-, hb⟩, -⟩, -⟩, -⟩ := hw
    simpa [MemOperand.names] using hlt hb
  | sib s i b d =>
    cases b with
    | none =>
      simp only [MemOperand.wf, Bool.and_eq_true] at hw
      obtain ⟨⟨-, hi⟩, -⟩ := hw
      simpa [MemOperand.names] using hindex hi
    | some b =>
      simp only [MemOperand.wf, Prefixes.rexB, hrex, Option.elim_none, Bool.and_eq_true] at hw
      obtain ⟨⟨⟨⟨-, hi⟩, hb⟩, -⟩, -⟩ := hw
      intro j hj
      simp only [MemOperand.names, Option.toList_some, List.mem_append, List.mem_singleton] at hj
      obtain hj | rfl := hj
      · exact hindex hi j hj
      · exact hlt hb

namespace State.SameNarrowView

variable {s t : State}

theorem eq_withRegs (h : s.SameNarrowView t) : t = s.withRegs t.regs := h.1

theorem withRegs_self (s : State) {r : Vector Gpr 16} (h : ∀ i : GprNum, i.val < 8 → (s.withRegs r).r32 i = s.r32 i) :
    s.SameNarrowView (s.withRegs r) := ⟨rfl, h⟩

theorem mode_eq (h : s.SameNarrowView t) : t.mode = s.mode := by rw [h.1]

theorem ctx_eq (h : s.SameNarrowView t) : t.ctx = s.ctx := by rw [h.1]; rfl

theorem draws_eq (h : s.SameNarrowView t) : t.draws = s.draws := by rw [h.1]

theorem readReg_eq (h : s.SameNarrowView t) {n : Size} {j : GprNum} (hn : n ≠ .s64) (hj : j.val < 8) :
    t.readReg n j = s.readReg n j := by
  have hlo : (t.gpr j).lo = (s.gpr j).lo := h.2 j hj
  cases n with
  | s16 => simp only [readReg, r16, hlo]
  | s32 => simp only [readReg, r32, hlo]
  | s64 => exact absurd rfl hn

theorem stackAddrSize_eq (h : s.SameNarrowView t) : t.stackAddrSize = s.stackAddrSize := by rw [h.1]; rfl

theorem stackAddrSize_ne_s64 (hm : s.mode ≠ .long64) : s.stackAddrSize ≠ .s64 := by
  rcases stackAddrSize_of_ne_long64 hm with h | h <;> rw [h] <;> decide

theorem sp_eq (h : s.SameNarrowView t) (hm : s.mode ≠ .long64) : t.sp = s.sp := by
  unfold sp
  rw [h.stackAddrSize_eq]
  exact h.readReg_eq (stackAddrSize_ne_s64 hm) (by decide)

theorem spAfter_eq (h : s.SameNarrowView t) (hm : s.mode ≠ .long64) (n : Size) : t.spAfter n = s.spAfter n := by
  simp only [spAfter, h.stackAddrSize_eq, h.sp_eq hm]

theorem accessAddrs_eq (h : s.SameNarrowView t) (acc : Access) (sg : SegName) (off : Word) (n c : Nat) :
    t.accessAddrs acc sg off n c = s.accessAddrs acc sg off n c := by
  rw [h.eq_withRegs, accessAddrs_withRegs]

theorem stackRead_eq (h : s.SameNarrowView t) (hm : s.mode ≠ .long64) (n : Nat) : t.stackRead n = s.stackRead n := by
  unfold stackRead
  rw [h.sp_eq hm, h.eq_withRegs, segRead_withRegs]

/-- A register write leaves two such machines alike: the bits it takes from before are bits 31:16. -/
theorem writeReg (h : s.SameNarrowView t) (n : Size) (i : GprNum) (v : Word) :
    (s.writeReg n i v).SameNarrowView (t.writeReg n i v) := by
  refine ⟨?_, fun j hj => ?_⟩
  · obtain ⟨g, hg⟩ := writeReg_eq s n i v
    obtain ⟨g', hg'⟩ := writeReg_eq t n i v
    rw [hg, hg', h.1]
    rfl
  · by_cases hij : i = j
    · subst hij
      have hlo : (t.gpr i).lo = (s.gpr i).lo := h.2 i hj
      simp only [r32, gpr_writeReg_self]
      cases n
      · simp only [hlo]
      · rfl
      · rfl
    · rw [r32_congr (gpr_writeReg_ne t n v hij), r32_congr (gpr_writeReg_ne s n v hij)]
      exact h.2 j hj

theorem writeSp (h : s.SameNarrowView t) (hm : s.mode ≠ .long64) (n : Size) :
    (s.writeSp s.stackAddrSize (s.spAfter n)).SameNarrowView (t.writeSp t.stackAddrSize (t.spAfter n)) := by
  rw [h.stackAddrSize_eq, h.spAfter_eq hm]
  exact h.writeReg _ 4 _

theorem storeBytes (h : s.SameNarrowView t) (as : List Nat) (v : Word) :
    SameResult (s.storeBytes as v) (t.storeBytes as v) := by
  rw [h.eq_withRegs, storeBytes_withRegs]
  cases hu : s.storeBytes as v with
  | error e => exact .error e
  | ok u =>
    obtain ⟨-, rfl⟩ := storeBytes_ok.1 hu
    refine .ok (withRegs_self _ fun i hi => ?_)
    exact (h.2 i hi).trans (r32_congr (by simp only [gpr, storeAll_regs])).symm

theorem completed (h : s.SameNarrowView t) (len : Nat) (a b : Bool) :
    (s.completed len a b).SameNarrowView (t.completed len a b) := by
  refine ⟨?_, fun j hj => ?_⟩
  · rw [h.1]; rfl
  · rw [r32_congr (gpr_completed t len a b (.inr hj)), r32_congr (gpr_completed s len a b (.inr hj))]
    exact h.2 j hj

theorem complete (h : s.SameNarrowView t) (len : Nat) (a b : Bool) :
    SameResult (s.complete len a b) (t.complete len a b) := by
  have hpc : t.nextPcFits len = s.nextPcFits len := by rw [h.1]; rfl
  cases hs : s.nextPcFits len with
  | true =>
    rw [complete_ok.2 ⟨hs, rfl⟩, complete_ok.2 ⟨hpc.trans hs, rfl⟩]
    exact .ok (h.completed len a b)
  | false =>
    rw [complete_error.2 ⟨hs, rfl⟩, complete_error.2 ⟨hpc.trans hs, rfl⟩]
    exact .error _

/-! ### The destination -/

theorem baseValue_eq (h : s.SameNarrowView t) {n : Size} {j : GprNum} (spv : Word) (hn : n ≠ .s64) (hj : j.val < 8) :
    t.baseValue n spv j = s.baseValue n spv j := by
  simp only [baseValue, h.readReg_eq hn hj]

theorem effectiveAddress_eq (h : s.SameNarrowView t) {asz : Size} {m : MemOperand} (spv next : Word) (ha : asz ≠ .s64)
    (hj : ∀ j ∈ MemOperand.names m, j.val < 8) : t.effectiveAddress asz spv next m = s.effectiveAddress asz spv next m := by
  cases m with
  | addr16 f d =>
    have hregs : (Addr16.registers f).map (t.readReg .s16) = (Addr16.registers f).map (s.readReg .s16) :=
      List.map_congr_left fun j hjf => h.readReg_eq (by decide) (hj j hjf)
    simp only [effectiveAddress, hregs]
  | abs32 d | ripRel d => rfl
  | base b d =>
    simp only [effectiveAddress, h.baseValue_eq spv ha (hj b (by simp [MemOperand.names]))]
  | sib sc i b d =>
    have hi : i.elim 0 (t.readReg asz) = i.elim 0 (s.readReg asz) := by
      cases i with
      | none => rfl
      | some i => exact h.readReg_eq ha (hj i (by simp [MemOperand.names]))
    have hb : b.elim 0 (t.baseValue asz spv) = b.elim 0 (s.baseValue asz spv) := by
      cases b with
      | none => rfl
      | some b => exact h.baseValue_eq spv ha (hj b (by simp [MemOperand.names]))
    simp only [effectiveAddress, hi, hb]

theorem spBase_eq (h : s.SameNarrowView t) {u v : State} (k : u.SameNarrowView v) {asz : Size} (n : Size)
    (hm : s.mode ≠ .long64) (ha : asz ≠ .s64) : t.spBase v asz n = s.spBase u asz n := by
  have hwraps : t.spWraps n = s.spWraps n := by simp only [spWraps, h.stackAddrSize_eq, h.sp_eq hm]
  have hparams : t.params = s.params := by rw [h.1]
  simp only [spBase, hwraps, hparams, h.draws_eq, k.readReg_eq ha (j := 4) (by decide), h.2 4 (by decide)]

theorem destOffset_eq (h : s.SameNarrowView t) (hm : s.mode ≠ .long64) {p : Prefixes} {m : MemOperand}
    (hp : p.wf s.ctx = true) (hw : m.wf s.ctx p = true) (n : Size) (len : Nat) :
    t.destOffset p n m len = s.destOffset p n m len := by
  have hafter := h.writeSp hm n
  have ha := addressSize_ne_s64 (c := s.ctx) p hm
  have hpc : t.pc = s.pc := by rw [h.1]
  have hea (spv next : Word) := hafter.effectiveAddress_eq spv next ha (names_lt_eight hp hm hw)
  simp only [destOffset, h.ctx_eq, hpc, h.spBase_eq hafter n hm ha, hea]

theorem destAddrs_eq (h : s.SameNarrowView t) (hm : s.mode ≠ .long64) {p : Prefixes} {m : MemOperand}
    (hp : p.wf s.ctx = true) (hw : m.wf s.ctx p = true) (n : Size) (len : Nat) :
    t.destAddrs p n m len = s.destAddrs p n m len := by
  simp only [destAddrs, h.destOffset_eq hm hp hw, h.mode_eq, h.accessAddrs_eq]

/-! ### The three shapes -/

theorem popToReg (h : s.SameNarrowView t) (hm : s.mode ≠ .long64) (i : Instr) (n : Size) (d : GprNum) :
    SameResult (popToReg i n d s) (popToReg i n d t) := by
  unfold Machine.popToReg
  rw [h.stackRead_eq hm]
  exact .bind fun v _ => ((h.writeSp hm n).writeReg n d v).complete _ _ _

theorem reportedRead_eq (h : s.SameNarrowView t) (x : Exec Word) (y : Exec (List Nat)) :
    t.reportedRead x y = s.reportedRead x y := by rw [h.1]; rfl

theorem popToMem (h : s.SameNarrowView t) (hm : s.mode ≠ .long64) {i : Instr} {m : MemOperand} (n : Size)
    (hp : i.prefixes.wf s.ctx = true) (hw : m.wf s.ctx i.prefixes = true) :
    SameResult (popToMem i n m s) (popToMem i n m t) := by
  unfold Machine.popToMem
  rw [h.stackRead_eq hm, h.destAddrs_eq hm hp hw, h.reportedRead_eq]
  exact .bind fun v _ => .bind fun as _ => ((h.writeSp hm n).storeBytes as v).bind_state fun _ _ k => k.complete _ _ _

theorem loadSeg (h : s.SameNarrowView t) (sg : SegName) (sel : BitVec 16) :
    SameResult (s.loadSeg sg sel) (t.loadSeg sg sel) := by
  rw [h.eq_withRegs, loadSeg_withRegs]
  cases hu : s.loadSeg sg sel with
  | error e => exact .error e
  | ok u =>
    obtain ⟨w, hid, hw, rfl, -⟩ := loadSeg_ok hu
    refine .ok (withRegs_self _ fun i hi => ?_)
    exact (h.2 i hi).trans (r32_congr (by simp only [gpr, setSreg_regs, tableWrite_regs hw])).symm

theorem popToSeg (h : s.SameNarrowView t) (hm : s.mode ≠ .long64) (i : Instr) (n : Size) (sg : SegName) :
    SameResult (popToSeg i n sg s) (popToSeg i n sg t) := by
  have hbytes : t.sregReadBytes n = s.sregReadBytes n := by rw [h.1]; rfl
  have hinhibit : t.inhibitAfterPopSs = s.inhibitAfterPopSs := by rw [h.1]; rfl
  unfold Machine.popToSeg
  rw [hbytes, h.stackRead_eq hm, hinhibit, h.stackAddrSize_eq, h.spAfter_eq hm]
  exact .bind fun raw _ => (h.loadSeg sg (raw.setWidth 16)).bind_state fun _ _ k => (k.writeReg _ 4 _).complete _ _ _

theorem exec_of_starts (h : s.SameNarrowView t) (hm : s.mode ≠ .long64) {i : Instr} (hs : s.Starts i) (ht : t.Starts i) :
    SameOutcome (exec i s) (exec i t) := by
  obtain ⟨n, d, hi⟩ | ⟨n, m, hi⟩ | ⟨sg, hi⟩ := Instr.pops i
  · rw [exec_popsRegister hi hs, exec_popsRegister hi ht]
    exact (h.popToReg hm i n d).toOutcome
  · rw [exec_popsMemory hi hs, exec_popsMemory hi ht]
    have hw := hs.1
    simp only [Instr.wf, Bool.and_eq_true] at hw
    obtain ⟨⟨hp, -⟩, hop⟩ := hw
    exact (h.popToMem hm n hp (by cases hi <;> exact hop)).toOutcome
  · rw [exec_popsSegment hi hs, exec_popsSegment hi ht, h.ctx_eq]
    exact (h.popToSeg hm i _ sg).toOutcome

theorem exec (h : s.SameNarrowView t) (hm : s.mode ≠ .long64) (i : Instr) : SameOutcome (exec i s) (exec i t) := by
  by_cases hw : i.wf s.ctx = true
  · cases hl : i.prefixes.locked with
    | true =>
      have hpc : t.pc = s.pc := by rw [h.1]
      have ht := (exec_fault (i := i) (s := t)).2 ⟨h.ctx_eq ▸ hw, .inl ⟨hl, rfl⟩⟩
      rw [exec_fault.2 ⟨hw, .inl ⟨hl, rfl⟩⟩, ht, hpc]
      exact .fault _
    | false =>
      refine h.exec_of_starts hm ⟨hw, hl, fun e => absurd e hm⟩ ⟨h.ctx_eq ▸ hw, hl, fun e => absurd ?_ hm⟩
      rw [← h.mode_eq, e]
  · have hrefused {u : State} (hu : ¬ i.wf u.ctx = true) : Machine.exec i u = .refused .illFormed := by
      rw [exec_eq_perform, perform, if_neg hu]
    rw [hrefused hw, hrefused (h.ctx_eq ▸ hw)]
    exact .refused _

end State.SameNarrowView

theorem SameOutcome.sparingCode {x y : Host.Outcome State Fault Refusal} (h : SameOutcome x y) :
    SameOutcome (sparingCode x) (sparingCode y) := by
  cases h with
  | @next s t h =>
    have hintact : t.codeIntact = s.codeIntact := by rw [h.1]; rfl
    simp only [Machine.sparingCode, hintact]
    split
    · exact .next h
    · exact .refused _
  | fault f => exact .fault f
  | refused r => exact .refused r

theorem State.SameNarrowView.step {s t : State} (h : s.SameNarrowView t) (hm : s.mode ≠ .long64) :
    SameOutcome (step s) (step t) := by
  have hdue : t.interruptDue = s.interruptDue := by rw [h.1]; rfl
  have hfetch : t.fetchInstr = s.fetchInstr := by rw [h.eq_withRegs, fetchInstr_withRegs]
  simp only [Machine.step, hdue, hfetch]
  cases s.interruptDue with
  | true => exact .refused _
  | false =>
    cases s.fetchInstr with
    | error r => exact .refused r
    | ok i =>
      have henter : (s.enter i.length).SameNarrowView (t.enter i.length) := by
        rw [h.eq_withRegs, enter_withRegs]
        exact withRegs_self _ h.2
      exact (henter.exec hm i).sparingCode

/-- Settles O60: every operation of a step, the fetch included, answers alike on the two machines. -/
theorem upperHalvesAreNotSeen : Obligations.UpperHalvesAreNotSeen := by
  intro s t hm h
  have hstep := h.step hm
  generalize step s = x at hstep ⊢
  generalize step t = y at hstep ⊢
  cases hstep with
  | next h => exact h
  | fault f => rfl
  | refused r => rfl

end Sys2Proof.Machine
end

section
/-! PROOFS about memory and the tests of an access (20_memory.md): little-endian values, linear addresses, the segment test
byte by byte, and canonical form. -/

namespace Sys2Proof.Machine

/-! ### Bytes (R61, R62) -/

/-- Settles O15: a write reads back, touches no other byte and keeps the canonical form. -/
theorem memoryReadAfterWrite : Obligations.MemoryReadAfterWrite := fun m a v h =>
  ⟨Memory.read_write_self a v h, fun _ hb => Memory.read_write_ne v hb m, Memory.write_wf a v h⟩

theorem toNat_leValue : ∀ (bs : List Byte), bs.length ≤ 8 → (leValue bs).toNat = littleEndian bs
  | [], _ => rfl
  | b :: bs, h => by
    simp only [List.length_cons] at h
    have ih := toNat_leValue bs (by omega)
    have hlt : (leValue bs).toNat < 2 ^ 56 :=
      (leValue_lt bs (by omega)).trans_le (Nat.pow_le_pow_right (by decide) (by omega))
    have hb := b.isLt
    have hshift : (leValue bs).toNat <<< 8 % 2 ^ 64 = (leValue bs).toNat <<< 8 := by
      rw [Nat.shiftLeft_eq]; omega
    simp only [leValue, littleEndian, BitVec.toNat_or, BitVec.toNat_setWidth, BitVec.toNat_shiftLeft, hshift]
    rw [Nat.mod_eq_of_lt (by omega), Nat.lor_comm, ← Nat.shiftLeft_add_eq_or_of_lt hb, Nat.shiftLeft_eq, ih]
    omega

/-- A store at distinct addresses leaves the value's low bits, least significant byte first. -/
theorem littleEndian_storeAll : ∀ {as : List Nat} {s : State} (v : Word), s.mem.wf = true → as.Nodup →
    littleEndian (as.map (s.storeAll as v).mem.read) = v.toNat % 2 ^ (8 * as.length)
  | [], s, v, _, _ => by simp [littleEndian, Nat.mod_one]
  | a :: as, s, v, hm, hn => by
    obtain ⟨ha, hn⟩ := List.nodup_cons.1 hn
    have ih := littleEndian_storeAll (v >>> 8) (State.storeByte_wf a (v.setWidth 8) hm) hn
    have hread : (s.storeAll (a :: as) v).mem.read a = v.setWidth 8 := by
      rw [State.storeAll, State.storeAll_read _ _ ha, State.storeByte_mem, Memory.read_write_self a _ hm]
    have hpow : 2 ^ (8 * (as.length + 1)) = 2 ^ 8 * 2 ^ (8 * as.length) := by rw [← Nat.pow_add]; congr 1; omega
    rw [List.map_cons, littleEndian, hread]
    simp only [State.storeAll] at ih ⊢
    rw [ih, List.length_cons, hpow, Nat.mod_mul, BitVec.toNat_ushiftRight, BitVec.toNat_setWidth, Nat.shiftRight_eq_div_pow]
    rfl

/-- Settles O13: the value read is the number of its bytes, and a store leaves the bytes of its number. -/
theorem bytesAreLittleEndian : Obligations.BytesAreLittleEndian := by
  refine ⟨toNat_leValue, fun s t as v hm hn _ h => ?_⟩
  obtain ⟨-, rfl⟩ := State.storeBytes_ok.1 h
  exact littleEndian_storeAll v hm hn

/-! ### Linear addresses (R60, R64, R65) -/

namespace State

theorem toNat_truncLinear (s : State) (a : Word) :
    (s.truncLinear a).toNat = a.toNat % (if s.mode = .long64 then 2 ^ 64 else 2 ^ 32) := by
  unfold truncLinear
  split
  · exact (Nat.mod_eq_of_lt a.isLt).symm
  · simp only [BitVec.toNat_setWidth]
    omega

theorem segBase_of_ne_long64 {s : State} (hm : s.mode ≠ .long64) (sg : SegName) : s.segBase sg = (s.sreg sg).hid.base :=
  if_neg hm

/-- The base that takes part in a Long64 address: that of FS and GS (R65). -/
def longBase (s : State) : SegName → Word
  | .fs => (s.sreg .fs).hid.base
  | .gs => (s.sreg .gs).hid.base
  | .es | .cs | .ss | .ds => 0

theorem segBase_of_long64 {s : State} (hm : s.mode = .long64) (sg : SegName) : s.segBase sg = s.longBase sg := by
  unfold segBase
  rw [if_pos hm]
  cases sg <;> rfl

theorem linear_of_long64 {s : State} (hm : s.mode = .long64) (sg : SegName) (off : Word) (k : Nat) :
    s.linear sg off k = s.longBase sg + off + BitVec.ofNat 64 k := by
  rw [linear, truncLinear, if_pos hm, segBase_of_long64 hm]

theorem toNat_linear_of_ne_long64 {s : State} (hm : s.mode ≠ .long64) (sg : SegName) (off : Word) (k : Nat) :
    (s.linear sg off k).toNat = ((s.sreg sg).hid.base.toNat + off.toNat + k) % 2 ^ 32 := by
  rw [linear, toNat_truncLinear, if_neg hm, segBase_of_ne_long64 hm]
  simp only [BitVec.toNat_add, BitVec.toNat_ofNat]
  omega

theorem toNat_linear_of_long64 {s : State} (hm : s.mode = .long64) (sg : SegName) (off : Word) (k : Nat) :
    (s.linear sg off k).toNat = ((s.longBase sg).toNat + off.toNat + k) % 2 ^ 64 := by
  rw [linear_of_long64 hm]
  simp only [BitVec.toNat_add, BitVec.toNat_ofNat]
  omega

theorem length_linears (s : State) (sg : SegName) (off : Word) (n : Nat) : (s.linears sg off n).length = n := by
  simp [linears]

theorem translate_of_real {s : State} (hm : s.mode = .real) (acc : Access) (cpl : BitVec 2) (lin : Word) :
    s.translate acc cpl lin = .ok lin.toNat := if_pos hm

end State

/-- Settles O14: the sum of base, offset and byte number, cut to the width of the mode. -/
theorem linearAddresses : Obligations.LinearAddresses := by
  intro s sg off
  refine ⟨fun hm k => State.toNat_linear_of_ne_long64 hm sg off k, fun hm k => ?_, fun n => ⟨s.length_linears sg off n, ?_⟩,
    State.translate_of_real⟩
  · have h := State.toNat_linear_of_long64 hm sg off k
    cases sg <;> exact h
  · intro k hk
    simp [State.linears, hk]

/-! ### The segment test (R66 to R68) -/

/-- The limit test of an access is that of its first byte and of its last. -/
theorem insideLimit_iff {h : SegHidden} {off : Word} {n : Nat} (hn : 0 < n) :
    insideLimit h off n = true ↔ ∀ k, k < n → InsideByte h (off.toNat + k) := by
  have upper (b : Nat) : off.toNat + n - 1 ≤ b ↔ ∀ k, k < n → off.toNat + k ≤ b :=
    ⟨fun h k hk => by omega, fun h => by have := h (n - 1) (by omega); omega⟩
  have both (a b : Nat) : (a < off.toNat ∧ off.toNat + n - 1 ≤ b) ↔ ∀ k, k < n → a < off.toNat + k ∧ off.toNat + k ≤ b :=
    ⟨fun h k hk => by omega, fun h => ⟨by have := h 0 hn; omega, (upper b).2 fun k hk => (h k hk).2⟩⟩
  unfold insideLimit InsideByte
  cases h.kind with
  | data w e =>
    cases e with
    | false => simpa using upper _
    | true => simpa using both _ _
  | code r c => simpa using upper _
  | system => simpa using upper _

theorem admits_read_iff (k : SegKind) :
    SegKind.admits k .read = true ↔ (∃ w e, k = .data w e) ∨ ∃ c, k = .code true c := by
  cases k <;> simp [SegKind.admits, SegKind.readable]

theorem admits_write_iff (k : SegKind) : SegKind.admits k .write = true ↔ ∃ e, k = .data true e := by
  cases k <;> simp [SegKind.admits, SegKind.writable]

theorem not_nullable_iff (sg : SegName) : SegName.nullable sg = false ↔ sg = .ss ∨ sg = .cs := by
  cases sg <;> simp [SegName.nullable]

theorem State.protectedLike_iff (s : State) : s.protectedLike = true ↔ s.ProtectedOrCompat := by
  simp [State.protectedLike, State.ProtectedOrCompat]

/-- Outside Long64: the limit, and in Protected and Compat mode NULL and the kind of segment. -/
theorem State.segTest_iff_of_ne_long64 {s : State} (hm : s.mode ≠ .long64) (acc : Access) (sg : SegName) (off : Word)
    (n : Nat) :
    s.segTest acc sg off n = true ↔ insideLimit (s.sreg sg).hid off n = true ∧
      (s.ProtectedOrCompat → (SegName.nullable sg = false ∨ (s.sreg sg).hid.usable = true) ∧
        SegKind.admits (s.sreg sg).hid.kind acc = true) := by
  rw [← s.protectedLike_iff]
  unfold segTest
  rw [if_neg hm]
  cases s.protectedLike <;> simp [and_comm]

/-- Settles O16: the limit test of every byte, and what Protected and Compat mode ask beside it. -/
theorem segmentTestIsByteWise : Obligations.SegmentTestIsByteWise := by
  intro s acc sg off n hm hn
  rw [State.segTest_iff_of_ne_long64 hm, insideLimit_iff hn, not_nullable_iff, or_assoc]
  cases acc with
  | read => rw [admits_read_iff]
  | write => rw [admits_write_iff]

/-! ### Canonical form (R65, R78) -/

theorem shiftRight_eq_zero_iff {w : Nat} (m : Nat) (a : BitVec w) : a >>> m = 0 ↔ ∀ j, m ≤ j → j < w → a.getLsbD j = false := by
  constructor
  · intro h j hj hj'
    have := congrArg (·.getLsbD (j - m)) h
    simpa [Nat.add_sub_cancel' hj] using this
  · intro h
    apply BitVec.eq_of_getLsbD_eq
    intro i hi
    by_cases hm : m + i < w
    · simpa using h (m + i) (by omega) hm
    · simp [BitVec.getLsbD_of_ge a (m + i) (by omega)]

theorem shiftRight_eq_ones_iff {w : Nat} (m : Nat) (a : BitVec w) :
    a >>> m = BitVec.allOnes w >>> m ↔ ∀ j, m ≤ j → j < w → a.getLsbD j = true := by
  constructor
  · intro h j hj hj'
    have := congrArg (·.getLsbD (j - m)) h
    simpa [Nat.add_sub_cancel' hj, hj'] using this
  · intro h
    apply BitVec.eq_of_getLsbD_eq
    intro i hi
    by_cases hm : m + i < w
    · simpa [hm] using h (m + i) (by omega) hm
    · simp [BitVec.getLsbD_of_ge a (m + i) (by omega), hm]

/-- All bits from the top implemented one up are 0, or all are 1. -/
theorem canonical_iff (p : LinAddrBits) (a : Word) : canonical p a = true ↔ TopBitsEqual (addrBits p) a := by
  have hp : addrBits p - 1 ≤ 63 := by cases p <;> decide
  unfold canonical TopBitsEqual
  rw [Bool.or_eq_true, beq_iff_eq, beq_iff_eq, shiftRight_eq_zero_iff, shiftRight_eq_ones_iff]
  constructor
  · rintro (h | h) j hj hj'
    · rw [h j hj (by omega), h 63 hp (by omega)]
    · rw [h j hj (by omega), h 63 hp (by omega)]
  · intro h
    cases h63 : a.getLsbD 63 with
    | false => exact .inl fun j hj hj' => (h j hj (by omega)).trans h63
    | true => exact .inr fun j hj hj' => (h j hj (by omega)).trans h63

theorem State.segTest_iff_of_long64 {s : State} (hm : s.mode = .long64) (acc : Access) (sg : SegName) (off : Word)
    (n : Nat) :
    s.segTest acc sg off n = true ↔
      ∀ k, k < n → TopBitsEqual (addrBits s.params.linAddrBits) (s.longBase sg + off + BitVec.ofNat 64 k) := by
  unfold segTest
  rw [if_pos hm]
  simp only [linears, List.all_map, List.all_eq_true, List.mem_range, Function.comp_apply, canonical_iff,
    linear_of_long64 hm]

/-- Settles O17: the canonical test of every byte and nothing else. -/
theorem canonicalTestInLong64 : Obligations.CanonicalTestInLong64 := by
  intro s acc sg off n hm
  have h := State.segTest_iff_of_long64 hm acc sg off n
  cases hb : s.params.linAddrBits <;> rw [hb] at h <;> cases sg <;> exact h

end Sys2Proof.Machine
end

section
/-! PROOFS about the boundary and the fetch: the bytes at pc, the instruction they decode to, and what a step makes of it. -/

namespace Sys2Proof.Machine

namespace State

/-! ### The bytes at pc (R29, R74, R256) -/

theorem fetchByte_ok {s : State} {k a : Nat} {b : Byte} :
    s.fetchByte k = .ok (a, b) ↔ s.fetchRefusal? k = none ∧ s.translate .read s.cpl (s.fetchLinear k) = .ok a ∧
      s.inPhysMem a = true ∧ b = s.mem.read a := by
  unfold fetchByte
  cases s.fetchRefusal? k with
  | some r => simp
  | none =>
    cases s.translate .read s.cpl (s.fetchLinear k) with
    | error e => simp
    | ok x =>
      cases hx : s.inPhysMem x with
      | false =>
        simp only [hx, Bool.false_eq_true, if_false, reduceCtorEq, Except.ok.injEq, true_and, false_iff, not_and]
        rintro rfl h
        rw [hx] at h; cases h
      | true =>
        simp only [hx, if_true, Except.ok.injEq, Prod.mk.injEq, true_and]
        constructor
        · rintro ⟨rfl, rfl⟩; exact ⟨rfl, hx, rfl⟩
        · rintro ⟨rfl, -, rfl⟩; exact ⟨rfl, rfl⟩

theorem fetchLinear_of_long64 {s : State} (hm : s.mode = .long64) (k : Nat) : s.fetchLinear k = s.pc + BitVec.ofNat 64 k := by
  rw [fetchLinear, linear_of_long64 hm, fetchOffset, if_pos hm]
  simp [longBase]

theorem fetchRefusal_of_long64 {s : State} (hm : s.mode = .long64) (k : Nat) :
    s.fetchRefusal? k = none ↔ TopBitsEqual (addrBits s.params.linAddrBits) (s.pc + BitVec.ofNat 64 k) := by
  rw [fetchRefusal?, if_pos hm, fetchLinear_of_long64 hm, ← canonical_iff]
  cases canonical s.params.linAddrBits (s.pc + BitVec.ofNat 64 k) <;> simp

theorem toNat_fetchOffset {s : State} (hm : s.mode ≠ .long64) {k : Nat} (hk : k < 12) :
    (s.fetchOffset k).toNat = s.pc.toNat % 2 ^ 32 + k := by
  rw [fetchOffset, if_neg hm]
  simp only [BitVec.toNat_add, BitVec.toNat_setWidth, BitVec.toNat_ofNat]
  omega

theorem fetchLinear_of_ne_long64 {s : State} (hm : s.mode ≠ .long64) (k : Nat) :
    s.fetchLinear k =
      BitVec.ofNat 64 (((s.sreg .cs).hid.base.toNat + s.pc.toNat % 2 ^ 32 + k) % 2 ^ 32) := by
  apply BitVec.eq_of_toNat_eq
  rw [fetchLinear, toNat_linear_of_ne_long64 hm, toNat_fetchOffset hm (by decide), BitVec.toNat_ofNat]
  omega

theorem fetchRefusal_of_ne_long64 {s : State} (hm : s.mode ≠ .long64) {k : Nat} (hk : k < 12) :
    s.fetchRefusal? k = none ↔ s.pc.toNat % 2 ^ 32 + k ≤ (s.sreg .cs).hid.limit.toNat := by
  rw [fetchRefusal?, if_neg hm, toNat_fetchOffset hm hk]
  split
  · next h => exact ⟨fun _ => h, fun _ => rfl⟩
  · next h => exact ⟨nofun, fun h' => absurd h' h⟩

/-- The bytes from byte `m` on are fetched one by one, up to the first that cannot be. -/
theorem fetchFrom_getElem {s : State} {c : Nat × Byte} : ∀ (n m k : Nat), (s.fetchFrom n m).1[k]? = some c ↔
    k < n ∧ s.fetchByte (m + k) = .ok c ∧ ∀ j, j < k → ∃ b, s.fetchByte (m + j) = .ok b
  | 0, _, _ => by simp [fetchFrom]
  | n + 1, m, k => by
    unfold fetchFrom
    cases hm : s.fetchByte m with
    | error r =>
      simp only [List.getElem?_nil, reduceCtorEq, false_iff, not_and]
      intro _ hk hj
      cases k with
      | zero => rw [Nat.add_zero, hm] at hk; cases hk
      | succ k =>
        obtain ⟨b, hb⟩ := hj 0 (by omega)
        rw [Nat.add_zero, hm] at hb; cases hb
    | ok b =>
      cases k with
      | zero => simp [hm]
      | succ k =>
        have hshift : ∀ j, m + 1 + j = m + (j + 1) := fun j => by omega
        simp only [List.getElem?_cons_succ, fetchFrom_getElem n (m + 1) k, Nat.add_lt_add_iff_right, hshift]
        refine and_congr_right fun _ => and_congr_right fun _ => ⟨fun h j hj => ?_, fun h j hj => h (j + 1) (by omega)⟩
        cases j with
        | zero => exact ⟨b, hm⟩
        | succ j => exact h j (by omega)

/-- Bytes that can be fetched one after the other are the first ones fetched. -/
theorem fetchFrom_of_bytes {s : State} {bs : List Byte} (hlen : bs.length ≤ maxInstrLength)
    (h : ∀ k b, bs[k]? = some b → ∃ a, s.fetchByte k = .ok (a, b)) :
    ∃ rest, (s.fetchFrom maxInstrLength 0).1.map Prod.snd = bs ++ rest := by
  have hprefix : bs <+: (s.fetchFrom maxInstrLength 0).1.map Prod.snd := by
    rw [List.prefix_iff_getElem?]
    intro k hk
    obtain ⟨a, ha⟩ := h k bs[k] (List.getElem?_eq_getElem hk)
    have hfetch : (s.fetchFrom maxInstrLength 0).1[k]? = some (a, bs[k]) := by
      refine (fetchFrom_getElem _ _ _).2 ⟨by omega, by rwa [Nat.zero_add], fun j hj => ?_⟩
      obtain ⟨x, hx⟩ := h j bs[j] (List.getElem?_eq_getElem (by omega))
      exact ⟨_, by rwa [Nat.zero_add]⟩
    rw [List.getElem?_map, hfetch, Option.map_some]
  obtain ⟨rest, hrest⟩ := hprefix
  exact ⟨rest, hrest.symm⟩

/-! ### The instruction at pc -/

theorem mem_fetchAddrs {s : State} {len a : Nat} :
    a ∈ s.fetchAddrs len ↔ ∃ c ∈ (s.fetchFrom maxInstrLength 0).1.take len, c.1 = a := by
  simp only [fetchAddrs, List.mem_map]

theorem fetchedModified_iff {s : State} {len : Nat} :
    s.fetchedModified len = true ↔ ∃ c ∈ (s.fetchFrom maxInstrLength 0).1.take len, c.1 ∈ s.written := by
  simp [fetchedModified, mem_fetchAddrs]

theorem fetchInstr_of_decode {s : State} {i : Instr} {rest : List Byte}
    (h : decode s.ctx ((s.fetchFrom maxInstrLength 0).1.map Prod.snd) = .ok (i, rest)) :
    s.fetchInstr = if s.fetchedModified i.length then .error .fetchModified else .ok i := by
  simp only [fetchInstr, h]

end State

theorem step_of_fetchInstr {s : State} {i : Instr} (hd : s.interruptDue = false) (hf : s.fetchInstr = .ok i) :
    step s = sparingCode (exec i (s.enter i.length)) := by
  simp [step, hd, hf]

theorem step_of_fetchInstr_error {s : State} {r : Refusal} (hd : s.interruptDue = false) (hf : s.fetchInstr = .error r) :
    step s = .refused r := by
  simp [step, hd, hf]

theorem sparingCode_of_next {t : State} :
    ((∃ a ∈ t.written, a ∈ t.fetched) → sparingCode (.next t) = .refused .codeWritten) ∧
      ((∀ a ∈ t.written, a ∉ t.fetched) → sparingCode (.next t) = .next t) := by
  constructor
  · rintro ⟨a, ha, hf⟩
    have : t.codeIntact ≠ true := fun h => State.codeIntact_iff.1 h a ha hf
    simp [sparingCode, this]
  · intro h
    simp [sparingCode, State.codeIntact_iff.2 h]

/-- Settles O5: the fetched bytes decode to the instruction the step runs, unless the run wrote one of them. -/
theorem stepRunsTheDecodedInstruction : Obligations.StepRunsTheDecodedInstruction := by
  intro s
  refine ⟨fun n k c => by simpa using State.fetchFrom_getElem n 0 k, fun len => ⟨rfl, fun a => ?_⟩, ?_⟩
  · rw [State.mem_enter_fetched, State.mem_fetchAddrs]
  · intro i rest hd hdec
    have hf := State.fetchInstr_of_decode hdec
    refine ⟨fun h => ?_, fun h => ?_⟩
    · rw [if_pos (State.fetchedModified_iff.2 h)] at hf
      exact step_of_fetchInstr_error hd hf
    · rw [if_neg fun e => by obtain ⟨c, hc, hw⟩ := State.fetchedModified_iff.1 e; exact h c hc hw] at hf
      rw [step_of_fetchInstr hd hf]
      refine ⟨fun t ht => ?_, fun f ht => by rw [ht]; rfl, fun r ht => by rw [ht]; rfl⟩
      rw [ht, ← (exec_next_sameControl ht).fetched]
      exact sparingCode_of_next

/-- Settles O6: the byte at pc + k, and the decoder reading the encoded bytes back whatever follows them. -/
theorem stepRunsTheEncodedInstruction : Obligations.StepRunsTheEncodedInstruction := by
  refine ⟨fun s k a b hk => ?_, fun s i hd hw hbytes => ?_⟩
  · rw [State.fetchByte_ok]
    by_cases hm : s.mode = .long64
    · rw [State.fetchRefusal_of_long64 hm, State.fetchLinear_of_long64 hm]
      simp only [hm, forall_const, ne_eq, not_true, false_implies, true_and, and_assoc]
      cases s.params.linAddrBits <;> rfl
    · rw [State.fetchRefusal_of_ne_long64 hm hk, State.fetchLinear_of_ne_long64 hm]
      simp only [hm, forall_const, ne_eq, not_false_eq_true, false_implies, true_and, and_assoc]
  · obtain ⟨rest, hrest⟩ := State.fetchFrom_of_bytes (s := s) (bs := encode i)
      (by rw [length_encode]; exact (Instr.length_bounds hw).2)
      fun k b hb => let ⟨a, ha, _⟩ := hbytes k b hb; ⟨a, ha⟩
    have hf := State.fetchInstr_of_decode (s := s) (by rw [hrest]; exact decode_encode s.ctx rest hw)
    rw [if_neg ?_] at hf
    · exact step_of_fetchInstr hd hf
    · rw [State.fetchedModified_iff]
      rintro ⟨c, hc, hcw⟩
      obtain ⟨k, hk⟩ := List.mem_iff_getElem?.1 hc
      rw [List.getElem?_take] at hk
      split at hk
      · next hlt =>
        obtain ⟨-, hbyte, -⟩ := (State.fetchFrom_getElem _ _ _).1 hk
        obtain ⟨a, ha, hnot⟩ := hbytes k _ (List.getElem?_eq_getElem (by rwa [length_encode]))
        rw [Nat.zero_add, ha] at hbyte
        cases hbyte
        exact hnot hcw
      · cases hk

/-! ### Interrupts (R45, R260) -/

/-- Settles O7: an interrupt is refused exactly when one is due. -/
theorem interruptsAtTheBoundary : Obligations.InterruptsAtTheBoundary := by
  intro s o os ho
  simp only [ne_eq, step_interruptDelivered, State.interruptDue, ho]
  refine ⟨?_, ?_, ?_⟩
  · rintro hi rfl; simp [hi]
  · rintro hi rfl hf; simp [hi, State.interruptFlag, hf]
  · rintro (hi | rfl | ⟨rfl, hf⟩)
    · cases o <;> simp [hi]
    · simp
    · simp [State.interruptFlag, -BitVec.getLsbD_eq_getElem, hf]

end Sys2Proof.Machine
end

section
/-! PROOFS about accesses that fail (R70, R71, R83, R256, R258): what translation, an access and the stack read answer then,
and what the instruction makes of it. -/

namespace Sys2Proof.Machine

namespace State

/-! ### Translation and memory that does not exist -/

theorem translateAll_of_firstFaultAt {s : State} {acc : Access} {cpl : BitVec 2} {l : Word} {code : BitVec 32} :
    ∀ {ls : List Word}, s.FirstFaultAt acc cpl ls l code → s.translateAll acc cpl ls = raise s (.pf code l) := by
  rintro ls ⟨before, after, rfl, hl, hbefore⟩
  induction before with
  | nil => simp [translateAll, hl]
  | cons x before ih =>
    obtain ⟨a, ha⟩ := hbefore x (by simp)
    rw [List.cons_append, translateAll, ha]
    simp [ih fun y hy => hbefore y (by simp [hy]), raise]

/-- Translating addresses succeeds, or one of them is the first that faults. -/
theorem translateAll_cases (s : State) (acc : Access) (cpl : BitVec 2) : ∀ ls : List Word,
    (∃ ps : List Nat, ls.map (s.translate acc cpl) = ps.map Except.ok) ∨ ∃ l code, s.FirstFaultAt acc cpl ls l code
  | [] => .inl ⟨[], rfl⟩
  | x :: ls => by
    cases hx : s.translate acc cpl x with
    | error code => exact .inr ⟨x, code, [], ls, rfl, hx, by simp⟩
    | ok p =>
      obtain ⟨ps, hps⟩ | ⟨l, code, before, after, rfl, hl, hbefore⟩ := translateAll_cases s acc cpl ls
      · exact .inl ⟨p :: ps, by simp [hx, hps]⟩
      · refine .inr ⟨l, code, x :: before, after, rfl, hl, fun y hy => ?_⟩
        obtain rfl | hy := List.mem_cons.1 hy
        · exact ⟨p, hx⟩
        · exact hbefore y hy

theorem not_firstFaultAt_of_map {s : State} {acc : Access} {cpl : BitVec 2} {ls : List Word} {ps : List Nat}
    (h : ls.map (s.translate acc cpl) = ps.map Except.ok) (l : Word) (code : BitVec 32) :
    ¬ s.FirstFaultAt acc cpl ls l code := fun hf => by
  have hok := translateAll_ok.2 h
  rw [translateAll_of_firstFaultAt hf] at hok
  cases hok

theorem loadBytes_of_firstOutside {s : State} {a : Nat} {as : List Nat} (h : s.FirstOutside as a) :
    s.loadBytes as = refuse (.outsidePhysMem a) := by
  obtain ⟨before, after, rfl, ha, hbefore⟩ := h
  induction before with
  | nil => simp [loadBytes, ha]
  | cons x before ih =>
    rw [List.cons_append, loadBytes, if_pos (hbefore x (by simp)), ih fun y hy => hbefore y (by simp [hy])]
    rfl

theorem storeBytes_of_firstOutside {a : Nat} {as : List Nat} {s : State} (h : s.FirstOutside as a) (v : Word) :
    s.storeBytes as v = refuse (.outsidePhysMem a) := by
  obtain ⟨before, after, rfl, ha, hbefore⟩ := h
  induction before generalizing s v with
  | nil => simp [storeBytes, ha]
  | cons x before ih =>
    rw [List.cons_append, storeBytes, if_pos (hbefore x (by simp))]
    exact ih (s := s.storeByte x (v.setWidth 8)) _ ha fun y hy => hbefore y (by simp [hy])

/-! ### A checked access -/

theorem alignFault_iff (s : State) (lin : Word) (n : Nat) : s.alignFault lin n = true ↔ s.Unaligned lin n := by
  simp [alignFault, Unaligned, and_assoc]

theorem alignFault_of_not_unaligned {s : State} {lin : Word} {n : Nat} (h : ¬ s.Unaligned lin n) :
    s.alignFault lin n = false := by
  rwa [← alignFault_iff, Bool.not_eq_true] at h

theorem reportsLater_of_fixed {s : State} (h : s.params.faultOrder = .fixed) (c : Nat) : s.reportsLater c = false := by
  simp [reportsLater, h]

section Access

variable {s : State} {acc : Access} {sg : SegName} {off : Word} {n c : Nat}

theorem accessAddrs_of_aligned (ht : s.segTest acc sg off n = true) (ha : ¬ s.Unaligned (s.linear sg off 0) n) :
    s.accessAddrs acc sg off n c = s.translateAll acc s.cpl (s.linears sg off n) := by
  simp [accessAddrs, ht, alignFault_of_not_unaligned ha]

/-- An unaligned access raises #AC, but where a byte faults too #PF may be the one reported (R258, log 13). -/
theorem accessAddrs_of_unaligned (ht : s.segTest acc sg off n = true) (ha : s.Unaligned (s.linear sg off 0) n) :
    s.accessAddrs acc sg off n c = raise s .ac ∨
      s.reportsLater c = true ∧ s.accessAddrs acc sg off n c = s.translateAll acc s.cpl (s.linears sg off n) := by
  simp only [accessAddrs, ht, (alignFault_iff _ _ _).2 ha, if_true]
  cases s.translateAll acc s.cpl (s.linears sg off n) with
  | ok as => exact .inl rfl
  | error e =>
    cases s.reportsLater c with
    | false => exact .inl rfl
    | true => exact .inr ⟨rfl, rfl⟩

theorem accessAddrs_of_unaligned_fixed (hf : s.params.faultOrder = .fixed) (ht : s.segTest acc sg off n = true)
    (ha : s.Unaligned (s.linear sg off 0) n) : s.accessAddrs acc sg off n c = raise s .ac :=
  (accessAddrs_of_unaligned ht ha).resolve_right fun h => by simp [reportsLater_of_fixed hf] at h

theorem accessAddrs_of_firstFault {l : Word} {code : BitVec 32} (ht : s.segTest acc sg off n = true)
    (ha : ¬ s.Unaligned (s.linear sg off 0) n) (hl : s.FirstFault acc (s.linears sg off n) l code) :
    s.accessAddrs acc sg off n c = raise s (.pf code l) := by
  rw [accessAddrs_of_aligned ht ha, translateAll_of_firstFaultAt hl]

/-- An access reaches its bytes where it gives no cause for a fault, and raises one it gives cause for elsewhere. -/
theorem accessAddrs_cases (s : State) (acc : Access) (sg : SegName) (off : Word) (n c : Nat) :
    ((∃ as, s.accessAddrs acc sg off n c = .ok as) ∧ ∀ e, ¬ s.AccessRaises acc sg off n e) ∨
      ∃ e, s.AccessRaises acc sg off n e ∧ s.accessAddrs acc sg off n c = raise s e := by
  cases ht : s.segTest acc sg off n with
  | false => exact .inr ⟨s.segFault sg, .inl ⟨ht, rfl⟩, accessAddrs_of_segTest_false ht⟩
  | true =>
    obtain ⟨ps, hps⟩ | ⟨l, code, hl⟩ := s.translateAll_cases acc s.cpl (s.linears sg off n)
    · by_cases ha : s.Unaligned (s.linear sg off 0) n
      · refine .inr ⟨.ac, .inr ⟨ht, .inl ⟨ha, rfl⟩⟩, ?_⟩
        simp [accessAddrs, ht, (alignFault_iff _ _ _).2 ha, translateAll_ok.2 hps]
      · refine .inl ⟨⟨ps, by rw [accessAddrs_of_aligned ht ha, translateAll_ok.2 hps]⟩, ?_⟩
        rintro e (⟨hf, -⟩ | ⟨-, ⟨hu, -⟩ | ⟨l, code, hl, -⟩⟩)
        · rw [ht] at hf; cases hf
        · exact ha hu
        · exact not_firstFaultAt_of_map hps l code hl
    · have hpf : s.AccessRaises acc sg off n (.pf code l) := .inr ⟨ht, .inr ⟨l, code, hl, rfl⟩⟩
      by_cases ha : s.Unaligned (s.linear sg off 0) n
      · obtain h | ⟨-, h⟩ := accessAddrs_of_unaligned (c := c) ht ha
        · exact .inr ⟨.ac, .inr ⟨ht, .inl ⟨ha, rfl⟩⟩, h⟩
        · exact .inr ⟨_, hpf, h.trans (translateAll_of_firstFaultAt hl)⟩
      · exact .inr ⟨_, hpf, accessAddrs_of_firstFault ht ha hl⟩

end Access

/-! ### The stack read and the destination -/

theorem stackRead_of_accessAddrs_error {s : State} {n : Nat} {e : Stop}
    (h : s.accessAddrs .read .ss s.sp n 0 = .error e) : s.stackRead n = .error e := by
  rw [stackRead, segRead, h, error_bind]

theorem stackRead_of_firstOutside {s : State} {n a : Nat} {as : List Nat} (ht : s.segTest .read .ss s.sp n = true)
    (ha : ¬ s.Unaligned (s.linear .ss s.sp 0) n)
    (hp : (s.linears .ss s.sp n).map (s.translate .read s.cpl) = as.map Except.ok) (h : s.FirstOutside as a) :
    s.stackRead n = .error (.refused (.outsidePhysMem a)) := by
  rw [stackRead, segRead, accessAddrs_of_aligned ht ha, translateAll_ok.2 hp, ok_bind, loadBytes_of_firstOutside h]
  rfl

/-- A stack read that gives cause for a fault raises one it gives cause for. -/
theorem stackRead_of_accessRaises {s : State} {n : Nat} {e : Exception} (h : s.AccessRaises .read .ss s.sp n e) :
    ∃ e', s.AccessRaises .read .ss s.sp n e' ∧ s.stackRead n = raise s e' := by
  obtain ⟨-, hno⟩ | ⟨e', he, ha⟩ := s.accessAddrs_cases .read .ss s.sp n 0
  · exact absurd h (hno e)
  · exact ⟨e', he, stackRead_of_accessAddrs_error ha⟩

/-- The address of a destination is refused for one reason only. -/
theorem destOffset_error {s : State} {p : Prefixes} {n : Size} {m : MemOperand} {len : Nat} {e : Stop}
    (h : s.destOffset p n m len = .error e) : e = .refused .wrapEA16 := by
  unfold destOffset at h
  dsimp only at h
  split at h
  · obtain h | ⟨_, -, h⟩ := bind_error.1 h
    · unfold spBase at h
      split at h
      · split at h
        · exact (Except.error.inj h).symm
        · cases h
        · cases h
        · cases h
      · cases h
    · cases h
  · cases h

/-- So does a destination; where it gives none, it faults nowhere. -/
theorem destAddrs_cases (s : State) (i : Instr) (n : Size) (m : MemOperand) :
    ((∀ f, s.destAddrs i.prefixes n m i.length ≠ .error (.fault f)) ∧ ∀ e, ¬ s.DestinationRaises i n m e) ∨
      ∃ e, s.DestinationRaises i n m e ∧ s.destAddrs i.prefixes n m i.length = raise s e := by
  cases ho : s.destOffset i.prefixes n m i.length with
  | error e =>
    refine .inl ⟨fun f hf => ?_, fun e' h => ?_⟩
    · rw [destAddrs, ho, error_bind, destOffset_error ho] at hf
      cases hf
    · obtain ⟨off, h, -⟩ := h
      rw [ho] at h; cases h
  | ok off =>
    have hd := destAddrs_of_destOffset ho
    obtain ⟨⟨as, has⟩, hno⟩ | ⟨e, he, ha⟩ := s.accessAddrs_cases .write (segmentOf s.mode i.prefixes m) off n.bytes 1
    · refine .inl ⟨fun f hf => ?_, fun e h => ?_⟩
      · rw [hd, has] at hf; cases hf
      · obtain ⟨off', ho', he⟩ := h
        rw [ho] at ho'; cases ho'
        exact hno e he
    · exact .inr ⟨e, ⟨off, ho, he⟩, hd.trans ha⟩

end State

/-! ### What the instruction makes of it -/

theorem raises_of_body {i : Instr} {s : State} {e : Exception} (hs : s.Starts i) (h : body i s = raise s e) :
    Raises (exec i s) e :=
  ⟨e.vector, s.pc, by rw [exec_eq_body hs, h]; rfl⟩

theorem refused_of_body {i : Instr} {s : State} {r : Refusal} (hs : s.Starts i) (h : body i s = .error (.refused r)) :
    exec i s = .refused r := by
  rw [exec_eq_body hs, h]
  rfl

/-- An instruction whose stack read fails stops for that reason, unless a fault of its destination is reported instead. -/
theorem body_of_stackRead_error {i : Instr} {s : State} {e : Stop} (hs : s.Starts i)
    (h : s.stackRead (s.stackBytes i) = .error e)
    (hm : ∀ n m, PopsMemory i n m →
      s.reportedRead (.error e) (s.destAddrs i.prefixes n m i.length) = .error e) : body i s = .error e := by
  obtain ⟨n, d, hi⟩ | ⟨n, m, hi⟩ | ⟨sg, hi⟩ := Instr.pops i
  · rw [hi.stackBytes] at h
    rw [hi.body_eq, popToReg, h, error_bind]
  · rw [hi.stackBytes] at h
    rw [body_of_popsMemory hi, popToMem, h, hm n m hi, error_bind]
  · rw [hi.stackBytes] at h
    rw [hi.body_eq hs, popToSeg, h, error_bind]

theorem reportedRead_of_fixed {s : State} (hf : s.params.faultOrder = .fixed) (e : Stop) (dest : Exec (List Nat)) :
    s.reportedRead (.error e) dest = .error e := by
  cases e with
  | fault f =>
    cases dest with
    | ok as => rfl
    | error g => cases g <;> simp [State.reportedRead, State.reportsLater_of_fixed hf]
  | refused r => rfl

theorem body_of_stackRead_fault_fixed {i : Instr} {s : State} {e : Stop} (hs : s.Starts i)
    (hf : s.params.faultOrder = .fixed) (h : s.stackRead (s.stackBytes i) = .error e) : body i s = .error e :=
  body_of_stackRead_error hs h fun _ _ _ => reportedRead_of_fixed hf e _

theorem body_of_stackRead_refused {i : Instr} {s : State} {r : Refusal} (hs : s.Starts i)
    (h : s.stackRead (s.stackBytes i) = .error (.refused r)) : body i s = .error (.refused r) :=
  body_of_stackRead_error hs h fun _ _ _ => rfl

/-- Settles O18: the stack read stops for the first reason in the order of R70, and the instruction with it. -/
theorem stackReadFaults : Obligations.StackReadFaults := by
  intro s i hs
  refine ⟨fun hf => ⟨fun ht => ?_, fun ht hu => ?_, fun l code ht hu hl => ?_⟩, fun as a ht hu hp ho => ?_⟩
  · exact raises_of_body hs (body_of_stackRead_fault_fixed hs hf
      (State.stackRead_of_accessAddrs_error (State.accessAddrs_of_segTest_false ht)))
  · exact raises_of_body hs (body_of_stackRead_fault_fixed hs hf
      (State.stackRead_of_accessAddrs_error (State.accessAddrs_of_unaligned_fixed hf ht hu)))
  · exact raises_of_body hs (body_of_stackRead_fault_fixed hs hf
      (State.stackRead_of_accessAddrs_error (State.accessAddrs_of_firstFault ht hu hl)))
  · exact refused_of_body hs (body_of_stackRead_refused hs (State.stackRead_of_firstOutside ht hu hp ho))

/-- Settles O20: without a memory destination nothing but the read can be reported, #AC(0) or by the free choice #PF. -/
theorem eitherFaultIsReported : Obligations.EitherFaultIsReported := by
  intro s i l code hs hm _ ht hu hl
  have hbody {e : Exception} (h : s.accessAddrs .read .ss s.sp (s.stackBytes i) 0 = raise s e) : Raises (exec i s) e :=
    raises_of_body hs (body_of_stackRead_error hs (State.stackRead_of_accessAddrs_error h) fun n m hi => absurd hi (hm n m))
  obtain h | ⟨-, h⟩ := State.accessAddrs_of_unaligned (c := 0) ht hu
  · exact .inl (hbody h)
  · exact .inr (hbody (h.trans (State.translateAll_of_firstFaultAt hl)))

/-! ### POP to memory -/

section Memory

variable {s : State} {i : Instr} {n : Size} {m : MemOperand}

theorem raises_of_destAddrs {v : Word} {e : Exception} (hi : PopsMemory i n m) (hs : s.Starts i) (hv : s.Popped n.bytes v)
    (h : s.destAddrs i.prefixes n m i.length = raise s e) : Raises (exec i s) e :=
  raises_of_body hs
    ((body_of_popsMemory hi s).trans (popToMem_of_destAddrs_error (State.stackRead_of_popped hv) h))

/-- Of the read and the destination, both faulting, one is reported; where the destination does not fault, the read is. -/
theorem popToMem_of_stackRead_fault {f : Fault} (h : s.stackRead n.bytes = .error (.fault f)) :
    popToMem i n m s = .error (.fault f) ∨
      ∃ g, s.destAddrs i.prefixes n m i.length = .error (.fault g) ∧ popToMem i n m s = .error (.fault g) := by
  rw [popToMem, h]
  cases hd : s.destAddrs i.prefixes n m i.length with
  | ok as => exact .inl rfl
  | error e =>
    cases e with
    | refused r => exact .inl rfl
    | fault g =>
      cases hr : s.reportsLater 2 with
      | false => left; simp [State.reportedRead, hr]
      | true => exact .inr ⟨g, rfl, by simp [State.reportedRead, hr]⟩

end Memory

/-- Settles O19: after a stack read in order the destination stops for the first reason in the order of R71. -/
theorem destinationWriteFaults : Obligations.DestinationWriteFaults := by
  intro s i n m v off hi hs hv ho
  have hd := State.destAddrs_of_destOffset ho
  refine ⟨fun hf => ⟨fun ht => raises_segFault_of_popsMemory hi hs hv ho ht, fun ht hu => ?_, fun l code ht hu hl => ?_⟩,
    fun as a ht hu hp hout => ?_⟩
  · exact raises_of_destAddrs hi hs hv (hd.trans (State.accessAddrs_of_unaligned_fixed hf ht hu))
  · exact raises_of_destAddrs hi hs hv (hd.trans (State.accessAddrs_of_firstFault ht hu hl))
  · refine refused_of_body hs ?_
    have has : s.destAddrs i.prefixes n m i.length = .ok as := by
      rw [hd, State.accessAddrs_of_aligned ht hu, State.translateAll_ok.2 hp]
    have hstore := State.storeBytes_of_firstOutside (s := s.writeSp s.stackAddrSize (s.spAfter n)) (as := as) (a := a)
      (by simpa only [State.FirstOutside, State.writeSp_inPhysMem] using hout) v
    rw [body_of_popsMemory hi, popToMem, State.reportedRead_ok.2 (State.stackRead_of_popped hv), has, ok_bind, ok_bind,
      hstore]
    rfl

/-- Settles O21: the fault reported is one of the read or of the destination, whichever of them gives cause. -/
theorem eitherFaultOfMemoryForms : Obligations.EitherFaultOfMemoryForms := by
  intro s i n m hi hs _
  have hbody {e : Exception} (h : popToMem i n m s = raise s e) : Raises (exec i s) e :=
    raises_of_body hs ((body_of_popsMemory hi s).trans h)
  refine ⟨fun ⟨e, he⟩ => ?_, fun ⟨v, hv⟩ ⟨e, he⟩ => ?_, fun ⟨e, he⟩ hno => ?_⟩
  · obtain ⟨e', he', hread⟩ := State.stackRead_of_accessRaises he
    obtain h | ⟨g, hg, h⟩ := popToMem_of_stackRead_fault (i := i) (m := m) hread
    · exact ⟨e', .inl he', hbody h⟩
    · obtain ⟨hnone, -⟩ | ⟨e'', he'', hd⟩ := s.destAddrs_cases i n m
      · exact absurd hg (hnone g)
      · rw [hd] at hg; cases hg
        exact ⟨e'', .inr he'', hbody h⟩
  · obtain ⟨-, hnone⟩ | ⟨e', he', hd⟩ := s.destAddrs_cases i n m
    · exact absurd he (hnone e)
    · exact ⟨e', he', raises_of_destAddrs hi hs hv hd⟩
  · obtain ⟨e', he', hread⟩ := State.stackRead_of_accessRaises he
    obtain h | ⟨g, hg, -⟩ := popToMem_of_stackRead_fault (i := i) (m := m) hread
    · exact ⟨e', he', hbody h⟩
    · obtain ⟨hnone, -⟩ | ⟨e'', he'', -⟩ := s.destAddrs_cases i n m
      · exact absurd hg (hnone g)
      · exact absurd he'' (hno e'')

end Sys2Proof.Machine
end

section
/-! PROOFS about the effective address and the segment of a memory destination, and the three sizes (30_encoding.md sections 2
and 3; R158, R159). -/

namespace Sys2Proof.Machine

theorem setWidth_signExtend {w v m : Nat} (d : BitVec m) (h : w ≤ v) : (d.signExtend v).setWidth w = d.signExtend w := by
  apply BitVec.eq_of_getLsbD_eq
  intro i hi
  rw [BitVec.getLsbD_setWidth, BitVec.getLsbD_signExtend, BitVec.getLsbD_signExtend]
  simp [hi, show i < v by omega]

theorem setWidth16_value (d : Disp) : (Disp.value d).setWidth 16 = disp16 d := by
  cases d with
  | none => rfl
  | d8 d => exact setWidth_signExtend d (by decide)
  | d16 d => exact (setWidth_signExtend d (by decide)).trans (by simp [disp16])
  | d32 d => exact (setWidth_signExtend d (by decide)).trans (BitVec.signExtend_eq_setWidth_of_le d (by decide))

theorem setWidth32_value (d : Disp) : (Disp.value d).setWidth 32 = disp32 d := by
  cases d with
  | none => rfl
  | d8 d => exact setWidth_signExtend d (by decide)
  | d16 d => exact setWidth_signExtend d (by decide)
  | d32 d => exact (setWidth_signExtend d (by decide)).trans (by simp [disp32])

theorem value_eq_disp64 (d : Disp) : Disp.value d = disp64 d := by
  cases d <;> rfl

/-- Shifting by a scale is multiplying by its factor. -/
theorem shiftLeft_scale {w : Nat} (x : BitVec w) (c : Scale) :
    x <<< Scale.shift c = x * BitVec.ofNat w (Scale.factor c) := by
  apply BitVec.eq_of_toNat_eq
  cases c <;> simp [Scale.shift, Scale.factor, Nat.shiftLeft_eq]

namespace State

/-! ### The registers after the stack pointer was incremented (R158) -/

/-- The state with the stack pointer incremented by a POP of the given size. -/
def incremented (s : State) (n : Size) : State := s.writeSp s.stackAddrSize (s.spAfter n)

theorem gpr_incremented_ne (s : State) (n : Size) {j : GprNum} (h : j ≠ 4) : (s.incremented n).gpr j = s.gpr j :=
  s.gpr_writeSp_ne _ _ h

/-- A 16-bit stack pointer leaves bits 31:16 of register 4. -/
theorem r32_incremented_of_s16 {s : State} (h : s.stackAddrSize = .s16) (n : Size) :
    (s.incremented n).r32 4 = (s.r32 4).extractLsb' 16 16 ++ (s.r16 4 + BitVec.ofNat 16 n.bytes) := by
  have hg : (s.incremented n).gpr 4 = _ := s.gpr_writeSp_self n
  rw [h] at hg
  exact congrArg Gpr.lo hg

theorem r32_incremented {s : State} {n : Size} (h : s.spWraps n = false) :
    (s.incremented n).r32 4 = s.r32 4 + BitVec.ofNat 32 n.bytes := by
  have hg : (s.incremented n).gpr 4 = _ := s.gpr_writeSp_self n
  cases hs : s.stackAddrSize with
  | s16 =>
    have hsp : s.sp.toNat = (s.r32 4).toNat % 2 ^ 16 := by
      simp only [sp, hs, readReg, r16, r32, BitVec.toNat_setWidth]
      omega
    have hlt : (s.r32 4).toNat % 2 ^ 16 + n.bytes < 2 ^ 16 := by
      simpa [spWraps, hs, hsp] using h
    rw [r32_incremented_of_s16 hs]
    apply BitVec.eq_of_toNat_eq
    have h32 := (s.r32 4).isLt
    rw [show s.r16 4 = (s.r32 4).setWidth 16 from rfl]
    simp only [BitVec.toNat_append, BitVec.toNat_add, BitVec.toNat_setWidth, BitVec.toNat_ofNat, BitVec.extractLsb'_toNat,
      Nat.shiftRight_eq_div_pow]
    rw [← Nat.shiftLeft_add_eq_or_of_lt (Nat.mod_lt _ (by decide)), Nat.shiftLeft_eq]
    omega
  | s32 =>
    rw [hs] at hg
    exact congrArg Gpr.lo hg
  | s64 =>
    rw [hs] at hg
    rw [r32, congrArg Gpr.lo hg]
    have hlo : (s.r64 4).setWidth 32 = s.r32 4 := low_append _ _
    rw [BitVec.setWidth_add _ _ (by decide), hlo]
    cases n <;> rfl

theorem r64_incremented {s : State} (h : s.stackAddrSize = .s64) (n : Size) :
    (s.incremented n).r64 4 = s.r64 4 + BitVec.ofNat 64 n.bytes := by
  have hg : (s.incremented n).gpr 4 = _ := s.gpr_writeSp_self n
  rw [h] at hg
  rw [r64, hg]
  exact r64_split _

theorem spWraps_of_long64 {s : State} (hm : s.mode = .long64) (n : Size) : s.spWraps n = false := by
  simp [spWraps, stackAddrSize_of_long64 hm]

theorem long64_of_addressSize {s : State} {p : Prefixes} (h : s.ctx.addressSize p = .s64) : s.mode = .long64 := by
  by_contra hm
  exact addressSize_ne_s64 p (c := s.ctx) hm h

theorem base32_eq {s : State} {n : Size} {b : GprNum} (h : b = 4 → s.spWraps n = false) :
    (s.incremented n).r32 b = s.base32 n b := by
  unfold base32
  split
  · next hb => subst hb; exact r32_incremented (h rfl)
  · next hb => exact r32_congr (s.gpr_incremented_ne n hb)

theorem base64_eq {s : State} (hm : s.mode = .long64) (n : Size) (b : GprNum) :
    (s.incremented n).r64 b = s.base64 n b := by
  unfold base64
  split
  · next hb => subst hb; exact r64_incremented (stackAddrSize_of_long64 hm) n
  · next hb => exact r64_congr (s.gpr_incremented_ne n hb)

theorem index32_eq (s : State) (n : Size) {x : Option GprNum} (h : x ≠ some 4) :
    (s.incremented n).index32 x = s.index32 x := by
  cases x with
  | none => rfl
  | some j => exact r32_congr (s.gpr_incremented_ne n fun e => h (congrArg some e))

theorem index64_eq (s : State) (n : Size) {x : Option GprNum} (h : x ≠ some 4) :
    (s.incremented n).index64 x = s.index64 x := by
  cases x with
  | none => rfl
  | some j => exact r64_congr (s.gpr_incremented_ne n fun e => h (congrArg some e))

/-! ### The sum of an addressing form (R112 to R115) -/

theorem effectiveAddress_addr16 (s : State) (spv next : Word) (f : Addr16) (d : Disp) :
    s.effectiveAddress .s16 spv next (.addr16 f d) = (s.sum16 f + disp16 d).setWidth 64 := by
  simp only [effectiveAddress, zeroExtendFrom]
  rw [BitVec.setWidth_add _ _ (by decide), setWidth16_value]
  congr 2
  cases f <;> simp [Addr16.registers, sum16, readReg, BitVec.setWidth_add]

theorem effectiveAddress_base32 (s : State) (spv next : Word) (b : GprNum) (d : Disp) :
    s.effectiveAddress .s32 spv next (.base b d) =
      ((s.baseValue .s32 spv b).setWidth 32 + disp32 d).setWidth 64 := by
  simp only [effectiveAddress, zeroExtendFrom]
  rw [BitVec.setWidth_add _ _ (by decide), setWidth32_value]

theorem index32_shift (s : State) (x : Option GprNum) (c : Scale) :
    ((x.elim 0 (s.readReg .s32)) <<< Scale.shift c).setWidth 32 = s.index32 x * BitVec.ofNat 32 (Scale.factor c) := by
  rw [BitVec.setWidth_shiftLeft_of_le (by decide), shiftLeft_scale]
  congr 1
  cases x <;> simp [index32, readReg]

theorem effectiveAddress_sib32 (s : State) (spv next : Word) (c : Scale) (x b : Option GprNum) (d : Disp) :
    s.effectiveAddress .s32 spv next (.sib c x b d) =
      ((b.elim 0 (s.baseValue .s32 spv)).setWidth 32 + s.index32 x * BitVec.ofNat 32 (Scale.factor c) +
        disp32 d).setWidth 64 := by
  simp only [effectiveAddress, zeroExtendFrom]
  rw [BitVec.setWidth_add (i := 32) _ _ (by decide), BitVec.setWidth_add (i := 32) _ _ (by decide), setWidth32_value, index32_shift]

theorem effectiveAddress_base64 (s : State) (spv next : Word) (b : GprNum) (d : Disp) :
    s.effectiveAddress .s64 spv next (.base b d) = s.baseValue .s64 spv b + disp64 d := by
  rw [effectiveAddress, value_eq_disp64]
  rfl

theorem effectiveAddress_sib64 (s : State) (spv next : Word) (c : Scale) (x b : Option GprNum) (d : Disp) :
    s.effectiveAddress .s64 spv next (.sib c x b d) =
      b.elim 0 (s.baseValue .s64 spv) + s.index64 x * BitVec.ofNat 64 (Scale.factor c) + disp64 d := by
  have hx : x.elim 0 (s.readReg .s64) = s.index64 x := by cases x <;> rfl
  rw [effectiveAddress, value_eq_disp64, shiftLeft_scale, hx]
  rfl

/-! ### The offset of a destination (R151, R158, R159) -/

/-- What register 4 is worth as a base plays no part where it is not the base. -/
theorem effectiveAddress_of_not_spBased (s : State) {m : MemOperand} (h : MemOperand.spBased m = false) (asz : Size)
    (spv spv' next : Word) : s.effectiveAddress asz spv next m = s.effectiveAddress asz spv' next m := by
  have hbase {b : GprNum} (hb : b ≠ 4) : s.baseValue asz spv b = s.baseValue asz spv' b := by
    simp only [baseValue, if_neg hb]
  cases m with
  | addr16 f d | abs32 d | ripRel d => rfl
  | base b d =>
    have hb : b ≠ 4 := by simpa [MemOperand.spBased, MemOperand.base?] using h
    simp only [effectiveAddress, hbase hb]
  | sib c x b d =>
    cases b with
    | none => rfl
    | some b =>
      have hb : b ≠ 4 := by simpa [MemOperand.spBased, MemOperand.base?] using h
      simp only [effectiveAddress, Option.elim_some, hbase hb]

/-- The address is formed from the registers with the stack pointer incremented, unless a 16-bit one wraps and is the base. -/
theorem destOffset_eq {s : State} {p : Prefixes} {n : Size} {m : MemOperand} {len : Nat}
    (h : MemOperand.spBased m = true → s.spWraps n = false) :
    s.destOffset p n m len = .ok ((s.incremented n).effectiveAddress (s.ctx.addressSize p)
      ((s.incremented n).readReg (s.ctx.addressSize p) 4) (s.pc + BitVec.ofNat 64 len) m) := by
  unfold destOffset
  cases hb : MemOperand.spBased m with
  | true =>
    simp only [if_true, spBase, h hb, Bool.false_eq_true, if_false, ok_bind]
    rfl
  | false =>
    simp only [Bool.false_eq_true, if_false]
    rw [effectiveAddress_of_not_spBased _ hb]
    rfl

/-- With register 4 as base of a SIB byte, the offset is formed from what `spBase` says it is worth. -/
theorem destOffset_spBased (s : State) (p : Prefixes) (n : Size) (c : Scale) (x : Option GprNum) (d : Disp) (len : Nat) :
    s.destOffset p n (.sib c x (some 4) d) len =
      s.spBase (s.incremented n) (s.ctx.addressSize p) n >>= fun spv =>
        .ok ((s.incremented n).effectiveAddress (s.ctx.addressSize p) spv (s.pc + BitVec.ofNat 64 len)
          (.sib c x (some 4) d)) := rfl

theorem baseValue_readReg (s : State) (z : Size) (b : GprNum) : s.baseValue z (s.readReg z 4) b = s.readReg z b := by
  unfold baseValue
  split
  · next h => rw [h]
  · rfl

end State

/-- Settles O23: no register of the 16-bit table is the stack pointer, and truncation to 16 bits goes through the sum. -/
theorem effectiveAddress16 : Obligations.EffectiveAddress16 := by
  intro s p n f d len ha
  rw [State.destOffset_eq (fun h => by cases h), ha, State.effectiveAddress_addr16]
  congr 3
  have hr16 {j : GprNum} (hj : j ≠ 4) : (s.incremented n).r16 j = s.r16 j := by
    simp only [State.r16, s.gpr_incremented_ne n hj]
  cases f <;> simp [State.sum16, hr16]

/-- Settles O24, form by form, from the address where the stack pointer does not wrap and the base counts as incremented. -/
theorem effectiveAddress32 : Obligations.EffectiveAddress32 := by
  intro s p n len ha
  have hread (b : GprNum) : ((s.incremented n).readReg .s32 b).setWidth 32 = (s.incremented n).r32 b := by
    simp [State.readReg]
  refine ⟨fun d => ?_, fun d => ?_, fun b d _ hb => ?_, fun c x b d _ _ hb hx => ?_, fun c x d _ hx => ?_⟩
  · rw [State.destOffset_eq (fun h => by cases h), ha]
    simp [State.effectiveAddress, zeroExtendFrom]
  · rw [State.destOffset_eq (fun h => by cases h), ha]
    simp only [State.effectiveAddress, zeroExtendFrom]
    rw [BitVec.setWidth_add _ _ (by decide), setWidth_signExtend d (by decide), BitVec.signExtend_eq]
  · rw [State.destOffset_eq (fun h => hb (by simpa [MemOperand.spBased, MemOperand.base?] using h)), ha,
      State.effectiveAddress_base32, State.baseValue_readReg, hread, State.base32_eq hb]
  · rw [State.destOffset_eq (fun h => hb (by simpa [MemOperand.spBased, MemOperand.base?] using h)), ha,
      State.effectiveAddress_sib32, Option.elim_some, State.baseValue_readReg, hread, State.base32_eq hb,
      s.index32_eq n hx]
  · rw [State.destOffset_eq (fun h => by cases h), ha, State.effectiveAddress_sib32, s.index32_eq n hx]
    simp

/-- Settles O25: in Long64, where the stack pointer has 64 bits, no increment wraps. -/
theorem effectiveAddress64 : Obligations.EffectiveAddress64 := by
  intro s p n len ha
  have hm := State.long64_of_addressSize ha
  have hoff (m : MemOperand) := State.destOffset_eq (p := p) (m := m) (len := len) fun _ => s.spWraps_of_long64 hm n
  have hread (b : GprNum) : (s.incremented n).readReg .s64 b = s.base64 n b := State.base64_eq hm n b
  refine ⟨fun d => ?_, fun b d => ?_, fun c x b d hx => ?_, fun c x d hx => ?_⟩
  · rw [hoff, ha]; rfl
  · rw [hoff, ha, State.effectiveAddress_base64, State.baseValue_readReg, hread]
  · rw [hoff, ha, State.effectiveAddress_sib64, Option.elim_some, State.baseValue_readReg, hread, s.index64_eq n hx]
  · rw [hoff, ha, State.effectiveAddress_sib64, s.index64_eq n hx]
    simp

/-- Settles O26: the four values of WrapEA16, one after the other. -/
theorem wrappedStackPointerBase : Obligations.WrappedStackPointerBase := by
  intro s p n c x d len ha hw hx hx4
  have hs16 : s.stackAddrSize = .s16 := by
    simp only [State.spWraps, Bool.and_eq_true, beq_iff_eq] at hw
    exact hw.1
  have hoff {spv : Word} {base : BitVec 32} (hb : s.spBase (s.incremented n) .s32 n = .ok spv)
      (hv : spv.setWidth 32 = base) : s.destOffset p n (.sib c x (some 4) d) len =
        .ok ((base + s.index32 x * BitVec.ofNat 32 (Scale.factor c) + disp32 d).setWidth 64) := by
    rw [State.destOffset_spBased, ha, hb, ok_bind, State.effectiveAddress_sib32, s.index32_eq n hx4, ← hv]
    rfl
  refine ⟨fun h => ?_, fun h => ?_, fun h => ?_, fun h => ?_⟩
  · rw [State.destOffset_spBased, State.spBase, if_pos hw, h]; rfl
  · exact hoff (by rw [State.spBase, if_pos hw, h]) (by simp)
  · refine hoff (by rw [State.spBase, if_pos hw, h]) ?_
    rw [← State.r32_incremented_of_s16 hs16]
    simp [State.readReg]
  · exact ⟨Config.freeWrapBase s.draws, hoff (by rw [State.spBase, if_pos hw, h]) (by simp)⟩

/-! ### The segment of a destination (R112, R113, R115, R116) -/

theorem defaultSegment_of_base (b : GprNum) :
    (if some b = some (4 : GprNum) ∨ some b = some (5 : GprNum) then SegName.ss else .ds) =
      if b.val = 4 ∨ b.val = 5 then SegName.ss else .ds := by
  simp only [Option.some.injEq, Fin.ext_iff]
  rfl

/-- Settles O27: the base alone chooses SS or DS, and an override that counts takes their place. -/
theorem destinationSegment : Obligations.DestinationSegment := by
  intro mode p
  refine ⟨fun h => ?_, fun o m h hc => ?_, fun o m h hm hf hg => ?_⟩
  · have hseg (m : MemOperand) : segmentOf mode p m = MemOperand.defaultSegment m := by rw [segmentOf, h]
    simp only [hseg]
    refine ⟨fun d => ⟨rfl, rfl, rfl⟩, fun f d h1 h2 h3 => ?_, fun d => ⟨rfl, rfl⟩, fun b d => defaultSegment_of_base b,
      fun c x b d => defaultSegment_of_base b, fun c x d => rfl⟩
    cases f with
    | bpSi => exact absurd rfl h1
    | bpDi => exact absurd rfl h2
    | bp => exact absurd rfl h3
    | bxSi | bxDi | si | di | bx | abs => rfl
  · rw [segmentOf, h]
    exact if_neg fun ⟨hm, hf, hg⟩ => hc.elim (fun k => k hm) fun k => k.elim hf hg
  · rw [segmentOf, h]
    exact if_pos ⟨hm, hf, hg⟩

/-! ### The three sizes (R120 to R122) -/

theorem bits_flip_defaultSize (c : CodeContext) : c.defaultSize.flip.bits = 48 - sizeOfFlag c.csD := by
  unfold CodeContext.defaultSize
  cases c.csD <;> rfl

theorem bits_defaultSize (c : CodeContext) : c.defaultSize.bits = sizeOfFlag c.csD := by
  unfold CodeContext.defaultSize
  cases c.csD <;> rfl

theorem hasOpSize_iff (p : Prefixes) : p.hasOpSize = true ↔ LegacyPrefix.opSize ∈ p.legacy := by
  simp [Prefixes.hasOpSize]

theorem hasAddrSize_iff (p : Prefixes) : p.hasAddrSize = true ↔ LegacyPrefix.addrSize ∈ p.legacy := by
  simp [Prefixes.hasAddrSize]

theorem rexW_iff (p : Prefixes) : p.rexW = true ↔ ∃ r, p.rex = some r ∧ r.w = true := by
  cases h : p.rex <;> simp [Prefixes.rexW, h]

namespace State

/-- The 32-bit view of a register is its low half, the 16-bit view the low half of that (R22). -/
theorem toNat_r32 (s : State) (i : GprNum) : (s.r32 i).toNat = (s.r64 i).toNat % 2 ^ 32 := by
  have h : (s.r64 i).setWidth 32 = s.r32 i := low_append _ _
  rw [← h, BitVec.toNat_setWidth]

theorem toNat_r16 (s : State) (i : GprNum) : (s.r16 i).toNat = (s.r64 i).toNat % 2 ^ 16 := by
  rw [show s.r16 i = (s.r32 i).setWidth 16 from rfl, BitVec.toNat_setWidth, toNat_r32]
  omega

theorem toNat_sp (s : State) : s.sp.toNat = (s.r64 4).toNat % 2 ^ s.stackAddrSize.bits := by
  have h16 := s.toNat_r16 4
  have h32 := s.toNat_r32 4
  have h64 := (s.r64 4).isLt
  unfold sp
  cases s.stackAddrSize <;> simp only [readReg, Size.bits, BitVec.toNat_setWidth] <;> omega

end State

/-- Settles O12: a size flag gives the default, and a prefix flips it outside Long64; the views of a register are its remainders. -/
theorem sizesFollowFlagsAndPrefixes : Obligations.SizesFollowFlagsAndPrefixes := by
  intro s p
  refine ⟨fun hm => ⟨?_, ?_, ?_⟩, fun hm => ⟨?_, ?_, ?_⟩, s.toNat_sp, fun i _ => ⟨s.toNat_r32 i, s.toNat_r16 i⟩⟩
  · rw [State.stackAddrSize, if_neg hm]
    cases h : s.sregs.ss.hid.db <;> simp [State.sreg, h, sizeOfFlag, Size.bits]
  · simp only [CodeContext.operandSize, State.ctx, hm, if_false, hasOpSize_iff]
    split
    · exact bits_flip_defaultSize s.ctx
    · exact bits_defaultSize s.ctx
  · simp only [CodeContext.addressSize, State.ctx, hm, if_false, hasAddrSize_iff]
    split
    · exact bits_flip_defaultSize s.ctx
    · exact bits_defaultSize s.ctx
  · rw [State.stackAddrSize_of_long64 hm]; rfl
  · simp only [CodeContext.operandSize, State.ctx, hm, if_true, rexW_iff, hasOpSize_iff]
    split
    · rfl
    · split <;> rfl
  · simp only [CodeContext.addressSize, State.ctx, hm, if_true, hasAddrSize_iff]
    split <;> rfl

end Sys2Proof.Machine
end

section
/-! PROOFS about POP into a general register (40_pop_gpr_mem.md): the state it completes with, register by register. -/

namespace Sys2Proof.Machine

namespace State

/-! ### What is read off a register (R22, R24) -/

theorem popped_lt {s : State} {n : Nat} {v : Word} (h : s.Popped n v) (hn : n ≤ 8) : v.toNat < 2 ^ (8 * n) := by
  obtain ⟨as, ⟨-, -, htr, -⟩, rfl⟩ := h
  have hlen : as.length = n := by
    simpa [length_linears] using (congrArg List.length htr).symm
  have := leValue_lt (as.map s.mem.read) (by simpa [hlen] using hn)
  simpa [hlen] using this

theorem kept_of_gpr {s t : State} {j : GprNum} (h : s.Shows j → t.gpr j = s.gpr j) : s.Kept t j := by
  unfold Kept
  split
  · next hm => exact r64_congr (h (.inl hm))
  · exact fun hj => r32_congr (h (.inr hj))

theorem spMoved_of_gpr {s t : State} {n : Size} (h : t.gpr 4 = (s.incremented n).gpr 4) : s.SpMoved t n.bytes := by
  have hg : t.gpr 4 = _ := h.trans (s.gpr_writeSp_self n)
  unfold SpMoved
  cases hs : s.stackAddrSize with
  | s16 => rw [hs] at hg; exact congrArg Gpr.lo hg
  | s32 => rw [hs] at hg; exact congrArg Gpr.lo hg
  | s64 => rw [r64_congr h]; exact r64_incremented hs n

theorem high16_append {m : Nat} (x : BitVec m) (v : BitVec 16) : (x ++ v).extractLsb' 16 m = x :=
  (extract_high x v 0 m).trans (by simp)

/-- Replacing bits 15:0 of a register leaves its bits above them. -/
theorem append_low16 (hi lo : BitVec 32) (v : BitVec 16) :
    hi ++ (lo.extractLsb' 16 16 ++ v) = ((hi ++ lo).extractLsb' 16 48 ++ v : BitVec 64) := by
  apply BitVec.eq_of_getLsbD_eq
  intro k hk
  simp only [BitVec.getLsbD_append, BitVec.getLsbD_extractLsb']
  by_cases h16 : k < 16
  · simp [h16, show k < 32 by omega]
  · by_cases h32 : k < 32
    · have h48 : k - 16 < 48 := by omega
      simp [h16, h32, h48, show k - 16 < 16 by omega, show 16 + (k - 16) = k by omega]
    · have h48 : k - 16 < 48 := by omega
      simp [h16, h32, h48, show 16 + (k - 16) = k by omega]

theorem r64_of_low16 {s t : State} {j : GprNum} {v : BitVec 16}
    (h : t.gpr j = ⟨(s.gpr j).hi, (s.gpr j).lo.extractLsb' 16 16 ++ v⟩) : t.r64 j = (s.r64 j).extractLsb' 16 48 ++ v := by
  rw [r64, h]
  exact append_low16 _ _ _

theorem keptAbove16_of_gpr {s t : State} {d : GprNum} {v : BitVec 16}
    (h : t.gpr d = ⟨(s.gpr d).hi, (s.gpr d).lo.extractLsb' 16 16 ++ v⟩) : s.KeptAbove16 t d := by
  unfold KeptAbove16
  split
  · rw [r64_of_low16 h, high16_append]
  · rw [r32, h]
    exact high16_append _ v

end State

/-! ### The state a POP into a register completes with -/

/-- What `popToReg` leaves: the stack pointer incremented, the value written over it, and the instruction completed. -/
def registerPopped (s : State) (i : Instr) (n : Size) (d : GprNum) (v : Word) : State :=
  ((s.incremented n).writeReg n d v).completed i.length false false

theorem exec_popsRegister_next {i : Instr} {n : Size} {d : GprNum} {s t : State} (hi : PopsRegister i n d) :
    exec i s = .next t ↔
      s.Ready i ∧ ∃ v, s.stackRead n.bytes = .ok v ∧ t = registerPopped s i n d v := by
  constructor
  · intro h
    have hs := starts_of_exec_next h
    rw [exec_popsRegister hi hs, toOutcome_next, popToReg_ok] at h
    obtain ⟨v, hv, hpc, ht⟩ := h
    exact ⟨⟨hs, hpc⟩, v, hv, ht⟩
  · rintro ⟨⟨hs, hpc⟩, v, hv, ht⟩
    rw [exec_popsRegister hi hs, toOutcome_next, popToReg_ok]
    exact ⟨v, hv, hpc, ht⟩

section RegisterPopped

variable {s : State} {i : Instr} {n : Size} {d : GprNum} {v : Word}

theorem exec_of_popped (hi : PopsRegister i n d) (hr : s.Ready i) (hv : s.Popped n.bytes v) :
    exec i s = .next (registerPopped s i n d v) :=
  (exec_popsRegister_next hi).2 ⟨hr, v, State.stackRead_of_popped hv, rfl⟩

theorem registerPopped_eq : registerPopped s i n d v =
    { s.retired i.length false false with regs := (registerPopped s i n d v).regs } := by
  obtain ⟨g, hg⟩ := State.writeReg_eq s s.stackAddrSize 4 (s.spAfter n)
  obtain ⟨g', hg'⟩ := State.writeReg_eq (s.setGpr 4 g) n d v
  rw [registerPopped, State.incremented, State.writeSp, hg, hg']
  rfl

theorem gpr_registerPopped {j : GprNum} (hj : s.Shows j) :
    (registerPopped s i n d v).gpr j = ((s.incremented n).writeReg n d v).gpr j := by
  have hmode : ((s.incremented n).writeReg n d v).mode = s.mode := by simp [State.incremented, State.writeSp]
  exact State.gpr_completed _ _ _ _ (by rw [hmode]; exact hj)

theorem gpr_registerPopped_ne {j : GprNum} (hj : s.Shows j) (h : j ≠ d) :
    (registerPopped s i n d v).gpr j = (s.incremented n).gpr j := by
  rw [gpr_registerPopped hj, State.gpr_writeReg_ne _ _ _ (Ne.symm h)]

theorem kept_registerPopped {j : GprNum} (h : j ≠ d) (h4 : j ≠ 4) : s.Kept (registerPopped s i n d v) j :=
  State.kept_of_gpr fun hj => (gpr_registerPopped_ne hj h).trans (s.gpr_incremented_ne n h4)

theorem shows_four (s : State) : s.Shows 4 := .inr (by decide)

theorem spMoved_registerPopped (h : d ≠ 4) : s.SpMoved (registerPopped s i n d v) n.bytes :=
  State.spMoved_of_gpr (gpr_registerPopped_ne (shows_four s) (Ne.symm h))

/-- A 16-bit pop replaces bits 15:0 of the register the increment leaves. -/
theorem gpr_registerPopped_s16 (hd : s.Shows d) : (registerPopped s i .s16 d v).gpr d =
    ⟨((s.incremented .s16).gpr d).hi, ((s.incremented .s16).gpr d).lo.extractLsb' 16 16 ++ v.setWidth 16⟩ := by
  rw [gpr_registerPopped hd, State.gpr_writeReg_self]

theorem r16_registerPopped (hd : s.Shows d) : (registerPopped s i .s16 d v).r16 d = v.setWidth 16 := by
  rw [State.r16, gpr_registerPopped_s16 hd]
  exact low_append _ _

theorem r32_registerPopped (hd : s.Shows d) : (registerPopped s i .s32 d v).r32 d = v.setWidth 32 := by
  rw [State.r32, gpr_registerPopped hd, State.gpr_writeReg_self]

theorem r64_registerPopped (hd : s.Shows d) : (registerPopped s i .s64 d v).r64 d = v := by
  rw [State.r64, gpr_registerPopped hd, State.gpr_writeReg_self]
  exact r64_split v

end RegisterPopped

/-- Settles O28: the low 16 bits are replaced, and beside them only the stack pointer moves. -/
theorem popRegister16Completes : Obligations.PopRegister16Completes := by
  intro s i d v hi hr hv
  have hd := hi.shows hr.1.1
  refine ⟨_, exec_of_popped hi hr hv, registerPopped_eq, ?_, fun h4 => ⟨?_, spMoved_registerPopped h4⟩,
    fun j hj h4 => kept_registerPopped hj h4⟩
  · rw [r16_registerPopped hd, setWidth16_64 (State.popped_lt hv (by decide))]
  · refine State.keptAbove16_of_gpr (v := v.setWidth 16) ?_
    rw [gpr_registerPopped_s16 hd, s.gpr_incremented_ne _ h4]

/-- Settles O29: bits 31:0 are replaced, and beside them only the stack pointer moves. -/
theorem popRegister32Completes : Obligations.PopRegister32Completes := by
  intro s i d v hi hr hv
  refine ⟨_, exec_of_popped hi hr hv, registerPopped_eq, ?_, spMoved_registerPopped, fun j hj h4 => kept_registerPopped hj h4⟩
  rw [r32_registerPopped (hi.shows hr.1.1), setWidth32_64 (State.popped_lt hv (by decide))]

/-- A 64-bit pop is an instruction of Long64 only. -/
theorem long64_of_popsRegister {s : State} {i : Instr} {d : GprNum} (hi : PopsRegister i .s64 d) (hs : s.Starts i) :
    s.mode = .long64 := by
  by_contra hm
  exact Instr.rowSize_ne_s64_of_ne_long64 hs.1 hm hi.rowSize

/-- Settles O30: these forms exist in Long64 only, where registers are seen whole. -/
theorem popRegister64Completes : Obligations.PopRegister64Completes := by
  intro s i d v hi hr hv
  have hm := long64_of_popsRegister hi hr.1
  refine ⟨_, exec_of_popped hi hr hv, registerPopped_eq, r64_registerPopped (.inl hm), fun h4 => ?_, fun j hj h4 => ?_⟩
  · rw [State.r64_congr (gpr_registerPopped_ne (shows_four s) (Ne.symm h4)),
      State.r64_incremented (State.stackAddrSize_of_long64 hm)]
    rfl
  · exact State.r64_congr ((gpr_registerPopped_ne (.inl hm) hj).trans (s.gpr_incremented_ne _ h4))

/-- Settles O31: the row of a 16-bit pop keeps the upper bits of the incremented pointer, the other rows replace all of it. -/
theorem popIntoTheStackPointer : Obligations.PopIntoTheStackPointer := by
  intro s i n v hi hr hv
  refine ⟨_, exec_of_popped hi hr hv, ?_⟩
  have h4 := shows_four s
  cases n with
  | s32 =>
    show (State.r32 _ 4).setWidth 64 = v
    rw [r32_registerPopped h4, setWidth32_64 (State.popped_lt hv (by decide))]
  | s64 => exact r64_registerPopped h4
  | s16 =>
    have hg := gpr_registerPopped_s16 (i := i) (v := v) h4
    have hlo := congrArg Gpr.lo hg
    cases hs : s.stackAddrSize with
    | s16 =>
      have hinc : ((s.incremented .s16).gpr 4).lo = _ := State.r32_incremented_of_s16 hs .s16
      rw [hinc, State.high16_append] at hlo
      exact hlo
    | s32 =>
      have hinc : ((s.incremented .s16).gpr 4).lo = _ := State.r32_incremented (by simp [State.spWraps, hs])
      rw [hinc] at hlo
      exact hlo
    | s64 =>
      refine (State.r64_of_low16 hg).trans ?_
      rw [State.r64_incremented hs]
      rfl

/-- Settles O34: the completed state differs from the one before in registers, pc, the inhibition and the draws only. -/
theorem frameOfRegisterForms : Obligations.FrameOfRegisterForms := by
  intro s t i n d hi h
  obtain ⟨-, v, -, rfl⟩ := (exec_popsRegister_next hi).1 h
  refine ⟨?_, fun a => ?_, fun j hj h4 => kept_registerPopped hj h4⟩
  · rw [registerPopped_eq]; rfl
  · rw [registerPopped_eq]; rfl

/-! ### The two encodings (R111) -/

namespace SecondEncoding

variable {i j : Instr}

theorem popsRegister (h : SecondEncoding i j) : ∃ n d, PopsRegister i n d ∧ PopsRegister j n d := by
  cases h with
  | pop16 p d => exact ⟨_, d, .rm16 p d, .r16 p d⟩
  | pop32 p d => exact ⟨_, d, .rm32 p d, .r32 p d⟩
  | pop64 p d => exact ⟨_, d, .rm64 p d, .r64 p d⟩

theorem prefixes_eq (h : SecondEncoding i j) : i.prefixes = j.prefixes := by
  cases h <;> rfl

theorem wf_eq (h : SecondEncoding i j) (c : CodeContext) : i.wf c = j.wf c := by
  cases h <;> rfl

theorem length_eq (h : SecondEncoding i j) : i.length = j.length + 1 := by
  cases h <;> rfl

theorem starts_iff (h : SecondEncoding i j) (s : State) : s.Starts i ↔ s.Starts j := by
  obtain ⟨n, d, hi, hj⟩ := h.popsRegister
  simp only [State.Starts, h.wf_eq, h.prefixes_eq]
  refine and_congr_right fun _ => and_congr_right fun _ => ?_
  exact ⟨fun _ _ _ hk => absurd hk (hj.not_popsSegment _), fun _ _ _ hk => absurd hk (hi.not_popsSegment _)⟩

end SecondEncoding

namespace State

theorem nextPcFits_of_succ {s : State} {len : Nat} (h : s.nextPcFits (len + 1) = true) : s.nextPcFits len = true := by
  unfold nextPcFits at h ⊢
  split at h
  · simp only [decide_eq_true_eq] at h
    simp only [*, if_true, decide_eq_true_eq]
    omega
  · simp only [Bool.and_eq_true, decide_eq_true_eq] at h
    simp only [*, if_false, Bool.and_eq_true, decide_eq_true_eq]
    omega

/-- Completing an instruction longer by one byte leaves pc one higher and all else alike. -/
theorem completed_succ (s : State) (len : Nat) (a b : Bool) :
    s.completed (len + 1) a b = { s.completed len a b with pc := (s.completed len a b).pc + 1 } := by
  have hpc : s.pc + BitVec.ofNat 64 (len + 1) = s.pc + BitVec.ofNat 64 len + 1 := by
    rw [BitVec.ofNat_add, ← BitVec.add_assoc]
    rfl
  unfold completed
  rw [hpc]

theorem seenAlike_refl (s t : State) : s.SeenAlike t t := by
  unfold SeenAlike
  split
  · rfl
  · exact ⟨rfl, fun _ _ => rfl⟩

end State

theorem SecondEncoding.registerPopped_eq {i j : Instr} (h : SecondEncoding i j) (s : State) (n : Size) (d : GprNum)
    (v : Word) : registerPopped s i n d v = { registerPopped s j n d v with pc := (registerPopped s j n d v).pc + 1 } := by
  rw [registerPopped, h.length_eq, State.completed_succ]
  rfl

theorem popToReg_fault_iff {i : Instr} {n : Size} {d : GprNum} {s : State} {f : Fault} :
    popToReg i n d s = .error (.fault f) ↔ s.stackRead n.bytes = .error (.fault f) := by
  rw [popToReg, bind_error]
  refine ⟨fun h => h.resolve_right fun ⟨v, _, h⟩ => ?_, .inl⟩
  obtain ⟨-, h⟩ := State.complete_error.1 h
  cases h

/-- The two encodings raise the same faults: a completion raises none, so the length plays no part. -/
theorem SecondEncoding.fault_iff {i j : Instr} (h : SecondEncoding i j) (s : State) (f : Fault) :
    exec i s = .fault f ↔ exec j s = .fault f := by
  obtain ⟨n, d, hi, hj⟩ := h.popsRegister
  rw [exec_fault, exec_fault, h.wf_eq, h.prefixes_eq, hi.body_eq, hj.body_eq, popToReg_fault_iff, popToReg_fault_iff]

/-- Settles O32: the two complete with one state, but for pc, and their faults are those of the stack read or of LOCK. -/
theorem twoEncodingsOneMeaning : Obligations.TwoEncodingsOneMeaning := by
  intro i j s h
  obtain ⟨n, d, hi, hj⟩ := h.popsRegister
  refine ⟨fun t ht => ?_, fun u hu hfits => ?_, exists_congr fun f => h.fault_iff s f, fun _ f => h.fault_iff s f⟩
  · obtain ⟨⟨hs, hfits⟩, v, hv, rfl⟩ := (exec_popsRegister_next hi).1 ht
    rw [h.length_eq] at hfits
    refine ⟨_, (exec_popsRegister_next hj).2
      ⟨⟨(h.starts_iff s).1 hs, State.nextPcFits_of_succ hfits⟩, v, hv, rfl⟩, ?_⟩
    have hpc : (registerPopped s j n d v).pc + 1 - 1 = (registerPopped s j n d v).pc := BitVec.add_sub_cancel _ _
    rw [h.registerPopped_eq]
    dsimp only
    rw [hpc]
    exact State.seenAlike_refl s _
  · obtain ⟨⟨hs, -⟩, v, hv, rfl⟩ := (exec_popsRegister_next hj).1 hu
    refine ⟨_, (exec_popsRegister_next hi).2 ⟨⟨(h.starts_iff s).2 hs, hfits⟩, v, hv, rfl⟩, ?_⟩
    rw [h.registerPopped_eq]
    exact State.seenAlike_refl s _

end Sys2Proof.Machine
end

section
/-! PROOFS about POP into memory (40_pop_gpr_mem.md): the state it completes with, and the bytes it stores. -/

namespace Sys2Proof.Machine

/-- What `popToMem` leaves: the stack pointer incremented, the value stored, and the instruction completed. -/
def memoryPopped (s : State) (i : Instr) (n : Size) (as : List Nat) (v : Word) : State :=
  ((s.incremented n).storeAll as v).completed i.length false false

theorem exec_popsMemory_next {i : Instr} {n : Size} {m : MemOperand} {s t : State} (hi : PopsMemory i n m) :
    exec i s = .next t ↔
      s.Ready i ∧ ∃ v as, s.stackRead n.bytes = .ok v ∧ s.destAddrs i.prefixes n m i.length = .ok as ∧
        (∀ a ∈ as, s.inPhysMem a = true) ∧ t = memoryPopped s i n as v := by
  constructor
  · intro h
    have hs := starts_of_exec_next h
    rw [exec_popsMemory hi hs, toOutcome_next, popToMem_ok] at h
    obtain ⟨v, as, hv, has, hp, hpc, ht⟩ := h
    exact ⟨⟨hs, hpc⟩, v, as, hv, has, hp, ht⟩
  · rintro ⟨⟨hs, hpc⟩, v, as, hv, has, hp, ht⟩
    rw [exec_popsMemory hi hs, toOutcome_next, popToMem_ok]
    exact ⟨v, as, hv, has, hp, hpc, ht⟩

theorem length_destAddrs {s : State} {p : Prefixes} {n : Size} {m : MemOperand} {len : Nat} {as : List Nat}
    (h : s.destAddrs p n m len = .ok as) : as.length = n.bytes := by
  obtain ⟨off, -, h⟩ := bind_ok.1 h
  obtain ⟨-, -, ht⟩ := State.accessAddrs_ok.1 h
  rw [State.translateAll_length ht, State.length_linears]

theorem destAddrs_of_reaches {s : State} {p : Prefixes} {n : Size} {m : MemOperand} {len : Nat} {off : Word}
    {as : List Nat} (ho : s.destOffset p n m len = .ok off) (h : s.Reaches .write (segmentOf s.mode p m) off n.bytes as) :
    s.destAddrs p n m len = .ok as := by
  obtain ⟨ht, ha, hp, -⟩ := h
  rw [State.destAddrs_of_destOffset ho, State.accessAddrs_ok]
  exact ⟨ht, ha, State.translateAll_ok.2 hp⟩

section MemoryPopped

variable {s : State} {i : Instr} {n : Size} {as : List Nat} {v : Word}

theorem mem_memoryPopped : (memoryPopped s i n as v).mem = ((s.incremented n).storeAll as v).mem := rfl

theorem mem_incremented (s : State) (n : Size) : (s.incremented n).mem = s.mem := by
  simp [State.incremented, State.writeSp]

theorem memoryPopped_eq : memoryPopped s i n as v =
    { s.retired i.length false false with
      regs := (memoryPopped s i n as v).regs
      mem := (memoryPopped s i n as v).mem
      written := (memoryPopped s i n as v).written } := by
  obtain ⟨g, hg⟩ := State.writeReg_eq s s.stackAddrSize 4 (s.spAfter n)
  have hinc : s.incremented n = s.setGpr 4 g := hg
  rw [memoryPopped, hinc, State.storeAll_eq]
  rfl

theorem gpr_memoryPopped {j : GprNum} (hj : s.Shows j) :
    (memoryPopped s i n as v).gpr j = (s.incremented n).gpr j := by
  have hmode : ((s.incremented n).storeAll as v).mode = s.mode := by
    rw [State.storeAll_eq]; simp [State.incremented, State.writeSp]
  rw [memoryPopped, State.gpr_completed _ _ _ _ (by rw [hmode]; exact hj), State.gpr, State.storeAll_regs]
  rfl

theorem spMoved_memoryPopped : s.SpMoved (memoryPopped s i n as v) n.bytes :=
  State.spMoved_of_gpr (gpr_memoryPopped (shows_four s))

theorem kept_memoryPopped {j : GprNum} (h4 : j ≠ 4) : s.Kept (memoryPopped s i n as v) j :=
  State.kept_of_gpr fun hj => (gpr_memoryPopped hj).trans (s.gpr_incremented_ne n h4)

theorem read_memoryPopped {a : Nat} (ha : a ∉ as) : (memoryPopped s i n as v).mem.read a = s.mem.read a := by
  rw [mem_memoryPopped, State.storeAll_read _ _ ha, mem_incremented]

/-- At distinct addresses the bytes stored are those of the value. -/
theorem leValue_memoryPopped (hm : s.mem.wf = true) (hn : as.Nodup) (hlen : as.length = n.bytes)
    (hv : v.toNat < 2 ^ (8 * n.bytes)) : leValue (as.map (memoryPopped s i n as v).mem.read) = v := by
  have h8 : (as.map (memoryPopped s i n as v).mem.read).length ≤ 8 := by
    rw [List.length_map, hlen]; cases n <;> decide
  apply BitVec.eq_of_toNat_eq
  rw [toNat_leValue _ h8, mem_memoryPopped, littleEndian_storeAll v (by rw [mem_incremented]; exact hm) hn, hlen,
    Nat.mod_eq_of_lt hv]

end MemoryPopped

theorem bytes_le_eight (n : Size) : n.bytes ≤ 8 := by
  cases n <;> decide

/-- Settles O33: the value popped is stored at the translated addresses, and of the registers the stack pointer moves. -/
theorem popMemoryCompletes : Obligations.PopMemoryCompletes := by
  intro s i n m v off as hi hr hv ho has
  have hd := destAddrs_of_reaches ho has
  obtain ⟨-, -, -, hp⟩ := has
  refine ⟨memoryPopped s i n as v, (exec_popsMemory_next hi).2 ⟨hr, v, as, State.stackRead_of_popped hv, hd, hp, rfl⟩,
    memoryPopped_eq, spMoved_memoryPopped, fun j h4 => kept_memoryPopped h4, fun hm hn => ?_, fun a ha => read_memoryPopped ha⟩
  exact leValue_memoryPopped hm hn (length_destAddrs hd) (State.popped_lt hv (bytes_le_eight n))

/-- Settles O35: the completed state differs from the one before in registers, pc, memory, the inhibition and the draws only,
and in memory at the destination's addresses only. -/
theorem frameOfMemoryForms : Obligations.FrameOfMemoryForms := by
  intro s t i n m hi h
  obtain ⟨-, v, as, -, hd, -, rfl⟩ := (exec_popsMemory_next hi).1 h
  refine ⟨?_, fun as' hd' => ?_, fun j h4 => kept_memoryPopped h4⟩
  · rw [memoryPopped_eq]; rfl
  · rw [hd] at hd'; cases hd'
    exact ⟨length_destAddrs hd, fun a ha => read_memoryPopped ha⟩

end Sys2Proof.Machine
end

section
/-! PROOFS about selectors and descriptors (R216, R217): their fields by arithmetic on their bits, and where the table's bytes
are. -/

namespace Sys2Proof.Machine

theorem bitIsSet_toNat {w : Nat} (x : BitVec w) (k : Nat) : bitIsSet x.toNat k ↔ x.getLsbD k = true := by
  rw [bitIsSet, BitVec.getLsbD, Nat.testBit_eq_decide_div_mod_eq, decide_eq_true_eq]

/-! ### Selectors -/

theorem toNat_selRpl (sel : BitVec 16) : (selRpl sel).toNat = sel.toNat % 4 := by
  simp [selRpl, BitVec.extractLsb'_toNat]

theorem toNat_selIndex (sel : BitVec 16) : selIndex sel = sel.toNat / 8 := by
  have := sel.isLt
  simp only [selIndex, BitVec.extractLsb'_toNat, Nat.shiftRight_eq_div_pow]
  omega

theorem isNull_iff (sel : BitVec 16) : isNull sel = true ↔ sel.toNat < 4 := by
  have := sel.isLt
  rw [isNull, beq_iff_eq, ← BitVec.toNat_inj, BitVec.extractLsb'_toNat, Nat.shiftRight_eq_div_pow]
  show sel.toNat / 2 ^ 2 % 2 ^ 14 = 0 ↔ sel.toNat < 4
  omega

theorem isNull_of_gt {sel : BitVec 16} (h : 3 < sel.toNat) : isNull sel = false := by
  rw [← Bool.not_eq_true, isNull_iff]
  omega

theorem isNull_of_le {sel : BitVec 16} (h : sel.toNat ≤ 3) : isNull sel = true :=
  (isNull_iff sel).2 (by omega)

/-- Clearing the RPL bits is dropping them and shifting back. -/
theorem and_FFFC (sel : BitVec 16) : sel &&& 0xFFFC#16 = (sel >>> 2) <<< 2 := by
  apply BitVec.eq_of_getLsbD_eq
  intro i hi
  interval_cases i <;> simp

theorem toNat_selectorCode (sel : BitVec 16) : (selectorCode sel).toNat = sel.toNat / 4 * 4 := by
  have := sel.isLt
  rw [selectorCode, and_FFFC]
  simp only [BitVec.toNat_setWidth, BitVec.toNat_shiftLeft, BitVec.toNat_ushiftRight, Nat.shiftLeft_eq,
    Nat.shiftRight_eq_div_pow]
  omega

/-! ### Descriptors -/

namespace Descriptor

variable (d : Descriptor)

theorem kind_eq_kindOf : d.kind = State.kindOf d.raw := by
  unfold kind State.kindOf
  cases d.raw.getLsbD 44 <;> cases d.raw.getLsbD 43 <;> rfl

theorem kind_eq_system_iff : d.kind = .system ↔ d.raw.getLsbD 44 = false := by
  unfold kind
  cases d.raw.getLsbD 44 <;> cases d.raw.getLsbD 43 <;> simp

theorem kind_eq_data_iff (w e : Bool) : d.kind = .data w e ↔
    d.raw.getLsbD 44 = true ∧ d.raw.getLsbD 43 = false ∧ d.raw.getLsbD 41 = w ∧ d.raw.getLsbD 42 = e := by
  unfold kind
  cases d.raw.getLsbD 44 <;> cases d.raw.getLsbD 43 <;> simp

theorem kind_eq_code_iff (r c : Bool) : d.kind = .code r c ↔
    d.raw.getLsbD 44 = true ∧ d.raw.getLsbD 43 = true ∧ d.raw.getLsbD 41 = r ∧ d.raw.getLsbD 42 = c := by
  unfold kind
  cases d.raw.getLsbD 44 <;> cases d.raw.getLsbD 43 <;> simp

theorem toNat_dpl : d.dpl.toNat = d.raw.toNat / 2 ^ 45 % 4 := by
  simp only [dpl, BitVec.extractLsb'_toNat, Nat.shiftRight_eq_div_pow]

theorem toNat_limit : d.limit.toNat =
    if d.raw.getLsbD 55 then
      (d.raw.extractLsb' 48 4 ++ d.raw.extractLsb' 0 16).toNat * 4096 + 4095
    else (d.raw.extractLsb' 48 4 ++ d.raw.extractLsb' 0 16).toNat := by
  have hlt := d.limit20.isLt
  unfold limit
  split
  · show (d.limit20 ++ 0xFFF#12).toNat = d.limit20.toNat * 4096 + 4095
    rw [BitVec.toNat_append, ← Nat.shiftLeft_add_eq_or_of_lt (BitVec.isLt _), Nat.shiftLeft_eq]
    rfl
  · show (d.limit20.setWidth 32).toNat = d.limit20.toNat
    rw [BitVec.toNat_setWidth]
    omega

end Descriptor

theorem eq_iff_flag {x y : Bool} : x = y ↔ (y = true ↔ x = true) := by
  cases x <;> cases y <;> simp

/-- Settles O37: each field is a bit or a run of bits, read off by dividing. -/
theorem selectorAndDescriptorFields : Obligations.SelectorAndDescriptorFields := by
  refine ⟨fun sel => ⟨toNat_selRpl sel, isNull_iff sel, toNat_selectorCode sel⟩, fun d => ?_⟩
  simp only [bitIsSet_toNat, Bool.not_eq_true]
  refine ⟨d.kind_eq_system_iff, fun w e => ?_, fun r c => ?_, Iff.rfl, Iff.rfl, d.toNat_dpl⟩
  · rw [d.kind_eq_data_iff]
    exact and_congr_right fun _ => and_congr_right fun _ => and_congr eq_iff_flag eq_iff_flag
  · rw [d.kind_eq_code_iff]
    exact and_congr_right fun _ => and_congr_right fun _ => and_congr eq_iff_flag eq_iff_flag

/-! ### The lookup -/

namespace State

theorem outsideTable_iff (s : State) (sel : BitVec 16) : s.outsideTable sel = true ↔
    (selLocal sel = true ∧ s.ldtr.usable = false) ∨ s.tableLimit sel < sel.toNat / 8 * 8 + 7 := by
  simp [outsideTable, toNat_selIndex]

theorem toNat_descriptorByte (s : State) (sel : BitVec 16) (k : Nat) :
    (s.descriptorByte sel k).toNat =
      ((s.tableBase sel).toNat + sel.toNat / 8 * 8 + k) % (if s.mode = .long64 then 2 ^ 64 else 2 ^ 32) := by
  rw [descriptorByte, toNat_truncLinear, toNat_selIndex]
  simp only [BitVec.toNat_add, BitVec.toNat_ofNat]
  split <;> omega

end State

/-- Settles O38: bit 2 of the selector decides between the two tables, which are looked up alike. -/
theorem descriptorLookup : Obligations.DescriptorLookup := by
  intro s sel
  refine ⟨fun h => ?_, fun h => ?_⟩
  · rw [bitIsSet_toNat, Bool.not_eq_true] at h
    have hl : selLocal sel = false := h
    refine ⟨?_, fun k _ => ?_⟩
    · rw [State.outsideTable_iff, State.tableLimit, hl]
      simp
    · rw [State.toNat_descriptorByte, State.tableBase, hl]
      rfl
  · have hl : selLocal sel = true := (bitIsSet_toNat sel 2).1 h
    refine ⟨?_, fun k _ => ?_⟩
    · rw [State.outsideTable_iff, State.tableLimit, hl]
      simp
    · rw [State.toNat_descriptorByte, State.tableBase, hl]
      rfl

end Sys2Proof.Machine
end

section
/-! PROOFS about POP into a segment register (41_pop_segreg.md): the load by mode and by its checks, and the state the
instruction completes with. -/

namespace Sys2Proof.Machine

namespace State

/-! ### The load by mode (R215) -/

theorem loadSeg_of_real {s : State} (hm : s.mode = .real ∨ s.mode = .v8086) (sg : SegName) (sel : BitVec 16) :
    s.loadSeg sg sel = .ok (s.loadReal sg sel) := by
  rcases hm with hm | hm <;> simp only [loadSeg, hm]

theorem loadSeg_of_null {s : State} {sg : SegName} {sel : BitVec 16} (hl : s.LoadsData sg) (hn : isNull sel = true) :
    s.loadSeg sg sel = .ok (s.loadNull sg sel) := by
  obtain ⟨hss, -, hr, hv⟩ := hl
  unfold loadSeg
  cases hm : s.mode with
  | real => exact absurd hm hr
  | v8086 => exact absurd hm hv
  | protected_ | compat => simp only [if_neg hss, hn, if_true]
  | long64 => simp only [hn, if_true]

theorem loadSeg_of_data {s : State} {sg : SegName} {sel : BitVec 16} (hl : s.LoadsData sg) (hn : isNull sel = false) :
    s.loadSeg sg sel = s.loadDataSegment sg sel := by
  obtain ⟨hss, -, hr, hv⟩ := hl
  unfold loadSeg
  cases hm : s.mode with
  | real => exact absurd hm hr
  | v8086 => exact absurd hm hv
  | protected_ | compat => simp only [if_neg hss, hn, Bool.false_eq_true, if_false]
  | long64 => simp only [hn, Bool.false_eq_true, if_false]

theorem loadSeg_of_stack {s : State} (hp : s.ProtectedOrCompat) (sel : BitVec 16) :
    s.loadSeg .ss sel = s.loadStackSegment sel := by
  rcases hp with hm | hm <;> simp only [loadSeg, hm, if_true]

/-- A load that completes reads no descriptor and writes no memory, or loads the descriptor it read and marks it. -/
theorem loadSeg_ok_cases {s u : State} {sg : SegName} {sel : BitVec 16} (h : s.loadSeg sg sel = .ok u) :
    (((s.mode = .real ∨ s.mode = .v8086) ∨ isNull sel = true) ∧ ∃ hid, u = s.setSreg sg ⟨sel, hid⟩) ∨
      (s.usesTables ∧ isNull sel = false ∧ ∃ d w, s.readDescriptor sel = .ok d ∧ s.markAccessed sel d = .ok w ∧
        u = w.setSreg sg ⟨sel, d.hidden⟩) := by
  by_cases hreal : s.mode = .real ∨ s.mode = .v8086
  · rw [loadSeg_of_real hreal] at h
    cases h
    exact .inl ⟨.inl hreal, _, rfl⟩
  · have htables : s.usesTables := not_or.1 hreal
    have loaded {d : Descriptor} (hn : isNull sel = false) (hd : s.readDescriptor sel = .ok d)
        (hl : s.loadFrom sg sel d = .ok u) : s.usesTables ∧ isNull sel = false ∧
          ∃ d w, s.readDescriptor sel = .ok d ∧ s.markAccessed sel d = .ok w ∧ u = w.setSreg sg ⟨sel, d.hidden⟩ := by
      obtain ⟨w, hw, hu⟩ := loadFrom_ok.1 hl
      exact ⟨htables, hn, d, w, hd, hw, hu⟩
    have data (hn : isNull sel = false) (h : s.loadDataSegment sg sel = .ok u) :=
      let ⟨_, _, hd, _, _, _, hl⟩ := loadDataSegment_ok.1 h
      loaded hn hd hl
    have null (h : Except.ok (s.loadNull sg sel) = (.ok u : Exec State)) : ∃ hid, u = s.setSreg sg ⟨sel, hid⟩ :=
      ⟨_, (Except.ok.inj h).symm⟩
    obtain hp | hm : s.ProtectedOrCompat ∨ s.mode = .long64 := by
      unfold ProtectedOrCompat
      cases hm : s.mode <;> simp [hm] at hreal ⊢
    · by_cases hsg : sg = .ss
      · subst hsg
        rw [loadSeg_of_stack hp] at h
        obtain ⟨hn, -, d, hd, -, -, -, -, hl⟩ := loadStackSegment_ok.1 h
        exact .inr (loaded hn hd hl)
      · have hprot : s.loadSeg sg sel =
            if isNull sel then .ok (s.loadNull sg sel) else s.loadDataSegment sg sel := by
          rcases hp with hm | hm <;> simp only [loadSeg, hm, if_neg hsg]
        rw [hprot] at h
        split at h
        · next hn => exact .inl ⟨.inr hn, null h⟩
        · next hn => exact .inr (data (Bool.eq_false_iff.2 hn) h)
    · simp only [loadSeg, hm] at h
      split at h
      · next hn => exact .inl ⟨.inr hn, null h⟩
      · next hn => exact .inr (data (Bool.eq_false_iff.2 hn) h)

/-! ### The descriptor a load reads (R217) -/

theorem readDescriptor_of_descriptorAt {s : State} {sel : BitVec 16} {d : Descriptor} (h : s.DescriptorAt sel d) :
    s.outsideTable sel = false ∧ s.readDescriptor sel = .ok d := by
  obtain ⟨ho, as, htr, hp, hd⟩ := h
  exact ⟨ho, readDescriptor_ok.2 ⟨as, translateAll_ok.2 htr, hp, by rw [← hd]⟩⟩

theorem markAccessed_of_canMark {s : State} {sel : BitVec 16} {d : Descriptor} (h : s.CanMark sel d) :
    ∃ w, s.markAccessed sel d = .ok w := by
  cases hd : d.accessed with
  | true => exact ⟨s, markAccessed_ok.2 (.inl ⟨hd, rfl⟩)⟩
  | false =>
    obtain h | ⟨a, ha, hp⟩ := h
    · rw [show d.accessed = true from h] at hd; cases hd
    · exact ⟨_, markAccessed_ok.2 (.inr ⟨hd, a, ha, hp, rfl⟩)⟩

/-- The accessed bit is set in memory, and nothing else there changes (R224, log 19). -/
theorem marked_of_markAccessed {s w t : State} {sel : BitVec 16} {d : Descriptor} (h : s.markAccessed sel d = .ok w)
    (hmem : t.mem = w.mem) (hwritten : t.written = w.written) : s.Marked t sel d := by
  unfold Marked SameMemory
  rw [hmem, hwritten]
  obtain ⟨hd, rfl⟩ | ⟨hd, a, ha, -, rfl⟩ := markAccessed_ok.1 h
  · refine ⟨fun _ => ⟨rfl, rfl⟩, fun hd' => ?_⟩
    rw [show d.raw.getLsbD 40 = true from hd] at hd'; cases hd'
  · refine ⟨fun hd' => ?_, fun _ b hb => ?_⟩
    · rw [show d.raw.getLsbD 40 = false from hd] at hd'; cases hd'
    · rw [ha] at hb; cases hb
      exact ⟨fun hm => Memory.read_write_self a _ hm, fun b hb => Memory.read_write_ne _ hb _⟩

theorem loadedFrom_hidden (sel : BitVec 16) (d : Descriptor) : LoadedFrom ⟨sel, d.hidden⟩ sel d :=
  ⟨rfl, rfl, d.toNat_limit, d.kind_eq_kindOf, rfl, rfl, rfl, rfl, rfl⟩

/-! ### The privilege test (R219, D40, log 8) -/

theorem privileged_of_ne {k : SegKind} (hr : SegKind.dataOrReadable k = true) (hc : k ≠ .code true true) :
    SegKind.privileged k = true := by
  cases k with
  | data w e => rfl
  | code r c =>
    cases c with
    | false => rfl
    | true => exact absurd (by rw [show r = true from hr]) hc
  | system => cases hr

theorem privDenied_of_privileged {s : State} {sel : BitVec 16} {d : Descriptor} (hr : SegKind.dataOrReadable d.kind = true)
    (hc : d.kind ≠ .code true true) : s.privDenied sel d = s.privViolation sel d := by
  rw [privDenied, if_pos (privileged_of_ne hr hc)]

theorem privViolation_of_bothAbove {s : State} {sel : BitVec 16} {d : Descriptor} (h : s.BothAbove sel d) :
    s.privViolation sel d = .ok true := by
  simp [privViolation, h.1, h.2]

theorem privViolation_of_noneAbove {s : State} {sel : BitVec 16} {d : Descriptor} (h : s.NoneAbove sel d) :
    s.privViolation sel d = .ok false := by
  simp [privViolation, Nat.not_lt.2 h.1, Nat.not_lt.2 h.2]

theorem oneAbove_flags {s : State} {sel : BitVec 16} {d : Descriptor} (h : s.OneAbove sel d) :
    (decide (d.dpl.toNat < (selRpl sel).toNat) && decide (d.dpl.toNat < s.cpl.toNat)) = false ∧
      (decide (d.dpl.toNat < (selRpl sel).toNat) || decide (d.dpl.toNat < s.cpl.toNat)) = true := by
  obtain ⟨hboth, hnone⟩ := h
  unfold BothAbove at hboth
  unfold NoneAbove at hnone
  by_cases hr : d.dpl.toNat < (selRpl sel).toNat <;> by_cases hc : d.dpl.toNat < s.cpl.toNat
  · exact absurd ⟨hr, hc⟩ hboth
  · simp [hr, hc]
  · simp [hr, hc]
  · exact absurd ⟨Nat.not_lt.1 hr, Nat.not_lt.1 hc⟩ hnone

section OneAbove

variable {s : State} {sel : BitVec 16} {d : Descriptor} (h : s.OneAbove sel d)
include h

/-! With exactly one of RPL and CPL above DPL the parameter decides. -/

theorem privViolation_of_either (hp : s.params.dataSegPriv = .either) : s.privViolation sel d = .ok true := by
  simp only [privViolation, oneAbove_flags h, Bool.false_eq_true, if_false, if_true, hp]

theorem privViolation_of_both (hp : s.params.dataSegPriv = .both) : s.privViolation sel d = .ok false := by
  simp only [privViolation, oneAbove_flags h, Bool.false_eq_true, if_false, if_true, hp]

theorem privViolation_of_refuse (hp : s.params.dataSegPriv = .refuse) : s.privViolation sel d = refuse .dataSegPriv := by
  simp only [privViolation, oneAbove_flags h, Bool.false_eq_true, if_false, if_true, hp]

theorem privViolation_of_anyReading (hp : s.params.dataSegPriv = .anyReading) :
    s.privViolation sel d = .ok (Config.freePrivilege s.draws) := by
  simp only [privViolation, oneAbove_flags h, Bool.false_eq_true, if_false, if_true, hp]

end OneAbove

theorem privDenied_of_privilegeHolds {s : State} {sel : BitVec 16} {d : Descriptor} (h : s.PrivilegeHolds sel d) :
    s.privDenied sel d = .ok false := by
  unfold privDenied
  split
  · next hp =>
    obtain hk | hn | ⟨ho, hb⟩ := h
    · rw [hk] at hp; cases hp
    · exact privViolation_of_noneAbove hn
    · exact privViolation_of_both ho hb
  · rfl

/-! ### The load of a data segment and of SS, check by check (R218, R219) -/

section Checks

variable {s : State} {sg : SegName} {sel : BitVec 16} {d : Descriptor}

theorem loadDataSegment_of_outside (ho : s.outsideTable sel = true) :
    s.loadDataSegment sg sel = raise s (.gp (some (selectorCode sel))) := by
  rw [loadDataSegment, if_pos ho]

theorem loadDataSegment_of_readDescriptor_error {e : Stop} (ho : s.outsideTable sel = false)
    (h : s.readDescriptor sel = .error e) : s.loadDataSegment sg sel = .error e := by
  rw [loadDataSegment, if_neg (by simp [ho]), h, error_bind]

theorem loadDataSegment_of_kind (h : s.DescriptorAt sel d) (hk : SegKind.dataOrReadable d.kind = false) :
    s.loadDataSegment sg sel = raise s (.gp (some (selectorCode sel))) := by
  obtain ⟨ho, hd⟩ := readDescriptor_of_descriptorAt h
  rw [loadDataSegment, if_neg (by simp [ho]), hd, ok_bind, if_pos hk]

/-- After the checks of the table and of the kind the privilege test speaks. -/
theorem loadDataSegment_of_privDenied (h : s.DescriptorAt sel d) (hk : SegKind.dataOrReadable d.kind = true) :
    s.loadDataSegment sg sel = s.privDenied sel d >>= fun denied =>
      if denied = true then raise s (.gp (some (selectorCode sel)))
      else if d.present = false then raise s (.np (selectorCode sel))
      else s.loadFrom sg sel d := by
  obtain ⟨ho, hd⟩ := readDescriptor_of_descriptorAt h
  rw [loadDataSegment, if_neg (by simp [ho]), hd, ok_bind, if_neg (by simp [hk])]

theorem loadDataSegment_of_denied (h : s.DescriptorAt sel d) (hk : SegKind.dataOrReadable d.kind = true)
    (hp : s.privDenied sel d = .ok true) : s.loadDataSegment sg sel = raise s (.gp (some (selectorCode sel))) := by
  rw [loadDataSegment_of_privDenied h hk, hp, ok_bind, if_pos rfl]

theorem loadDataSegment_of_refused (h : s.DescriptorAt sel d) (hk : SegKind.dataOrReadable d.kind = true)
    (hp : s.privDenied sel d = refuse .dataSegPriv) : s.loadDataSegment sg sel = refuse .dataSegPriv := by
  rw [loadDataSegment_of_privDenied h hk, hp]
  rfl

theorem loadDataSegment_of_not_present (h : s.DescriptorAt sel d) (hk : SegKind.dataOrReadable d.kind = true)
    (hp : s.privDenied sel d = .ok false) (hd : d.present = false) :
    s.loadDataSegment sg sel = raise s (.np (selectorCode sel)) := by
  rw [loadDataSegment_of_privDenied h hk, hp, ok_bind, if_neg (by decide), if_pos hd]

theorem loadDataSegment_of_present (h : s.DescriptorAt sel d) (hk : SegKind.dataOrReadable d.kind = true)
    (hp : s.privDenied sel d = .ok false) (hd : d.present = true) : s.loadDataSegment sg sel = s.loadFrom sg sel d := by
  rw [loadDataSegment_of_privDenied h hk, hp, ok_bind, if_neg (by decide), if_neg (by simp [hd])]

theorem writableData_iff (k : SegKind) : SegKind.writableData k = true ↔ ∃ e, k = .data true e := by
  cases k <;> simp [SegKind.writableData]

theorem loadStackSegment_of_null (hn : isNull sel = true) : s.loadStackSegment sel = raise s (.gp (some 0)) := by
  rw [loadStackSegment, if_pos hn]

theorem loadStackSegment_of_outside (hn : isNull sel = false) (ho : s.outsideTable sel = true) :
    s.loadStackSegment sel = raise s (.gp (some (selectorCode sel))) := by
  rw [loadStackSegment, if_neg (by simp [hn]), if_pos ho]

theorem loadStackSegment_of_readDescriptor_error {e : Stop} (hn : isNull sel = false) (ho : s.outsideTable sel = false)
    (h : s.readDescriptor sel = .error e) : s.loadStackSegment sel = .error e := by
  rw [loadStackSegment, if_neg (by simp [hn]), if_neg (by simp [ho]), h, error_bind]

theorem loadStackSegment_of_mismatch (hn : isNull sel = false) (h : s.DescriptorAt sel d)
    (hc : selRpl sel ≠ s.cpl ∨ d.dpl ≠ s.cpl ∨ ∀ e, d.kind ≠ .data true e) :
    s.loadStackSegment sel = raise s (.gp (some (selectorCode sel))) := by
  obtain ⟨ho, hd⟩ := readDescriptor_of_descriptorAt h
  have hcheck : selRpl sel ≠ s.cpl ∨ SegKind.writableData d.kind = false ∨ d.dpl ≠ s.cpl := by
    obtain hr | hdpl | hk := hc
    · exact .inl hr
    · exact .inr (.inr hdpl)
    · exact .inr (.inl (Bool.eq_false_iff.2 fun hw => let ⟨e, he⟩ := (writableData_iff _).1 hw; hk e he))
  rw [loadStackSegment, if_neg (by simp [hn]), if_neg (by simp [ho]), hd, ok_bind, if_pos hcheck]

/-- A writable data segment at CPL is loaded if it is present. -/
theorem loadStackSegment_of_match (hn : isNull sel = false) (h : s.DescriptorAt sel d) (hr : selRpl sel = s.cpl)
    (hdpl : d.dpl = s.cpl) (hk : ∃ e, d.kind = .data true e) :
    s.loadStackSegment sel =
      if d.present = false then raise s (.ss (some (selectorCode sel))) else s.loadFrom .ss sel d := by
  obtain ⟨ho, hd⟩ := readDescriptor_of_descriptorAt h
  have hw := (writableData_iff d.kind).2 hk
  rw [loadStackSegment, if_neg (by simp [hn]), if_neg (by simp [ho]), hd, ok_bind, if_neg (by simp [hr, hdpl, hw])]

/-- The table is looked up and the descriptor read before any check of it. -/
theorem loadSeg_of_readDescriptor_error {e : Stop} (hl : s.LoadsDescriptor sg) (hn : isNull sel = false)
    (ho : s.outsideTable sel = false) (h : s.readDescriptor sel = .error e) : s.loadSeg sg sel = .error e := by
  obtain hl | ⟨rfl, hp⟩ := hl
  · rw [loadSeg_of_data hl hn, loadDataSegment_of_readDescriptor_error ho h]
  · rw [loadSeg_of_stack hp, loadStackSegment_of_readDescriptor_error hn ho h]

/-- A descriptor that passes every check is loaded. -/
theorem loadSeg_of_loadable (hl : s.LoadsDescriptor sg) (hn : isNull sel = false) (h : s.DescriptorAt sel d)
    (hd : s.Loadable sg sel d) : s.loadSeg sg sel = s.loadFrom sg sel d := by
  obtain ⟨hpresent, hd⟩ := hd
  obtain hl | ⟨rfl, hp⟩ := hl
  · rw [if_neg hl.1] at hd
    rw [loadSeg_of_data hl hn, loadDataSegment_of_present h hd.1 (privDenied_of_privilegeHolds hd.2) hpresent]
  · rw [if_pos rfl] at hd
    obtain ⟨hr, hdpl, hk⟩ := hd
    rw [loadSeg_of_stack hp, loadStackSegment_of_match hn h hr hdpl hk, if_neg (by simp [hpresent])]

end Checks

end State

end Sys2Proof.Machine
end

section
/-! PROOFS about POP into a segment register (41_pop_segreg.md): when it completes and with what state, and what stops it. -/

namespace Sys2Proof.Machine

/-! ### The state a POP into a segment register completes with -/

/-- What `popToSeg` leaves of the state `u` the load ended in: the stack pointer incremented as before the load, and the
instruction completed. -/
def segmentPopped (s u : State) (i : Instr) (sg : SegName) : State :=
  (u.writeSp s.stackAddrSize (s.spAfter (s.ctx.operandSize i.prefixes))).completed i.length
    (sg == .ss && s.inhibitAfterPopSs) (sg == .ss)

theorem exec_popsSegment_next {i : Instr} {sg : SegName} {s t : State} (hi : PopsSegment i sg) :
    exec i s = .next t ↔
      s.Ready i ∧ ∃ raw u, s.stackRead (s.stackBytes i) = .ok raw ∧ s.loadSeg sg (raw.setWidth 16) = .ok u ∧
        t = segmentPopped s u i sg := by
  rw [hi.stackBytes]
  constructor
  · intro h
    have hs := starts_of_exec_next h
    rw [exec_popsSegment hi hs, toOutcome_next, popToSeg_ok hi.ne_cs] at h
    obtain ⟨raw, u, hr, hu, hpc, ht⟩ := h
    exact ⟨⟨hs, hpc⟩, raw, u, hr, hu, ht⟩
  · rintro ⟨⟨hs, hpc⟩, raw, u, hr, hu, ht⟩
    rw [exec_popsSegment hi hs, toOutcome_next, popToSeg_ok hi.ne_cs]
    exact ⟨raw, u, hr, hu, hpc, ht⟩

/-- What a register write leaves does not depend on more than the registers, the mode and the count of draws. -/
theorem regs_writeReg_congr {s u : State} (hr : u.regs = s.regs) (hm : u.mode = s.mode) (hd : u.draws = s.draws) (n : Size)
    (i : GprNum) (v : Word) : (u.writeReg n i v).regs = (s.writeReg n i v).regs := by
  cases n <;>
    simp only [State.writeReg, State.writeR16, State.writeR32, State.writeR64, State.setGpr_regs, State.gpr,
      State.upperAfterWrite, hr, hm, hd]

section SegmentPopped

variable {s u : State} {i : Instr} {sg : SegName} {sel : BitVec 16}

theorem mem_segmentPopped : (segmentPopped s u i sg).mem = u.mem := by
  simp [segmentPopped, State.completed, State.writeSp]

theorem written_segmentPopped : (segmentPopped s u i sg).written = u.written := by
  simp [segmentPopped, State.completed, State.writeSp]

theorem sregs_segmentPopped : (segmentPopped s u i sg).sregs = u.sregs := by
  simp [segmentPopped, State.completed, State.writeSp]

theorem sreg_segmentPopped (q : SegName) : (segmentPopped s u i sg).sreg q = u.sreg q := by
  cases q <;> simp only [State.sreg, sregs_segmentPopped]

theorem inhibit_segmentPopped : (segmentPopped s u i sg).inhibit = (sg == .ss && s.inhibitAfterPopSs) := rfl

/-- The load leaves the registers, pc and the control state but for the segment registers. -/
theorem eq_of_loadSeg (h : s.loadSeg sg sel = .ok u) :
    u = { s with sregs := u.sregs, mem := u.mem, written := u.written } := by
  obtain ⟨w, hid, hw, rfl, -⟩ := State.loadSeg_ok h
  obtain rfl | ⟨a, v, -, -, rfl⟩ := hw <;> rfl

theorem sreg_of_loadSeg (h : s.loadSeg sg sel = .ok u) : (u.sreg sg).sel = sel ∧ ∀ q, q ≠ sg → u.sreg q = s.sreg q := by
  obtain ⟨w, hid, hw, rfl, -⟩ := State.loadSeg_ok h
  refine ⟨by rw [State.sreg_setSreg_self], fun q hq => ?_⟩
  rw [State.sreg_setSreg_ne _ _ (Ne.symm hq)]
  cases q <;> simp only [State.sreg, State.tableWrite_sregs hw]

theorem gpr_segmentPopped (h : s.loadSeg sg sel = .ok u) {j : GprNum} (hj : s.Shows j) :
    (segmentPopped s u i sg).gpr j = (s.incremented (s.ctx.operandSize i.prefixes)).gpr j := by
  have hu := eq_of_loadSeg h
  have hregs : u.regs = s.regs := by rw [hu]
  have hmode : u.mode = s.mode := by rw [hu]
  have hdraws : u.draws = s.draws := by rw [hu]
  have hsp : (u.writeSp s.stackAddrSize (s.spAfter (s.ctx.operandSize i.prefixes))).mode = s.mode := by
    rw [State.writeSp, State.writeReg_mode, hmode]
  rw [segmentPopped, State.gpr_completed _ _ _ _ (by rw [hsp]; exact hj), State.gpr, State.writeSp, regs_writeReg_congr hregs hmode hdraws]
  rfl

/-- A segment load that completes moves the stack pointer and pc and touches no register beside. -/
theorem segmentPopped_spec (h : s.loadSeg sg sel = .ok u) :
    s.SegmentPopped (segmentPopped s u i sg) i sg := by
  refine ⟨?_, State.spMoved_of_gpr (gpr_segmentPopped h (shows_four s)),
    fun j h4 => State.kept_of_gpr fun hj => (gpr_segmentPopped h hj).trans (s.gpr_incremented_ne _ h4),
    fun q hq => (sreg_segmentPopped q).trans ((sreg_of_loadSeg h).2 q hq), fun hss => ?_, fun hss hin haf => ?_⟩
  · have hu := eq_of_loadSeg h
    generalize hx : u.sregs = x at hu
    generalize hy : u.mem = y at hu
    generalize hz : u.written = z at hu
    subst hu
    obtain ⟨g, hg⟩ := State.writeReg_eq { s with sregs := x, mem := y, written := z } s.stackAddrSize 4
      (s.spAfter (s.ctx.operandSize i.prefixes))
    rw [segmentPopped, State.writeSp, hg]
    rfl
  · rw [inhibit_segmentPopped, beq_false_of_ne hss, Bool.false_and]
  · rw [inhibit_segmentPopped, hss, State.inhibitAfterPopSs, hin, haf]
    rfl

theorem stackRead_of_popsSelector (h : s.PopsSelector i sel) :
    ∃ raw, s.stackRead (s.stackBytes i) = .ok raw ∧ raw.setWidth 16 = sel := by
  obtain ⟨raw, hp, rfl⟩ := h
  exact ⟨raw, State.stackRead_of_popped hp, rfl⟩

theorem exec_of_loadSeg (hi : PopsSegment i sg) (hr : s.Ready i) (hsel : s.PopsSelector i sel)
    (h : s.loadSeg sg sel = .ok u) :
    exec i s = .next (segmentPopped s u i sg) ∧ s.SegmentPopped (segmentPopped s u i sg) i sg := by
  obtain ⟨raw, hraw, rfl⟩ := stackRead_of_popsSelector hsel
  exact ⟨(exec_popsSegment_next hi).2 ⟨hr, raw, u, hraw, h, rfl⟩, segmentPopped_spec h⟩

/-- A load that stops stops the instruction. -/
theorem body_of_loadSeg_error {e : Stop} (hi : PopsSegment i sg) (hs : s.Starts i) (hsel : s.PopsSelector i sel)
    (h : s.loadSeg sg sel = .error e) : body i s = .error e := by
  obtain ⟨raw, hraw, rfl⟩ := stackRead_of_popsSelector hsel
  rw [hi.stackBytes] at hraw
  rw [hi.body_eq hs, popToSeg, hraw, ok_bind, h, error_bind]

theorem raises_of_loadSeg {e : Exception} (hi : PopsSegment i sg) (hs : s.Starts i) (hsel : s.PopsSelector i sel)
    (h : s.loadSeg sg sel = raise s e) : Raises (exec i s) e :=
  raises_of_body hs (body_of_loadSeg_error hi hs hsel h)

theorem refused_of_loadSeg {r : Refusal} (hi : PopsSegment i sg) (hs : s.Starts i) (hsel : s.PopsSelector i sel)
    (h : s.loadSeg sg sel = .error (.refused r)) : exec i s = .refused r :=
  refused_of_body hs (body_of_loadSeg_error hi hs hsel h)

/-- A descriptor that is loaded fills the register and is marked. -/
theorem exec_of_loadFrom {d : Descriptor} (hi : PopsSegment i sg) (hr : s.Ready i) (hsel : s.PopsSelector i sel)
    (hm : s.CanMark sel d) (h : s.loadSeg sg sel = s.loadFrom sg sel d) :
    ∃ t, exec i s = .next t ∧ s.SegmentPopped t i sg ∧ State.LoadedFrom (t.sreg sg) sel d ∧ s.Marked t sel d := by
  obtain ⟨w, hw⟩ := State.markAccessed_of_canMark hm
  obtain ⟨hnext, hspec⟩ := exec_of_loadSeg hi hr hsel (h.trans (State.loadFrom_ok.2 ⟨w, hw, rfl⟩))
  refine ⟨_, hnext, hspec, ?_, State.marked_of_markAccessed hw mem_segmentPopped written_segmentPopped⟩
  rw [sreg_segmentPopped, State.sreg_setSreg_self]
  exact State.loadedFrom_hidden sel d

end SegmentPopped

/-! ### Loads that complete -/

/-- Settles O39: the load makes no check and writes the selector and the base. -/
theorem realModeSegmentPopCompletes : Obligations.RealModeSegmentPopCompletes := by
  intro s i sg sel hi hr hm hsel
  obtain ⟨hnext, hspec⟩ := exec_of_loadSeg hi hr hsel (State.loadSeg_of_real hm sg sel)
  refine ⟨_, hnext, hspec, ⟨mem_segmentPopped, written_segmentPopped⟩, ?_⟩
  have hbase : sel.setWidth 64 <<< 4 = BitVec.ofNat 64 (16 * sel.toNat) := by
    have := sel.isLt
    apply BitVec.eq_of_toNat_eq
    simp only [BitVec.toNat_shiftLeft, BitVec.toNat_setWidth, BitVec.toNat_ofNat, Nat.shiftLeft_eq]
    omega
  rw [sreg_segmentPopped, State.loadReal, State.sreg_setSreg_self, hbase]

/-- Settles O40: the load reads no table; the register is not usable whatever hidden part it takes. -/
theorem nullSelectorPopCompletes : Obligations.NullSelectorPopCompletes := by
  intro s i sg sel hi hr hl hsel h3
  obtain ⟨hnext, hspec⟩ := exec_of_loadSeg hi hr hsel (State.loadSeg_of_null hl (isNull_of_le h3))
  have hreg : (segmentPopped s (s.loadNull sg sel) i sg).sreg sg = ⟨sel, s.nullHidden⟩ := by
    rw [sreg_segmentPopped, State.loadNull, State.sreg_setSreg_self]
  refine ⟨_, hnext, hspec, ⟨mem_segmentPopped, written_segmentPopped⟩, by rw [hreg], by rw [hreg]; rfl, fun h hh => ?_⟩
  rw [hreg, State.nullHidden, hh, Option.getD_some]

/-- Settles O41: every check passes, so the descriptor is loaded and marked. -/
theorem dataSegmentPopCompletes : Obligations.DataSegmentPopCompletes := by
  intro s i sg sel d hi hr hl hsel h3 hd hk hp hpresent hm
  refine exec_of_loadFrom hi hr hsel hm (State.loadSeg_of_loadable (.inl hl) (isNull_of_gt h3) hd ⟨hpresent, ?_⟩)
  rw [if_neg hl.1]
  exact ⟨hk, hp⟩

/-! ### Loads that stop -/

/-- Settles O42: the checks of R219, each after those before it. -/
theorem dataSegmentLoadChecks : Obligations.DataSegmentLoadChecks := by
  intro s i sg sel hi hs hl hsel h3
  have hload := State.loadSeg_of_data hl (isNull_of_gt h3)
  refine ⟨fun ho => ?_, fun d hd => ⟨fun hk => ?_, fun hk hc hp => ?_, fun hk hc ho hp => ?_, fun hk hp hpresent => ?_⟩⟩
  · exact raises_of_loadSeg hi hs hsel (hload.trans (State.loadDataSegment_of_outside ho))
  · exact raises_of_loadSeg hi hs hsel (hload.trans (State.loadDataSegment_of_kind hd hk))
  · have hdenied : s.privDenied sel d = .ok true := by
      rw [State.privDenied_of_privileged hk hc]
      obtain hb | ⟨ho, hp⟩ := hp
      · exact State.privViolation_of_bothAbove hb
      · exact State.privViolation_of_either ho hp
    exact raises_of_loadSeg hi hs hsel (hload.trans (State.loadDataSegment_of_denied hd hk hdenied))
  · have hrefused := (State.privDenied_of_privileged hk hc).trans (State.privViolation_of_refuse ho hp)
    exact refused_of_loadSeg hi hs hsel (hload.trans (State.loadDataSegment_of_refused hd hk hrefused))
  · exact raises_of_loadSeg hi hs hsel
      (hload.trans (State.loadDataSegment_of_not_present hd hk (State.privDenied_of_privilegeHolds hp) hpresent))

/-- Settles O43: the free bit denies the load, or the load goes on as under `both`. -/
theorem dataSegmentFreeReading : Obligations.DataSegmentFreeReading := by
  intro s i sg sel d hi hs hl hsel h3 hd hk hc ho hp
  have hload := State.loadSeg_of_data hl (isNull_of_gt h3)
  have hpriv := (State.privDenied_of_privileged hk hc).trans (State.privViolation_of_anyReading ho hp)
  cases hfree : Config.freePrivilege s.draws with
  | true =>
    rw [hfree] at hpriv
    have hgp := raises_of_loadSeg hi hs hsel (hload.trans (State.loadDataSegment_of_denied hd hk hpriv))
    exact ⟨fun _ => .inl hgp, fun _ _ _ => .inl hgp⟩
  | false =>
    rw [hfree] at hpriv
    refine ⟨fun hpresent => .inr ?_, fun hpresent hm hfits => .inr ?_⟩
    · exact raises_of_loadSeg hi hs hsel (hload.trans (State.loadDataSegment_of_not_present hd hk hpriv hpresent))
    · exact exec_of_loadFrom hi ⟨hs, hfits⟩ hsel hm (hload.trans (State.loadDataSegment_of_present hd hk hpriv hpresent))

theorem State.readDescriptor_of_firstFaultAt {s : State} {sel : BitVec 16} {l : Word} {code : BitVec 32}
    (h : s.FirstFaultAt .read supervisor ((List.range 8).map (s.descriptorByte sel)) l code) :
    s.readDescriptor sel = raise s (.pf code l) := by
  rw [readDescriptor, translateAll_of_firstFaultAt h]
  rfl

theorem State.readDescriptor_of_firstOutside {s : State} {sel : BitVec 16} {as : List Nat} {a : Nat}
    (htr : ((List.range 8).map (s.descriptorByte sel)).map (s.translate .read supervisor) = as.map Except.ok)
    (h : s.FirstOutside as a) : s.readDescriptor sel = refuse (.outsidePhysMem a) := by
  rw [readDescriptor, translateAll_ok.2 htr, ok_bind, loadBytes_of_firstOutside h]
  rfl

theorem State.loadFrom_of_mark_fault {s : State} {sg : SegName} {sel : BitVec 16} {d : Descriptor} {code : BitVec 32}
    (hd : d.accessed = false) (h : s.translate .write supervisor (s.descriptorByte sel 5) = .error code) :
    s.loadFrom sg sel d = raise s (.pf code (s.descriptorByte sel 5)) := by
  rw [loadFrom, markAccessed, if_neg (by simp [hd]), translateAll, h]
  rfl

theorem State.loadFrom_of_mark_outside {s : State} {sg : SegName} {sel : BitVec 16} {d : Descriptor} {a : Nat}
    (hd : d.accessed = false) (h : s.translate .write supervisor (s.descriptorByte sel 5) = .ok a)
    (ha : s.inPhysMem a = false) : s.loadFrom sg sel d = refuse (.outsidePhysMem a) := by
  have htr : s.translateAll .write supervisor [s.descriptorByte sel 5] = .ok [a] := translateAll_ok.2 (by simp [h])
  rw [loadFrom, markAccessed, if_neg (by simp [hd]), htr, ok_bind, storeBytes, if_neg (by simp [ha])]
  rfl

/-- Settles O44: the descriptor is read before every check of it, and marked after the last. -/
theorem descriptorAccessFaults : Obligations.DescriptorAccessFaults := by
  intro s i sg sel hi hs hl hsel h3 ho
  have hn := isNull_of_gt h3
  refine ⟨fun l code hf => ?_, fun as a htr hout => ?_, fun d hd hload hacc => ⟨fun code hw => ?_, fun a hw ha => ?_⟩⟩
  · exact raises_of_loadSeg hi hs hsel
      (State.loadSeg_of_readDescriptor_error hl hn ho (State.readDescriptor_of_firstFaultAt hf))
  · exact refused_of_loadSeg hi hs hsel
      (State.loadSeg_of_readDescriptor_error hl hn ho (State.readDescriptor_of_firstOutside htr hout))
  · exact raises_of_loadSeg hi hs hsel
      ((State.loadSeg_of_loadable hl hn hd hload).trans (State.loadFrom_of_mark_fault hacc hw))
  · exact refused_of_loadSeg hi hs hsel
      ((State.loadSeg_of_loadable hl hn hd hload).trans (State.loadFrom_of_mark_outside hacc hw ha))

/-- Settles O46: the checks of R218, each after those before it, and then the load. -/
theorem stackSegmentPopChecksAndLoads : Obligations.StackSegmentPopChecksAndLoads := by
  intro s p sel hs hp hsel
  have hi : PopsSegment (.popSs p) .ss := .ss p
  have hload := State.loadSeg_of_stack hp sel
  refine ⟨fun h3 => ?_, fun h3 ho => ?_, fun d h3 hd => ?_⟩
  · exact raises_of_loadSeg hi hs hsel (hload.trans (State.loadStackSegment_of_null (isNull_of_le h3)))
  · exact raises_of_loadSeg hi hs hsel (hload.trans (State.loadStackSegment_of_outside (isNull_of_gt h3) ho))
  · have hn := isNull_of_gt h3
    refine ⟨fun hc => ?_, fun hr hdpl hk hpresent => ?_, fun hr hdpl hk hpresent hm hfits => ?_⟩
    · exact raises_of_loadSeg hi hs hsel (hload.trans (State.loadStackSegment_of_mismatch hn hd hc))
    · refine raises_of_loadSeg hi hs hsel (hload.trans ?_)
      rw [State.loadStackSegment_of_match hn hd hr hdpl hk, if_pos hpresent]
    · refine exec_of_loadFrom hi ⟨hs, hfits⟩ hsel hm (hload.trans ?_)
      rw [State.loadStackSegment_of_match hn hd hr hdpl hk, if_neg (by simp [hpresent])]

/-- Outside the modes that have it, POP DS, ES and SS raise #UD with LOCK and without. -/
theorem raises_ud_of_body {i : Instr} {s : State} (hw : i.wf s.ctx = true) (hb : body i s = raise s .ud) :
    Raises (exec i s) .ud := by
  refine ⟨6, s.pc, exec_fault.2 ⟨hw, ?_⟩⟩
  cases hl : i.prefixes.locked with
  | true => exact .inl ⟨rfl, rfl⟩
  | false => exact .inr ⟨rfl, hb⟩

/-- Settles O47: the term is well-formed in Long64, where its body raises #UD. -/
theorem legacySegmentPopInvalidInLong64 : Obligations.LegacySegmentPopInvalidInLong64 := by
  intro s p hm hp
  exact ⟨raises_ud_of_body (wf_of_row hp rfl rfl) (if_pos hm), raises_ud_of_body (wf_of_row hp rfl rfl) (if_pos hm),
    raises_ud_of_body (wf_of_row hp rfl rfl) (if_pos hm)⟩

/-! ### What a load leaves in memory -/

theorem sameMemory_segmentPopped {s u : State} {i : Instr} {sg : SegName} (h : s.SameMemory u) :
    s.SameMemory (segmentPopped s u i sg) :=
  ⟨mem_segmentPopped.trans h.1, written_segmentPopped.trans h.2⟩

/-- Settles O36: what a completed load is, and memory but for the byte that `markAccessed` writes. -/
theorem frameOfSegmentForms : Obligations.FrameOfSegmentForms := by
  intro s t i sg hi h
  obtain ⟨-, raw, u, -, hu, rfl⟩ := (exec_popsSegment_next hi).1 h
  obtain ⟨heq, -, hkept, hsregs, -, -⟩ := segmentPopped_spec (i := i) hu
  have hsel : ((segmentPopped s u i sg).sreg sg).sel = raw.setWidth 16 := by
    rw [sreg_segmentPopped]; exact (sreg_of_loadSeg hu).1
  refine ⟨by rw [heq]; rfl, hkept, hsregs, fun a ha => ?_, fun hnone => sameMemory_segmentPopped ?_⟩
  · rw [hsel] at ha
    rw [mem_segmentPopped]
    obtain ⟨w, hid, hw, rfl, -⟩ := State.loadSeg_ok hu
    obtain rfl | ⟨b, v, hb, -, rfl⟩ := hw
    · rfl
    · exact Memory.read_write_ne v (fun e => ha (by rw [e]; exact hb)) _
  · rw [hsel] at hnone
    obtain ⟨-, hid, rfl⟩ | ⟨⟨hr, hv⟩, hn, -⟩ := State.loadSeg_ok_cases hu
    · exact ⟨rfl, rfl⟩
    · obtain h | h | h := hnone
      · exact absurd h hr
      · exact absurd h hv
      · rw [hn] at h; cases h

/-- A load whose descriptor is marked already writes nothing. -/
theorem sameMemory_of_loadsAccessed {s t : State} {i : Instr} {sg : SegName} (hi : PopsSegment i sg)
    (hacc : s.loadsAccessed i) (h : exec i s = .next t) : s.SameMemory t := by
  obtain ⟨⟨hs, -⟩, raw, u, hraw, hu, ht⟩ := (exec_popsSegment_next hi).1 h
  rw [ht]
  refine sameMemory_segmentPopped ?_
  obtain ⟨-, hid, rfl⟩ | ⟨htables, hn, d, w, hd, hw, rfl⟩ := State.loadSeg_ok_cases hu
  · exact ⟨rfl, rfl⟩
  · have hsel : s.popsSelector i (raw.setWidth 16) :=
      ⟨hs.2.1, ⟨sg, hi.segment_eq, fun hm => hs.2.2 hm sg hi⟩, raw, by rwa [← hi.stackBytes], rfl⟩
    have hd' := hacc _ d t hsel htables hn hd h
    obtain ⟨-, rfl⟩ | ⟨hno, -⟩ := State.markAccessed_ok.1 hw
    · exact ⟨rfl, rfl⟩
    · rw [hd'] at hno; cases hno

/-- Settles O45: under P6 no descriptor is marked, in one instruction and so in each of a run. -/
theorem accessedDescriptorsAreNotWritten : Obligations.AccessedDescriptorsAreNotWritten := by
  refine ⟨fun s t i sg hi hacc h => sameMemory_of_loadsAccessed hi hacc h, fun s t u endPc k i sg hacc hk hne hf hi h => ?_⟩
  obtain ⟨i', hf', hexec, -⟩ := step_next h
  rw [hf] at hf'; cases hf'
  have hsame : (t.enter i.length).SameMemory u := sameMemory_of_loadsAccessed hi (hacc k t i hk hne hf) hexec
  exact hsame

/-! ### The inhibition after POP SS (R226) -/

/-- Settles O57: the inhibition a completed instruction leaves is that of its POP SS, if it is one. -/
theorem popSsHoldsOffInterrupts : Obligations.PopSsHoldsOffInterrupts := by
  refine ⟨fun s t p os h hin haf => ?_, fun s t i h hi => ?_⟩
  · obtain ⟨-, raw, u, -, -, rfl⟩ := (exec_popsSegment_next (.ss p)).1 h
    have hinhibit : (segmentPopped s u (.popSs p) .ss).inhibit = true := by
      rw [inhibit_segmentPopped, State.inhibitAfterPopSs, hin, haf]; rfl
    refine ⟨hinhibit, ?_⟩
    rw [ne_eq, step_interruptDelivered]
    cases os with
    | nil => simp [State.interruptDue]
    | cons o os => cases o <;> simp [State.interruptDue, hinhibit]
  · obtain ⟨-, u, inhibit, popSs, -, rfl, hss, hin⟩ := exec_next_completed h
    have hno : popSs = false := Bool.eq_false_iff.2 fun e => hi (hss.1 e)
    show inhibit = false
    rw [hin, hno, Bool.false_and]

end Sys2Proof.Machine
end

section
/-! PROOFS about what every instruction and every step do: exceptions by mode, pc, the control state, the record of written
and executed bytes; and the values at reset. -/

namespace Sys2Proof.Machine

/-! ### Exceptions (R240, R249 to R253) -/

/-- What an instruction can raise in the mode of the state: #UD, a fault of an access, a fault of a segment load. -/
def Raisable (s : State) (e : Exception) : Prop :=
  e = .ud ∨ (e = .ss s.zeroCode ∨ e = .gp s.zeroCode) ∨ (s.mode ≠ .real ∧ (e = .ac ∨ ∃ c a, e = .pf c a)) ∨
    (s.mode ≠ .real ∧ s.mode ≠ .v8086 ∧
      ((s.protectedLike = true ∧ ∃ c, e = .ss (some c)) ∨ (∃ c, e = .gp (some c)) ∨ ∃ c, e = .np c))

theorem AccessFault.raisable {s : State} {f : Fault} (h : AccessFault s f) :
    ∃ e, Raisable s e ∧ f = .raised e e.vector s.pc := by
  obtain ⟨sg, rfl⟩ | ⟨hm, rfl⟩ | ⟨hm, c, a, rfl⟩ := h
  · refine ⟨s.segFault sg, .inr (.inl ?_), rfl⟩
    unfold State.segFault
    split
    · exact .inl rfl
    · exact .inr rfl
  · exact ⟨.ac, .inr (.inr (.inl ⟨hm, .inl rfl⟩)), rfl⟩
  · exact ⟨.pf c a, .inr (.inr (.inl ⟨hm, .inr ⟨c, a, rfl⟩⟩)), rfl⟩

theorem LoadFault.raisable {s : State} {f : Fault} (h : LoadFault s f) :
    ∃ e, Raisable s e ∧ f = .raised e e.vector s.pc := by
  obtain ⟨hr, hv, ⟨hp, rfl | ⟨c, rfl⟩⟩ | ⟨c, rfl⟩ | ⟨c, rfl⟩ | ⟨c, a, rfl⟩⟩ := h
  · exact ⟨.gp (some 0), .inr (.inr (.inr ⟨hr, hv, .inr (.inl ⟨0, rfl⟩)⟩)), rfl⟩
  · exact ⟨.ss (some c), .inr (.inr (.inr ⟨hr, hv, .inl ⟨hp, c, rfl⟩⟩)), rfl⟩
  · exact ⟨.gp (some c), .inr (.inr (.inr ⟨hr, hv, .inr (.inl ⟨c, rfl⟩)⟩)), rfl⟩
  · exact ⟨.np c, .inr (.inr (.inr ⟨hr, hv, .inr (.inr ⟨c, rfl⟩)⟩)), rfl⟩
  · exact ⟨.pf c a, .inr (.inr (.inl ⟨hr, .inr ⟨c, a, rfl⟩⟩)), rfl⟩

theorem exec_fault_raisable {i : Instr} {s : State} {f : Fault} (h : exec i s = .fault f) :
    ∃ e, Raisable s e ∧ f = .raised e e.vector s.pc := by
  obtain ⟨-, ⟨-, rfl⟩ | ⟨-, hb⟩⟩ := exec_fault.1 h
  · exact ⟨.ud, .inl rfl, rfl⟩
  · obtain rfl | ha | hl := body_fault hb
    · exact ⟨.ud, .inl rfl, rfl⟩
    · exact ha.raisable
    · exact hl.raisable

theorem zeroCode_of_real {s : State} (hm : s.mode = .real) : s.zeroCode = none := if_pos hm

theorem zeroCode_of_ne_real {s : State} (hm : s.mode ≠ .real) : s.zeroCode = some 0 := if_neg hm

theorem raisable_of_real {s : State} {e : Exception} (h : Raisable s e) (hm : s.mode = .real) :
    e = .ud ∨ e = .ss none ∨ e = .gp none := by
  obtain he | he | ⟨hr, -⟩ | ⟨hr, -⟩ := h
  · exact .inl he
  · rw [zeroCode_of_real hm] at he; exact .inr he
  · exact absurd hm hr
  · exact absurd hm hr

theorem raisable_of_v8086 {s : State} {e : Exception} (h : Raisable s e) (hm : s.mode = .v8086) :
    e = .ud ∨ e = .ss (some 0) ∨ e = .gp (some 0) ∨ (∃ c a, e = .pf c a) ∨ e = .ac := by
  have hz := zeroCode_of_ne_real (s := s) (by simp [hm])
  obtain he | he | ⟨-, he⟩ | ⟨-, hv, -⟩ := h
  · exact .inl he
  · rw [hz] at he; exact .inr (he.imp_right .inl)
  · exact .inr (.inr (.inr he.symm))
  · exact absurd hm hv

theorem raisable_ss_of_long64 {s : State} {c : Option (BitVec 32)} (h : Raisable s (.ss c)) (hm : s.mode = .long64) :
    c = some 0 := by
  have hz := zeroCode_of_ne_real (s := s) (by simp [hm])
  have hp : s.protectedLike = false := by simp [State.protectedLike, hm]
  simpa [Raisable, hz, hp] using h

theorem raisable_has_code {s : State} {e : Exception} (h : Raisable s e) (hm : s.mode ≠ .real) :
    e ≠ .ss none ∧ e ≠ .gp none := by
  have hz := zeroCode_of_ne_real hm
  constructor <;> rintro rfl <;> simp [Raisable, hz] at h

/-- Settles O51: an instruction raises what `Raisable` says, and that is read off mode by mode. -/
theorem exceptionsByMode : Obligations.ExceptionsByMode := by
  intro s i e vector pc h
  obtain ⟨e', he, heq⟩ := exec_fault_raisable h
  cases heq
  refine ⟨rfl, by cases e <;> rfl, raisable_of_real he, raisable_of_v8086 he, fun hm c hc => ?_, raisable_has_code he⟩
  exact raisable_ss_of_long64 (hc ▸ he) hm

/-! ### pc (R30, R31) -/

theorem nextPcFits_of_long64 {s : State} (hm : s.mode = .long64) (len : Nat) :
    s.nextPcFits len = true ↔ s.pc.toNat + len < 2 ^ 64 := by
  rw [State.nextPcFits, if_pos hm, decide_eq_true_eq]

theorem nextPcFits_of_ne_long64 {s : State} (hm : s.mode ≠ .long64) (len : Nat) :
    s.nextPcFits len = true ↔ (s.pc.setWidth 32).toNat + len < (if (s.sreg .cs).hid.db then 2 ^ 32 else 2 ^ 16) ∧
      (s.pc.setWidth 32).toNat + len ≤ (s.sreg .cs).hid.limit.toNat := by
  rw [State.nextPcFits, if_neg hm, Bool.and_eq_true, decide_eq_true_eq, decide_eq_true_eq]
  rfl

/-- Settles O52: completion moves pc by the length and asks for the bounds. -/
theorem pcPassesTheInstruction : Obligations.PcPassesTheInstruction := by
  intro s t h
  obtain ⟨i, hf, hexec, -⟩ := step_next h
  obtain ⟨hfits, u, inhibit, popSs, hu, rfl, -⟩ := exec_next_completed hexec
  have hfits : s.nextPcFits i.length = true := hfits
  exact ⟨i, hf, congrArg (· + BitVec.ofNat 64 i.length) hu.pc, fun hm => (nextPcFits_of_long64 hm _).1 hfits,
    fun hm => (nextPcFits_of_ne_long64 hm _).1 hfits⟩

theorem complete_of_overrun {s t : State} {len : Nat} (hc : SameControl s t) (hpc : t.pc = s.pc)
    (h : s.nextPcFits len = false) (a b : Bool) : t.complete len a b = .error (.refused .pcOverrun) :=
  State.complete_error.2 ⟨(State.nextPcFits_congr hc hpc len).trans h, rfl⟩

/-- A load that succeeds in the sense of the statements completes. -/
theorem loadSeg_of_loadSucceeds {s : State} {sg : SegName} {sel : BitVec 16} (h : s.LoadSucceeds sg sel) :
    ∃ u, s.loadSeg sg sel = .ok u := by
  obtain hm | ⟨hl, h3⟩ | ⟨hl, h3, d, hd, hload, hmark⟩ := h
  · exact ⟨_, State.loadSeg_of_real hm sg sel⟩
  · exact ⟨_, State.loadSeg_of_null hl (isNull_of_le h3)⟩
  · obtain ⟨w, hw⟩ := State.markAccessed_of_canMark hmark
    exact ⟨_, (State.loadSeg_of_loadable hl (isNull_of_gt h3) hd hload).trans (State.loadFrom_ok.2 ⟨w, hw, rfl⟩)⟩

/-- Settles O53: each shape ends in its completion, which refuses. -/
theorem pcOverrunIsRefused : Obligations.PcOverrunIsRefused := by
  intro s i hs hpc
  have hsp (n : Size) : SameControl s (s.writeSp s.stackAddrSize (s.spAfter n)) := .writeReg _ _ _ _
  refine ⟨fun n d v hi hv => ?_, fun n m v off as hi hv ho has => ?_, fun sg sel hi hsel hl => ?_⟩ <;>
    refine refused_of_body hs ?_
  · rw [hi.body_eq, popToReg, State.stackRead_of_popped hv, ok_bind]
    exact complete_of_overrun ((hsp n).trans' (.writeReg _ n d v)) (by simp [State.writeSp]) hpc _ _
  · have hd := destAddrs_of_reaches ho has
    obtain ⟨-, -, -, hp⟩ := has
    have hstore : (s.writeSp s.stackAddrSize (s.spAfter n)).storeBytes as v =
        .ok ((s.writeSp s.stackAddrSize (s.spAfter n)).storeAll as v) :=
      State.storeBytes_ok.2 ⟨fun a ha => (State.writeSp_inPhysMem s _ _ a).trans (hp a ha), rfl⟩
    rw [body_of_popsMemory hi, popToMem, State.reportedRead_ok.2 (State.stackRead_of_popped hv), ok_bind,
      hd, ok_bind, hstore, ok_bind]
    exact complete_of_overrun ((hsp n).trans' (.storeAll _ as v)) (by simp [State.writeSp, State.storeAll_pc]) hpc _ _
  · obtain ⟨raw, hraw, rfl⟩ := stackRead_of_popsSelector hsel
    obtain ⟨u, hu⟩ := loadSeg_of_loadSucceeds hl
    rw [hi.stackBytes] at hraw
    rw [hi.body_eq hs, popToSeg, hraw, ok_bind, hu, ok_bind]
    exact complete_of_overrun ((loadSeg_sameControl hi.ne_cs hu).trans' (.writeReg _ _ _ _))
      (by simp [(Worked.loadSeg hu).pc]) hpc _ _

/-! ### The control state and the records (R40 to R44, R88) -/

/-- Settles O54: what an instruction keeps, in the state it was entered in. -/
theorem controlStateIsNeverWritten : Obligations.ControlStateIsNeverWritten := by
  intro s t h
  obtain ⟨i, -, hexec, -⟩ := step_next h
  have hc := exec_next_sameControl hexec
  exact ⟨hc.mode, hc.cpl, hc.rflags, hc.gdtr, hc.ldtr, hc.acEnable, hc.physMem, hc.paging, hc.params, hc.offers⟩

/-- The executed bytes after a step: those of the instruction at pc and those from before. -/
theorem mem_fetched_of_step {s t : State} {i : Instr} (hf : s.fetchInstr = .ok i)
    (h : exec i (s.enter i.length) = .next t) (a : Nat) : a ∈ t.fetched ↔ a ∈ s.codeAddrs ∨ a ∈ s.fetched := by
  rw [(exec_next_sameControl h).fetched, State.mem_enter_fetched, State.codeAddrs_of_fetchInstr hf]

/-- Settles O55: what the instruction works out records its writes, entering it its own bytes, and the two stay apart. -/
theorem changedBytesAreRecorded : Obligations.ChangedBytesAreRecorded := by
  intro s t h
  obtain ⟨i, hf, hexec, hintact⟩ := step_next h
  obtain ⟨-, u, inhibit, popSs, hu, rfl, -⟩ := exec_next_completed hexec
  exact ⟨hu.unrecorded, fun a ha => ⟨hu.recorded a ha, State.codeIntact_iff.1 hintact a ha⟩, mem_fetched_of_step hf hexec⟩

/-! ### The values at reset -/

theorem r32_reset (i : GprNum) : State.reset.r32 i = 0 := by
  simp [State.r32, State.gpr, State.reset]

/-- Settles O1: the reset state, field by field. -/
theorem resetHoldsFamilyValues : Obligations.ResetHoldsFamilyValues := by
  refine ⟨rfl, rfl, rfl, rfl, fun i _ _ => r32_reset i, rfl, rfl, rfl, rfl, ⟨false, rfl⟩, fun sg hsg => ?_, rfl, rfl, rfl,
    rfl, rfl, rfl⟩
  cases sg with
  | cs => exact absurd rfl hsg
  | es | ss | ds | fs | gs => exact ⟨rfl, rfl, rfl, rfl, ⟨false, rfl⟩, rfl⟩

/-- Settles O2: the reset state, field by field. -/
theorem resetHoldsTheModelsChoices : Obligations.ResetHoldsTheModelsChoices := by
  refine ⟨r32_reset 2, rfl, rfl, fun sg hsg => ?_, fun sg => ?_, rfl, rfl, rfl, rfl, rfl, fun _ => rfl⟩
  · cases sg with
    | cs => exact absurd rfl hsg
    | es | ss | ds | fs | gs => rfl
  · cases sg <;> exact ⟨rfl, rfl, rfl⟩

/-- Settles O3: the parameters at reset; with no paging rule every address is its own translation. -/
theorem launchDefaults : Obligations.LaunchDefaults :=
  ⟨rfl, rfl, rfl, rfl, rfl, rfl, rfl, fun _ _ _ => rfl⟩

end Sys2Proof.Machine
end

section
/-! PROOFS about a run under its premises (70_reset_and_hazards.md section 2): each state it comes to meets the invariant, its
accesses stay in the memory that exists, and what it writes is apart from what it executes. -/

namespace Sys2Proof.Machine

/-! ### No operation leaves the memory that exists (R83, R293: P4, P9) -/

/-- The operation is not refused for memory that does not exist. -/
def StaysInside {α : Type} (x : Exec α) : Prop := ∀ a, x ≠ .error (.refused (.outsidePhysMem a))

theorem State.translate_of_translateAll {s : State} {acc : Access} {cpl : BitVec 2} {ls : List Word} {as : List Nat}
    (h : s.translateAll acc cpl ls = .ok as) {a : Nat} (ha : a ∈ as) : ∃ l ∈ ls, s.translate acc cpl l = .ok a := by
  have hmem : Except.ok a ∈ ls.map (s.translate acc cpl) := by
    rw [State.translateAll_ok.1 h]
    exact List.mem_map_of_mem ha
  exact List.mem_map.1 hmem

namespace StaysInside

theorem ok {α : Type} (a : α) : StaysInside (.ok a : Exec α) := nofun

theorem raise {α : Type} (s : State) (e : Exception) : StaysInside (raise s e : Exec α) := nofun

theorem bind {α β : Type} {x : Exec α} {f : α → Exec β} (hx : StaysInside x) (hf : ∀ a, x = .ok a → StaysInside (f a)) :
    StaysInside (x >>= f) := fun a h => by
  obtain h | ⟨b, hb, h⟩ := bind_error.1 h
  · exact hx a h
  · exact hf b hb a h

variable {s : State}

theorem translateAll (acc : Access) (cpl : BitVec 2) (ls : List Word) : StaysInside (s.translateAll acc cpl ls) := fun a h => by
  obtain ⟨_, -, _, -, -, he⟩ := State.translateAll_error h
  cases he

theorem loadBytes {as : List Nat} (hex : ∀ a ∈ as, s.inPhysMem a = true) : StaysInside (s.loadBytes as) := fun a h => by
  obtain ⟨b, hb, hno, -⟩ := State.loadBytes_error h
  rw [hex b hb] at hno; cases hno

theorem storeBytes {as : List Nat} (hex : ∀ a ∈ as, s.inPhysMem a = true) (v : Word) : StaysInside (s.storeBytes as v) :=
  fun a h => by
    obtain ⟨b, hb, hno, -⟩ := State.storeBytes_error h
    rw [hex b hb] at hno; cases hno

theorem complete (len : Nat) (a b : Bool) : StaysInside (s.complete len a b) := fun x h => by
  obtain ⟨-, he⟩ := State.complete_error.1 h
  cases he

theorem accessAddrs (acc : Access) (sg : SegName) (off : Word) (n c : Nat) :
    StaysInside (s.accessAddrs acc sg off n c) := fun a h => by
  obtain ⟨⟨as, hok⟩, -⟩ | ⟨e, -, he⟩ := s.accessAddrs_cases acc sg off n c
  · rw [hok] at h; cases h
  · rw [he] at h; cases h

end StaysInside

namespace State

variable {s : State}

/-- The bytes of an access exist if each that translates does. -/
theorem inPhysMem_of_accessAddrs {acc : Access} {sg : SegName} {off : Word} {n c : Nat} {as : List Nat}
    (hex : ∀ k a, k < n → s.translate acc s.cpl (s.linear sg off k) = .ok a → s.inPhysMem a = true)
    (h : s.accessAddrs acc sg off n c = .ok as) : ∀ a ∈ as, s.inPhysMem a = true := fun a ha => by
  obtain ⟨-, -, ht⟩ := accessAddrs_ok.1 h
  obtain ⟨l, hl, hla⟩ := translate_of_translateAll ht ha
  simp only [linears, List.mem_map, List.mem_range] at hl
  obtain ⟨k, hk, rfl⟩ := hl
  exact hex k a hk hla

theorem stackRead_staysInside {n : Nat}
    (hex : ∀ k a, k < n → s.translate .read s.cpl (s.linear .ss s.sp k) = .ok a → s.inPhysMem a = true) :
    StaysInside (s.stackRead n) :=
  (StaysInside.accessAddrs _ _ _ _ _).bind fun _ has =>
    (StaysInside.loadBytes (inPhysMem_of_accessAddrs hex has)).bind fun _ _ => .ok _

theorem destAddrs_staysInside (p : Prefixes) (n : Size) (m : MemOperand) (len : Nat) :
    StaysInside (s.destAddrs p n m len) := by
  refine StaysInside.bind (fun a h => ?_) fun _ _ => .accessAddrs _ _ _ _ _
  cases destOffset_error h

theorem reportedRead_staysInside {x : Exec Word} (hx : StaysInside x) (y : Exec (List Nat)) :
    StaysInside (s.reportedRead x y) := by
  unfold reportedRead
  split
  · nofun
  · exact hx

/-! ### The descriptor tables -/

/-- The bytes of the descriptor, where they translate, exist. -/
def DescriptorExists (s : State) (sel : BitVec 16) : Prop :=
  ∀ acc k a, k < 8 → s.translate acc supervisor (s.descriptorByte sel k) = .ok a → s.inPhysMem a = true

/-- The bytes of a descriptor inside its table exist where the table's do. -/
theorem descriptorExists_of_tables {sel : BitVec 16} (ho : s.outsideTable sel = false) (hglobal : s.globalTableExists)
    (hlocal : selLocal sel = true → s.ldtr.usable = true → s.tableExists s.ldtr.base s.ldtr.limit.toNat) :
    s.DescriptorExists sel := fun acc k a hk h => by
  simp only [outsideTable, Bool.or_eq_false_iff, Bool.and_eq_false_imp, Bool.not_eq_false', decide_eq_false_iff_not,
    Nat.not_lt] at ho
  obtain ⟨husable, hlimit⟩ := ho
  have hle : selIndex sel * 8 + k ≤ s.tableLimit sel := by omega
  unfold tableLimit at hle
  unfold descriptorByte tableBase at h
  cases hl : selLocal sel with
  | true =>
    simp only [hl, if_true] at hle h
    exact hlocal hl (husable hl) _ hle acc a h
  | false =>
    simp only [hl, Bool.false_eq_true, if_false] at hle h
    exact hglobal _ hle acc a h

section Load

variable {sg : SegName} {sel : BitVec 16}

theorem readDescriptor_staysInside (hex : s.DescriptorExists sel) : StaysInside (s.readDescriptor sel) := by
  refine (StaysInside.translateAll _ _ _).bind fun as has => (StaysInside.loadBytes fun a ha => ?_).bind fun _ _ => .ok _
  obtain ⟨l, hl, hla⟩ := translate_of_translateAll has ha
  simp only [List.mem_map, List.mem_range] at hl
  obtain ⟨k, hk, rfl⟩ := hl
  exact hex .read k a hk hla

theorem loadFrom_staysInside (hex : s.DescriptorExists sel) (d : Descriptor) : StaysInside (s.loadFrom sg sel d) := by
  refine StaysInside.bind ?_ fun _ _ => .ok _
  unfold markAccessed
  split
  · exact .ok s
  · refine (StaysInside.translateAll _ _ _).bind fun as has => .storeBytes (fun a ha => ?_) _
    obtain ⟨l, hl, hla⟩ := translate_of_translateAll has ha
    obtain rfl := List.mem_singleton.1 hl
    exact hex .write 5 a (by decide) hla

theorem loadStackSegment_staysInside (hex : s.outsideTable sel = false → s.DescriptorExists sel) :
    StaysInside (s.loadStackSegment sel) := by
  unfold loadStackSegment
  split
  · exact .raise _ _
  · split
    · exact .raise _ _
    · next ho =>
      have hd := hex (Bool.eq_false_iff.2 ho)
      refine (readDescriptor_staysInside hd).bind fun d _ => ?_
      split
      · exact .raise _ _
      · split
        · exact .raise _ _
        · exact loadFrom_staysInside hd d

theorem privDenied_staysInside (d : Descriptor) : StaysInside (s.privDenied sel d) := fun a h => by
  unfold privDenied privViolation at h
  split at h
  · dsimp only at h
    split at h
    · cases h
    · split at h
      · split at h <;> cases h
      · cases h
  · cases h

theorem loadDataSegment_staysInside (hex : s.outsideTable sel = false → s.DescriptorExists sel) :
    StaysInside (s.loadDataSegment sg sel) := by
  unfold loadDataSegment
  split
  · exact .raise _ _
  · next ho =>
    have hd := hex (Bool.eq_false_iff.2 ho)
    refine (readDescriptor_staysInside hd).bind fun d _ => ?_
    split
    · exact .raise _ _
    · refine (privDenied_staysInside d).bind fun b _ => ?_
      split
      · exact .raise _ _
      · split
        · exact .raise _ _
        · exact loadFrom_staysInside hd d

/-- A segment load leaves the memory that exists only where a descriptor it looks up does. -/
theorem loadSeg_staysInside (hex : s.usesTables → s.outsideTable sel = false → s.DescriptorExists sel) :
    StaysInside (s.loadSeg sg sel) := by
  by_cases hm : s.mode = .real ∨ s.mode = .v8086
  · rw [loadSeg_of_real hm]
    exact .ok _
  · have hd := hex (not_or.1 hm)
    unfold loadSeg
    split
    · exact .ok _
    · exact .ok _
    · split
      · exact loadStackSegment_staysInside hd
      · split
        · exact .ok _
        · exact loadDataSegment_staysInside hd
    · split
      · exact loadStackSegment_staysInside hd
      · split
        · exact .ok _
        · exact loadDataSegment_staysInside hd
    · split
      · exact .ok _
      · exact loadDataSegment_staysInside hd

end Load

theorem sregReadBytes_le (s : State) (n : Size) : s.sregReadBytes n ≤ n.bytes := by
  unfold sregReadBytes
  cases s.params.sregPopReadBytes <;> cases n <;> decide

/-- An instruction reads no more bytes than its operand size has. -/
theorem stackBytes_le (s : State) {i : Instr} (hw : i.wf s.ctx = true) :
    s.stackBytes i ≤ (s.ctx.operandSize i.prefixes).bytes := by
  obtain ⟨n, d, hi⟩ | ⟨n, m, hi⟩ | ⟨sg, hi⟩ := Instr.pops i
  · rw [hi.stackBytes, Instr.rowSize_eq_operandSize hw hi.rowSize]
  · rw [hi.stackBytes, Instr.rowSize_eq_operandSize hw hi.rowSize]
  · rw [hi.stackBytes]
    exact s.sregReadBytes_le _

end State

/-- Under premises P4 and P9 for one instruction it makes no access outside the memory that exists. -/
theorem exec_staysInside {i : Instr} {s : State} (hstack : s.stackExists i) (hdest : s.destinationExists i)
    (hglobal : s.globalTableExists) (hlocal : s.localTableExists i) (a : Nat) : exec i s ≠ .refused (.outsidePhysMem a) := by
  intro h
  have hs : s.Starts i ∧ body i s = .error (.refused (.outsidePhysMem a)) := by
    rw [exec_eq_perform, perform] at h
    split at h
    · next hw =>
      split at h
      · cases h
      · next hl =>
        have hb := toOutcome_refused.1 h
        exact ⟨starts_of_body hw (Bool.eq_false_iff.2 hl) (by rw [hb]; nofun), hb⟩
    · cases h
  obtain ⟨hs, hb⟩ := hs
  have hread : StaysInside (s.stackRead (s.stackBytes i)) :=
    State.stackRead_staysInside fun k b hk => hstack k b (hk.trans_le (s.stackBytes_le hs.1))
  obtain ⟨n, d, hi⟩ | ⟨n, m, hi⟩ | ⟨sg, hi⟩ := Instr.pops i
  · rw [hi.stackBytes] at hread
    rw [hi.body_eq] at hb
    exact (hread.bind fun _ _ => .complete _ _ _) a hb
  · have hn := Instr.rowSize_eq_operandSize hs.1 hi.rowSize
    rw [hi.stackBytes] at hread
    rw [body_of_popsMemory hi] at hb
    refine ((State.reportedRead_staysInside hread _).bind fun v _ => (State.destAddrs_staysInside _ _ _ _).bind fun as has =>
      (StaysInside.storeBytes (fun b hb => ?_) v).bind fun _ _ => .complete _ _ _) a hb
    rw [State.writeSp_inPhysMem]
    obtain ⟨off, ho, has⟩ := bind_ok.1 has
    exact State.inPhysMem_of_accessAddrs
      (fun k c hk => hdest m off k c hi.destination (by rw [hn]; exact ho) (by rw [hn]; exact hk)) has b hb
  · rw [hi.body_eq hs] at hb
    rw [hi.stackBytes] at hread
    refine (hread.bind fun raw hraw => (State.loadSeg_staysInside fun htables hout => ?_).bind fun _ _ => .complete _ _ _) a hb
    have hsel : s.popsSelector i (raw.setWidth 16) :=
      ⟨hs.2.1, ⟨sg, hi.segment_eq, fun hm => hs.2.2 hm sg hi⟩, raw, hraw, rfl⟩
    exact State.descriptorExists_of_tables hout hglobal (hlocal _ hsel htables)

/-! ### A run, state by state -/

theorem reached_succ {endPc : Word} : ∀ {k : Nat} {s t : State}, reached endPc (k + 1) s = some t →
    ∃ u, reached endPc k s = some u ∧ u.pc ≠ endPc ∧ step u = .next t
  | k, s, t, h => by
    rw [reached] at h
    split at h
    · cases h
    · next hpc =>
      split at h
      · next u hu =>
        cases k with
        | zero => cases h; exact ⟨s, rfl, hpc, hu⟩
        | succ k =>
          obtain ⟨v, hv, hvpc, hstep⟩ := reached_succ h
          exact ⟨v, by rw [reached, if_neg hpc, hu]; exact hv, hvpc, hstep⟩
      · cases h
      · cases h

/-- What holds at the launch and is kept by each step of the run holds of each state the run comes to. -/
theorem reached_induction {endPc : Word} {s : State} {P : State → Prop} (h0 : P s)
    (hstep : ∀ k u t, reached endPc k s = some u → u.pc ≠ endPc → P u → step u = .next t → P t) :
    ∀ {k : Nat} {t : State}, reached endPc k s = some t → P t
  | 0, t, h => by cases h; exact h0
  | k + 1, t, h => by
    obtain ⟨u, hu, hpc, ht⟩ := reached_succ h
    exact hstep k u t hu hpc (reached_induction h0 hstep hu) ht

theorem globalTableExists_of_step {s t : State} (h : step s = .next t) (hs : s.globalTableExists) : t.globalTableExists := by
  obtain ⟨hmode, -, -, hgdtr, -, -, hphys, hpaging, -⟩ := controlStateIsNeverWritten s t h
  intro k hk acc a ha
  simp only [State.truncLinear, State.translate, hmode, hgdtr, hpaging] at hk ha
  simp only [State.inPhysMem, hphys]
  exact hs k hk acc a ha

section Run

variable {s t : State} {endPc : Word} {k : Nat}

/-- What a state of a run has written, an instruction the run came to has left written. -/
theorem written_of_reached (hs : s.written = []) (h : reached endPc k s = some t) {a : Nat} (ha : a ∈ t.written) :
    ∃ j u i, reached endPc j s = some u ∧ u.pc ≠ endPc ∧ u.fetchInstr = .ok i ∧ exec i (u.enter i.length) = .next t := by
  cases k with
  | zero => cases h; rw [hs] at ha; cases ha
  | succ k =>
    obtain ⟨u, hu, hpc, hstep⟩ := reached_succ h
    obtain ⟨i, hf, hexec, -⟩ := step_next hstep
    exact ⟨k, u, i, hu, hpc, hf, hexec⟩

/-- What a state of a run has executed is part of an instruction the run came to. -/
theorem fetched_of_reached (hs : s.fetched = []) (h : reached endPc k s = some t) :
    ∀ a ∈ t.fetched, ∃ j u, reached endPc j s = some u ∧ u.pc ≠ endPc ∧ a ∈ u.codeAddrs := by
  refine reached_induction (P := fun t => ∀ a ∈ t.fetched, ∃ j u, reached endPc j s = some u ∧ u.pc ≠ endPc ∧
    a ∈ u.codeAddrs) (fun a ha => by rw [hs] at ha; cases ha) (fun k u t hu hpc ih hstep a ha => ?_) h
  obtain ⟨i, hf, hexec, -⟩ := step_next hstep
  obtain hcode | hold := (mem_fetched_of_step hf hexec a).1 ha
  · exact ⟨k, u, hu, hpc, hcode⟩
  · exact ih a hold

end Run

/-- Settles O56: the invariant by induction along the run; written and executed bytes are kept apart by P3, and the accesses
of each instruction are inside by P4 and P9. -/
theorem premisesKeepTheRunInMemory : Obligations.PremisesKeepTheRunInMemory := by
  intro s t endPc k hp hk
  have hl := hp.launch
  refine ⟨reached_induction hl.inv (fun _ u t _ _ hu h => stepKeepsTheInvariant u t hu h) hk, fun hpc => ⟨fun h => ?_, fun h => ?_,
    fun i hf => ?_⟩⟩
  · obtain ⟨a, hcode, hw⟩ := step_fetchModified h
    obtain ⟨j, u, i, hu, hupc, hf, hexec⟩ := written_of_reached hl.nothingWritten hk hw
    exact hp.codeDisjoint k j t u i t hk hpc hu hupc hf hexec a hcode hw
  · obtain ⟨i, v, hf, hexec, a, hw, hfetched⟩ := step_codeWritten h
    obtain hcode | hold := (mem_fetched_of_step hf hexec a).1 hfetched
    · exact hp.codeDisjoint k k t t i v hk hpc hk hpc hf hexec a hcode hw
    · obtain ⟨j, u, hu, hupc, hcode⟩ := fetched_of_reached hl.nothingExecuted hk a hold
      exact hp.codeDisjoint j k u t i v hu hupc hk hpc hf hexec a hcode hw
  · have hglobal : t.globalTableExists :=
      reached_induction hl.globalTableExists (fun _ _ _ _ _ hu h => globalTableExists_of_step h hu) hk
    have hdest : (t.enter i.length).destinationExists i := by
      have := hp.destinationExists k t i hk hpc hf
      intro m off j a hm ho
      rw [State.enter_destOffset] at ho
      exact this m off j a hm ho
    exact exec_staysInside (s := t.enter i.length) (hp.stackExists k t i hk hpc hf) hdest hglobal
      (hp.localTableExists k t i hk hpc hf)

end Sys2Proof.Machine
end
